-- ==== Sys2Proof/Word.lean ====
section
/-! DEFINITION. Word.lean: the widths of 00_scope.md R9. A word is 32 bits, bit 0 the least significant; a byte is 8. -/

namespace Sys2Proof

/-- A 32-bit word: a register's contents, an address, a command word (00_scope.md R9, 20_memory.md R80). -/
abbrev Word := BitVec 32

/-- An 8-bit byte of the serial line and of the text operand. -/
abbrev Byte := BitVec 8

/-- `zext_32(b)` (00_scope.md R9). -/
abbrev zext32 (b : Byte) : Word := b.setWidth 32

end Sys2Proof
end

