-- ==== Sys2Proof/Syntax.lean ====
section
/-! DEFINITION. Syntax.lean: the eleven operations of 30_encoding.md R120, as data. -/

namespace Sys2Proof

/-- One operation with its operands, each as wide as the command word carries it (30_encoding.md R118, R119).
The text of `UART.SEND_STR` is its list of bytes, byte 0 (sent first) at the head; its `len` is the list's length. -/
inductive Instr where
  /-- `GPIO.NEW slot, pin, mode, pull` (40_gpio.md R150). -/
  | gpioNew (slot : BitVec 8) (pin : BitVec 6) (mode : BitVec 3) (pull : BitVec 2)
  /-- `GPIO.ON slot` (40_gpio.md R151). -/
  | gpioOn (slot : BitVec 8)
  /-- `GPIO.OFF slot` (40_gpio.md R152). -/
  | gpioOff (slot : BitVec 8)
  /-- `GPIO.PULL_UP slot` (40_gpio.md R153). -/
  | gpioPullUp (slot : BitVec 8)
  /-- `GPIO.PULL_DOWN slot` (40_gpio.md R154). -/
  | gpioPullDown (slot : BitVec 8)
  /-- `GPIO.PULL_NEITHER slot` (40_gpio.md R155). -/
  | gpioPullNeither (slot : BitVec 8)
  /-- `GPIO.DROP slot` (40_gpio.md R156). -/
  | gpioDrop (slot : BitVec 8)
  /-- `UART.NEW baud` (41_uart.md R185). -/
  | uartNew (baud : Word)
  /-- `UART.SENDC byte` (41_uart.md R187). -/
  | uartSendc (byte : Byte)
  /-- `UART.READC` (41_uart.md R188). -/
  | uartReadc
  /-- `UART.SEND_STR len, text` (41_uart.md R189). -/
  | uartSendStr (text : List Byte)
deriving DecidableEq, Repr

end Sys2Proof
end

