-- ==== Sys2Proof/Config.lean ====
section
/-! DEFINITION. Config.lean: the constants the source fixes, the open parameters of 00_scope.md R7, and the free
values (the spec's `draw`, 00_scope.md R10). -/

namespace Sys2Proof

/-- `PIN_MAX` (00_scope.md R7): the highest valid pin index. -/
def Config.pinMax : Nat := 53

/-- How many pins there are: 0 to `PIN_MAX`. -/
abbrev Config.pinCount : Nat := 54

/-- `SETTLE_CYCLES` (00_scope.md R7): "a hardware-clocking requirement, not a tunable". -/
def Config.settleCycles : BitVec 8 := 150

/-- The two admissible readings of line-status bit 5 (10_state.md R56, 90_conflicts.md C8): the transmitter can take
at least one more byte, or no byte is queued. -/
inductive TxStatus where
  | notFull
  | fifoEmpty
deriving DecidableEq, Repr

/-- `MODE_NAME` (30_encoding.md R111): the 3-bit code behind each of the eight mode names. Only the assembler reads it. -/
structure ModeNames where
  input : BitVec 3
  output : BitVec 3
  alt0 : BitVec 3
  alt1 : BitVec 3
  alt2 : BitVec 3
  alt3 : BitVec 3
  alt4 : BitVec 3
  alt5 : BitVec 3
deriving DecidableEq, Repr

/-- The parameters the model takes as arguments (00_scope.md R7). They are plain data held in `State.params`, so that a
statement about every state is a statement about every value of them. [log 1] -/
structure Params where
  /-- `PERIPH_BASE`: the one base address (R8). -/
  periphBase : Word
  /-- `SYSTEM_CLOCK_HZ`. -/
  clockHz : Nat
  /-- `TX_PIN`. -/
  txPin : BitVec 6
  /-- `RX_PIN`. -/
  rxPin : BitVec 6
  /-- `UART_ALT_CODE`. -/
  uartAltCode : BitVec 3
  /-- `IIR_OFFSET`. -/
  iirOffset : Word
  /-- `FIFO_CLEAR_CODE`. -/
  fifoClearCode : Word
  /-- `FIFO_DEPTH`. -/
  fifoDepth : Nat
  /-- `NSLOT`. -/
  nslot : Nat
  /-- Which reading of `MU_LSR[5]` the SoC implements (10_state.md R56). [log 9] -/
  txStatus : TxStatus
  /-- `MODE_NAME`. -/
  modeNames : ModeNames
deriving DecidableEq, Repr

/-- The default table of 30_encoding.md R111. PRESUMED (the spec marks it "from general knowledge, not in source"). [log 1] -/
def ModeNames.default : ModeNames :=
  { input := 0, output := 1, alt0 := 4, alt1 := 5, alt2 := 6, alt3 := 7, alt4 := 3, alt5 := 2 }

/-- The defaults of 00_scope.md R7. PRESUMED (the spec marks them "from general knowledge, not in source", but for
`SYSTEM_CLOCK_HZ`, which the source gives, and `NSLOT`, the spec's own); `PERIPH_BASE` is one of the spec's two
examples. Only `State.reset` uses them; unsafe for a claim about that one state. [log 1] -/
def Params.default : Params :=
  { periphBase := 0x3F000000, clockHz := 250000000, txPin := 14, rxPin := 15, uartAltCode := 2,
    iirOffset := 0x215048, fifoClearCode := 6, fifoDepth := 8, nslot := 4, txStatus := .notFull,
    modeNames := ModeNames.default }

/-! The free values (`draw`). Each is applied to the counter `State.draws`, so that every draw is a fresh one.
They have no body: nothing can be proved of their values. [log 7] -/

/-- A draw of 32 bits. -/
opaque Config.drawWord : Nat → Word

/-- A draw of one bit: which of two outcomes the spec leaves open. -/
opaque Config.drawBit : Nat → Bool

/-- A draw of a queue's contents, before it is cut to the FIFO's depth. -/
opaque Config.drawQueue : Nat → List Byte

/-- A draw of a 2-bit pull configuration, one for each pin. -/
opaque Config.drawPull : Nat → Nat → BitVec 2

end Sys2Proof
end

