-- ==== Sys2Proof/WellFormed.lean ====
section
/-! DEFINITION. WellFormed.lean: which instructions have an encoding, and which parameters a machine may be built with. -/

namespace Sys2Proof

/-- An instruction its command word can carry. The widths of the other operands stand in `Instr` itself; a text has at
most 65535 bytes (30_encoding.md R120). Operands out of the hardware's range (pin 54 to 63, pull 3, a slot or a baud
rate that is not accepted) are well formed: they decode and then fault (30_encoding.md R123). -/
def Instr.wf : Instr → Bool
  | .uartSendStr text => decide (text.length < 65536)
  | .gpioNew _ _ _ _ | .gpioOn _ | .gpioOff _ | .gpioPullUp _ | .gpioPullDown _ | .gpioPullNeither _ | .gpioDrop _
  | .uartNew _ | .uartSendc _ | .uartReadc => true

/-- The offsets of 20_memory.md R90 but for `MU_IIR`'s. -/
def Params.fixedOffsets : List Word :=
  [0x200000, 0x200004, 0x200008, 0x20000C, 0x200010, 0x200014, 0x20001C, 0x200020, 0x200028, 0x20002C,
   0x200094, 0x200098, 0x20009C, 0x215004, 0x215040, 0x21504C, 0x215054, 0x215060, 0x215068]

/-- `PERIPH_BASE` is a multiple of 4 and no address with an offset up to `0x21506C` wraps (00_scope.md R7,
92_eei_decisions.md D27). The offset of `MU_IIR` is not bounded by it. [log 21] -/
def Params.baseWf (p : Params) : Bool := p.periphBase.toNat % 4 == 0 && decide (0x21506C + p.periphBase.toNat < 2 ^ 32)

/-- `TX_PIN` and `RX_PIN` are at most 53 (60_exceptions.md R213). -/
def Params.pinsWf (p : Params) : Bool := decide (p.txPin.toNat ≤ 53) && decide (p.rxPin.toNat ≤ 53)

/-- `IIR_OFFSET` is a multiple of 4 and no other register's offset (20_memory.md R93). The spec gives it no upper
bound, and neither does the model: `PERIPH_BASE + IIR_OFFSET` may wrap. DESIGN CHOICE. [log 21] -/
def Params.iirWf (p : Params) : Bool := p.iirOffset.toNat % 4 == 0 && !(Params.fixedOffsets.contains p.iirOffset)

/-- `FIFO_DEPTH` is at least 1 (00_scope.md R7). -/
def Params.depthWf (p : Params) : Bool := decide (1 ≤ p.fifoDepth)

/-- `NSLOT` is 1 to 256 (00_scope.md R7). -/
def Params.nslotWf (p : Params) : Bool := decide (1 ≤ p.nslot) && decide (p.nslot ≤ 256)

/-- `SYSTEM_CLOCK_HZ` is at least 1 and less than 2^32, so that every divisor fits a word (41_uart.md R180). -/
def Params.clockWf (p : Params) : Bool := decide (1 ≤ p.clockHz) && decide (p.clockHz < 2 ^ 32)

/-- The parameters a machine may be built with: "parameters are checked when the model is instantiated, not at run
time" (41_uart.md R185 corner case 4). -/
def Params.wf (p : Params) : Bool :=
  p.baseWf && p.pinsWf && p.iirWf && p.depthWf && p.nslotWf && p.clockWf

end Sys2Proof
end

