-- ==== Sys2Proof/Decode.lean ====
section
/-! DEFINITION. Decode.lean: command words to operations (30_encoding.md R117 to R126) and back. The decoder takes the
words waiting on the command port and answers an operation with the words that remain, an illegal word, or that
the command is not all there yet. -/

namespace Sys2Proof

/-- What the decoder finds at the head of the command port. -/
inductive Decoded where
  /-- A whole command: the operation and the words after it. -/
  | command (i : Instr) (rest : List Word)
  /-- A command word that matches no row of the opcode map (30_encoding.md R122); the words after it, of which no
  extension word has been taken (60_exceptions.md R211). -/
  | illegal (w : Word) (rest : List Word)
  /-- No word, or a command whose extension words are not all there (30_encoding.md R125): the sequencer waits. -/
  | incomplete
deriving DecidableEq, Repr

/-- One row of the opcode map (30_encoding.md R121). -/
structure OpcodeRow where
  mnemonic : String
  mtch : Word
  mask : Word
deriving DecidableEq, Repr

/-- The opcode map of 30_encoding.md R121, row by row. -/
def opcodeMap : List OpcodeRow :=
  [⟨"GPIO.NEW", 0x10000000, 0xFF00C8C0⟩, ⟨"GPIO.ON", 0x11000000, 0xFF00FFFF⟩, ⟨"GPIO.OFF", 0x12000000, 0xFF00FFFF⟩,
   ⟨"GPIO.PULL_UP", 0x13000000, 0xFF00FFFF⟩, ⟨"GPIO.PULL_DOWN", 0x14000000, 0xFF00FFFF⟩,
   ⟨"GPIO.PULL_NEITHER", 0x15000000, 0xFF00FFFF⟩, ⟨"GPIO.DROP", 0x16000000, 0xFF00FFFF⟩,
   ⟨"UART.NEW", 0x20000000, 0xFFFFFFFF⟩, ⟨"UART.SENDC", 0x21000000, 0xFFFFFF00⟩,
   ⟨"UART.READC", 0x22000000, 0xFFFFFFFF⟩, ⟨"UART.SEND_STR", 0x23000000, 0xFFFF0000⟩]

/-- `(w & mask) = match` (30_encoding.md R121). -/
def OpcodeRow.selects (r : OpcodeRow) (w : Word) : Bool := w &&& r.mask == r.mtch

/-! Fields (30_encoding.md R119): each is its bits as they stand. -/

/-- `slot[23:16]`. -/
def fieldSlot (w : Word) : BitVec 8 := w.extractLsb' 16 8

/-- `pull[13:12]`. -/
def fieldPull (w : Word) : BitVec 2 := w.extractLsb' 12 2

/-- `mode[10:8]`. -/
def fieldMode (w : Word) : BitVec 3 := w.extractLsb' 8 3

/-- `pin[5:0]`. -/
def fieldPin (w : Word) : BitVec 6 := w.extractLsb' 0 6

/-- `byte[7:0]`. -/
def fieldByte (w : Word) : BitVec 8 := w.extractLsb' 0 8

/-- `len[15:0]`. -/
def fieldLen (w : Word) : BitVec 16 := w.extractLsb' 0 16

/-- How many extension words a text of `len` bytes takes: `(len + 3) / 4` (30_encoding.md R118). -/
def textWords (len : Nat) : Nat := (len + 3) / 4

/-- The four bytes of an extension word, the lowest byte index in the least significant byte (30_encoding.md R126). -/
def wordBytes (w : Word) : List Byte :=
  [w.extractLsb' 0 8, w.extractLsb' 8 8, w.extractLsb' 16 8, w.extractLsb' 24 8]

/-- The text of `len` bytes in these extension words; the bytes beyond `len` are ignored (30_encoding.md R126). -/
def unpackText (len : Nat) (ws : List Word) : List Byte := (ws.flatMap wordBytes).take len

/-- The number of extension words, a function of the command word alone (30_encoding.md R117, R125). -/
def extCount (w : Word) : Nat :=
  if w &&& 0xFFFFFFFF == 0x20000000 then 1
  else if w &&& 0xFFFF0000 == 0x23000000 then textWords (fieldLen w).toNat
  else 0

/-- The operation a command word and its extension words stand for, `none` where the word matches no row of the
opcode map (30_encoding.md R121, R122). -/
def decodeWords (w : Word) (ext : List Word) : Option Instr :=
  if w &&& 0xFF00C8C0 == 0x10000000 then some (.gpioNew (fieldSlot w) (fieldPin w) (fieldMode w) (fieldPull w))
  else if w &&& 0xFF00FFFF == 0x11000000 then some (.gpioOn (fieldSlot w))
  else if w &&& 0xFF00FFFF == 0x12000000 then some (.gpioOff (fieldSlot w))
  else if w &&& 0xFF00FFFF == 0x13000000 then some (.gpioPullUp (fieldSlot w))
  else if w &&& 0xFF00FFFF == 0x14000000 then some (.gpioPullDown (fieldSlot w))
  else if w &&& 0xFF00FFFF == 0x15000000 then some (.gpioPullNeither (fieldSlot w))
  else if w &&& 0xFF00FFFF == 0x16000000 then some (.gpioDrop (fieldSlot w))
  else if w &&& 0xFFFFFFFF == 0x20000000 then some (.uartNew (ext.headD 0))
  else if w &&& 0xFFFFFF00 == 0x21000000 then some (.uartSendc (fieldByte w))
  else if w &&& 0xFFFFFFFF == 0x22000000 then some .uartReadc
  else if w &&& 0xFFFF0000 == 0x23000000 then some (.uartSendStr (unpackText (fieldLen w).toNat ext))
  else none

/-- Decode what waits on the command port. -/
def decode : List Word → Decoded
  | [] => .incomplete
  | w :: ws =>
    if ws.length < extCount w then .incomplete
    else match decodeWords w (ws.take (extCount w)) with
      | some i => .command i (ws.drop (extCount w))
      | none => .illegal w ws

/-! The encoder, from the formats of 30_encoding.md R118. -/

/-- Four bytes as one extension word, byte 0 least significant (30_encoding.md R126). -/
def packWord (a b c d : Byte) : Word := d ++ c ++ b ++ a

/-- A text as its extension words (30_encoding.md R126); the bytes after the last one of the text are 0. -/
def packText : List Byte → List Word
  | [] => []
  | [a] => [packWord a 0 0 0]
  | [a, b] => [packWord a b 0 0]
  | [a, b, c] => [packWord a b c 0]
  | a :: b :: c :: d :: text => packWord a b c d :: packText text

/-- Format `G` (30_encoding.md R118): opcode, slot, 16 zeros. -/
def encodeG (opcode slot : BitVec 8) : Word := opcode ++ slot ++ (0 : BitVec 16)

/-- The words of an instruction. -/
def encode : Instr → List Word
  | .gpioNew slot pin mode pull =>
      [(0x10 : BitVec 8) ++ slot ++ (0 : BitVec 2) ++ pull ++ (0 : BitVec 1) ++ mode ++ (0 : BitVec 2) ++ pin]
  | .gpioOn slot => [encodeG 0x11 slot]
  | .gpioOff slot => [encodeG 0x12 slot]
  | .gpioPullUp slot => [encodeG 0x13 slot]
  | .gpioPullDown slot => [encodeG 0x14 slot]
  | .gpioPullNeither slot => [encodeG 0x15 slot]
  | .gpioDrop slot => [encodeG 0x16 slot]
  | .uartNew baud => [0x20000000, baud]
  | .uartSendc byte => [(0x210000 : BitVec 24) ++ byte]
  | .uartReadc => [0x22000000]
  | .uartSendStr text => ((0x2300 : BitVec 16) ++ BitVec.ofNat 16 text.length) :: packText text

/-- Extension word `k` of an instruction whose bits are `w`, numbered from bit 32 up. -/
def tableExt (w : Nat) (k : Nat) : Word := BitVec.ofNat 32 (w >>> (32 * (k + 1)))

/-- The words of an instruction whose bits are `w`, of which the table gives `nbits`: the command word is bits 31..0,
each extension word the next 32, and every bit from `nbits` on is 0. -/
def tableWords (nbits w : Nat) : List Word :=
  let v := w % 2 ^ nbits
  let cmd := BitVec.ofNat 32 v
  cmd :: (List.range (extCount cmd)).map (tableExt v)

/-- The instruction the decoder reads from an instruction whose bits are `w`. -/
def decodeTableWord (nbits w : Nat) : Option Instr :=
  match decode (tableWords nbits w) with
  | .command i _ => some i
  | .illegal _ _ => none
  | .incomplete => none

end Sys2Proof
end

