-- ==== Sys2Proof/Machine/State.lean ====
section
/-! DEFINITION. State.lean: everything the spec gives the machine (10_state.md), as plain data, and the state after
reset. -/

namespace Sys2Proof.Machine

/-! ## The sequencer's contexts -/

/-- A GPIO context (10_state.md R21). `valid = false` means the context is not there and its other fields have no value
(R22): `State.context` is the one way to read them. -/
structure GpioContext where
  valid : Bool
  pin : BitVec 6
  mode : BitVec 3
  pull : BitVec 2
  state : Bool
deriving DecidableEq, Repr

/-- The UART context (10_state.md R24, R25). -/
structure UartContext where
  valid : Bool
  baud : Word
  tx : GpioContext
  rx : GpioContext
deriving DecidableEq, Repr

/-! ## Faults, responses, trace -/

/-- The seven preconditions the sequencer checks (60_exceptions.md R210). Raising one is an effect of the machine, a
next state; it is no `Fault` of the model. -/
inductive FaultCode where
  | illegalCommand
  | badSlot
  | badPin
  | badPull
  | noUart
  | uartExists
  | badBaud
deriving DecidableEq, Repr

/-- A response on the command port (30_encoding.md R127). -/
inductive Response where
  | done
  | value (w : Word)
  | fault (code : BitVec 8)
deriving DecidableEq, Repr

/-- An event of the trace (20_memory.md R98): a read with the word it returned, a write, a completed delay. -/
inductive Event where
  | rd (addr w : Word)
  | wr (addr v : Word)
  | dl (n : BitVec 8)
deriving DecidableEq, Repr

/-! ## The register target -/

/-- The register instances of 20_memory.md R90. -/
inductive Reg where
  | fsel (n : Fin 6)
  | set (n : Fin 2)
  | clr (n : Fin 2)
  | pud
  | pudclk (n : Fin 2)
  | auxenb
  | muIo
  | muIir
  | muLcr
  | muLsr
  | muCntl
  | muBaud
deriving DecidableEq, Repr

/-- The register target: the stored registers of 10_state.md section 3 and the state behind them (section 4). -/
structure Target where
  /-- `FSEL[0..5]` (R41). -/
  fsel : Vector Word 6
  /-- `OUT[0..53]` (R45): bit `p` is pin `p`'s output latch. -/
  out : BitVec Config.pinCount
  /-- `PUD` (R48). -/
  pud : Word
  /-- `PUDCLK[0..1]` (R50). -/
  pudclk : Vector Word 2
  /-- `PULL[0..53]` (R49). -/
  pull : Vector (BitVec 2) Config.pinCount
  /-- `AUXENB` (R52). -/
  auxenb : Word
  /-- `MU_LCR` (R55). -/
  lcr : Word
  /-- `MU_CNTL` (R58). -/
  cntl : Word
  /-- `MU_BAUD` (R59). -/
  baud : Word
  /-- `TXF` (R61), the head first. -/
  txf : List Byte
  /-- `RXF` (R61), the head first. -/
  rxf : List Byte
deriving DecidableEq, Repr

/-! ## The sequencer's place in an operation -/

/-- The status bit a polling loop waits for (41_uart.md R182). -/
inductive PollBit where
  | rxReady
  | txEmpty
deriving DecidableEq, Repr

/-- The context update that ends an operation, together with its response (10_state.md R28). -/
inductive Update where
  /-- `G[slot] <- { valid = 1, pin, mode, pull, state = 0 }` (40_gpio.md R150). -/
  | newContext (slot : BitVec 8) (pin : BitVec 6) (mode : BitVec 3) (pull : BitVec 2)
  /-- `G[slot].state <- on` (40_gpio.md R151, R152). -/
  | setState (slot : BitVec 8) (on : Bool)
  /-- `G[slot].pull <- code` (40_gpio.md R153 to R155). -/
  | setPull (slot : BitVec 8) (code : BitVec 2)
  /-- `G[slot].valid <- 0` (40_gpio.md R156). -/
  | drop (slot : BitVec 8)
  /-- `U <- …` (41_uart.md R185). -/
  | newUart (baud : Word)
  /-- No context changes; the response is `Done` (41_uart.md R187, R189). -/
  | sent
  /-- No context changes; the response is the low byte of the word read last (41_uart.md R188). -/
  | received
deriving DecidableEq, Repr

/-- A micro-operation (00_scope.md R14, 10_state.md R28). -/
inductive MicroOp where
  /-- `w <- MemRead(addr, 4)`. -/
  | memRead (addr : Word)
  /-- `MemWrite(addr, 4, v)`. -/
  | memWrite (addr v : Word)
  /-- `MemWrite(addr, 4, (w & ~clear) | bits)`: the write of a read-modify-write (40_gpio.md R141, 41_uart.md R185). -/
  | memModify (addr clear bits : Word)
  /-- `Delay(n)` about to start (40_gpio.md R143). -/
  | delay (n : BitVec 8)
  /-- `Delay(n)` running: `dly` cycles are left. -/
  | wait (n : BitVec 8)
  /-- One iteration of `POLL(k)` (41_uart.md R182). -/
  | poll (k : PollBit)
  /-- `Nop` (41_uart.md R183). -/
  | nop
  /-- The context update and the response. -/
  | finish (u : Update)
deriving DecidableEq, Repr

/-- A word an access returned, with the bits the spec determines kept apart from those it leaves open (the draws), so that
the determined ones can be computed without them. `ReadWord.toWord` is the word itself. [log 17] -/
inductive ReadWord where
  /-- A whole word: a stored register, or a draw of 32 bits. -/
  | plain (w : Word)
  /-- A data-register read (10_state.md R54): bits 31:8 open, bits 7:0 the byte. -/
  | data (high : BitVec 24) (b : Byte)
  /-- A line-status read (10_state.md R56, R57): bit 0, bit 5, and a word that gives the open bits. -/
  | status (other : Word) (rx tx : Bool)
deriving DecidableEq, Repr

/-- `seq` (10_state.md R27): idle, or the operation in progress, the word it read last (the `w` of its pseudocode)
[log 17] and its remaining micro-operations. -/
inductive Seq where
  | idle
  | busy (op : Instr) (w : ReadWord) (rest : List MicroOp)
deriving DecidableEq, Repr

/-! ## The environment -/

/-- A step of the environment: of the serial line (10_state.md R62, R63), or a reset (70_reset_and_hazards.md R240) with
the state it leaves the register target in, which the spec leaves open (10_state.md R71). [log 5, log 14] -/
inductive EnvStep where
  | txDrain
  | rxArrive (b : Byte)
  | reset (launch : Target)
deriving DecidableEq, Repr

/-! ## The state -/

/-- The whole machine. -/
structure State where
  /-- The parameters (00_scope.md R7); no step changes them. The model's own field. [log 1] -/
  params : Params
  /-- `G[0..NSLOT-1]` (10_state.md R22). -/
  slots : List GpioContext
  /-- `U` (10_state.md R24). -/
  uart : UartContext
  /-- `run` (10_state.md R26). -/
  run : Bool
  /-- `fault` (10_state.md R26). -/
  fault : BitVec 8
  /-- `seq` (10_state.md R27). -/
  seq : Seq
  /-- `dly` (10_state.md R30). -/
  dly : BitVec 8
  /-- The register target (10_state.md section 3). -/
  target : Target
  /-- `LINE_TX` (10_state.md R65), oldest first. -/
  lineTx : List Byte
  /-- The trace (20_memory.md R98), oldest first. -/
  trace : List Event
  /-- The words the host has still to deliver on the command port. The model's own field. [log 6] -/
  cmdPort : List Word
  /-- The responses delivered so far, oldest first. The model's own field. [log 18] -/
  responses : List Response
  /-- The illegal command word refused last (60_exceptions.md R210: "model bookkeeping only"). [log 18] -/
  badCommand : Option Word
  /-- The environment's steps before each coming sequencer step. The model's own field. [log 5] -/
  sched : List (List EnvStep)
  /-- How many free values have been drawn. The model's own field. [log 7] -/
  draws : Nat
deriving DecidableEq, Repr

/-! ## Stops of the model -/

/-- Faults of the model. -/
inductive Fault where
  /-- A context update names a context that is not there (slot out of range or not valid): its fields have no value, and
  "reading them is an error of the model" (10_state.md R22). Raised by the last micro-operation of an operation; safe: every
  operation checks the slot before its first micro-operation, so only a `seq` that no run reaches raises it. [log 16] -/
  | noContext (slot : BitVec 8)
deriving DecidableEq, Repr

/-- Refusals of the model. -/
inductive Refusal where
  /-- An instruction that has no meaning yet. Safe; no instruction is refused so. -/
  | notModelled (mnemonic : String)
  /-- An access to an address that is no register of 20_memory.md R90: "the model refuses it" (R85). Raised by the register
  target; safe: no operation produces such an address. [log 15] -/
  | unmappedAddress (addr : Word)
  /-- A write of `MU_LSR`: "its effect is unspecified and the model refuses it" (10_state.md R57). Raised by the register target;
  safe: no operation does it. [log 15] -/
  | lineStatusWrite (v : Word)
  /-- A write of `MU_IIR` other than `FIFO_CLEAR_CODE`: "the model refuses it" (10_state.md R60). Raised by the register target;
  safe: no operation does it. [log 15] -/
  | iirWrite (v : Word)
deriving DecidableEq, Repr

/-! ## Reset -/

/-- A context that is not there. The zeros of its fields are a DESIGN CHOICE: they have no value (10_state.md R22). [log 3] -/
def GpioContext.absent : GpioContext := { valid := false, pin := 0, mode := 0, pull := 0, state := false }

/-- The UART context before `UART.NEW`. [log 3] -/
def UartContext.absent : UartContext := { valid := false, baud := 0, tx := .absent, rx := .absent }

/-- Every register, latch and queue of the target at 0 or empty. DESIGN CHOICE, unsafe: the spec leaves the target's state
after reset unspecified (10_state.md R71). [log 2] -/
def Target.zero : Target :=
  { fsel := Vector.replicate 6 0, out := 0, pud := 0, pudclk := Vector.replicate 2 0,
    pull := Vector.replicate Config.pinCount 0, auxenb := 0, lcr := 0, cntl := 0, baud := 0, txf := [], rxf := [] }

/-- The machine right after reset with these parameters and this launch state of the target (10_state.md R70 to R72). -/
def State.resetWith (p : Params) (launch : Target) : State :=
  { params := p, slots := List.replicate p.nslot .absent, uart := .absent, run := true, fault := 0, seq := .idle, dly := 0,
    target := launch, lineTx := [], trace := [], cmdPort := [], responses := [], badCommand := none, sched := [],
    draws := 0 }

/-- The machine right after reset (10_state.md R72), with the default parameters [log 1] and a target of zeros [log 2]. -/
def State.reset : State := State.resetWith Params.default Target.zero

end Sys2Proof.Machine
end

