-- ==== Sys2Proof/Machine/Operands.lean ====
section
/-! DEFINITION. Operands.lean: addresses, pin bits, fields and the divisor: every operand form of the micro-operations
(00_scope.md R12, 20_memory.md R90, 41_uart.md R180, R181). -/

namespace Sys2Proof.Machine

/-! ## Register addresses -/

/-- The offset of a register (20_memory.md R90). -/
def regOffset (p : Params) : Reg → Word
  | .fsel n => 0x200000 + 4 * BitVec.ofNat 32 n.val
  | .set n => 0x20001C + 4 * BitVec.ofNat 32 n.val
  | .clr n => 0x200028 + 4 * BitVec.ofNat 32 n.val
  | .pud => 0x200094
  | .pudclk n => 0x200098 + 4 * BitVec.ofNat 32 n.val
  | .auxenb => 0x215004
  | .muIo => 0x215040
  | .muIir => p.iirOffset
  | .muLcr => 0x21504C
  | .muLsr => 0x215054
  | .muCntl => 0x215060
  | .muBaud => 0x215068

/-- `PERIPH_BASE` plus the offset (20_memory.md R90, 00_scope.md R8). The offset stands first so that the term does not unfold in unary
while `PERIPH_BASE` is a variable. The sum is modulo 2^32: with legal parameters only the one for `MU_IIR` can wrap, whose offset the
spec does not bound. DESIGN CHOICE. [log 21] -/
def regAddr (p : Params) (r : Reg) : Word := regOffset p r + p.periphBase

/-- Every register instance, a row of 20_memory.md R90 each. -/
def allRegs : List Reg :=
  [.fsel 0, .fsel 1, .fsel 2, .fsel 3, .fsel 4, .fsel 5, .set 0, .set 1, .clr 0, .clr 1, .pud, .pudclk 0, .pudclk 1,
   .auxenb, .muIo, .muLcr, .muLsr, .muCntl, .muBaud, .muIir]

/-- The register at an address, `none` outside the map (20_memory.md R90, R91). -/
def regAt (p : Params) (a : Word) : Option Reg := allRegs.find? (fun r => regAddr p r == a)

/-! ## Pins (00_scope.md R12) -/

/-- `FSEL_ADDR(p) = PERIPH_BASE + 0x200000 + 4*(p / 10)`. -/
def fselAddr (p : Params) (pin : BitVec 6) : Word := 0x200000 + 4 * BitVec.ofNat 32 (pin.toNat / 10) + p.periphBase

/-- `SET_ADDR(p) = PERIPH_BASE + 0x20001C + 4*(p / 32)`. -/
def setAddr (p : Params) (pin : BitVec 6) : Word := 0x20001C + 4 * BitVec.ofNat 32 (pin.toNat / 32) + p.periphBase

/-- `CLR_ADDR(p) = PERIPH_BASE + 0x200028 + 4*(p / 32)`. -/
def clrAddr (p : Params) (pin : BitVec 6) : Word := 0x200028 + 4 * BitVec.ofNat 32 (pin.toNat / 32) + p.periphBase

/-- `PUDCLK_ADDR(p) = PERIPH_BASE + 0x200098 + 4*(p / 32)`. -/
def pudclkAddr (p : Params) (pin : BitVec 6) : Word := 0x200098 + 4 * BitVec.ofNat 32 (pin.toNat / 32) + p.periphBase

/-- `PUD_ADDR = PERIPH_BASE + 0x200094`. -/
def pudAddr (p : Params) : Word := 0x200094 + p.periphBase

/-- `FSEL_SHIFT(p) = 3*(p mod 10)`. -/
def fselShift (pin : BitVec 6) : Nat := 3 * (pin.toNat % 10)

/-- `PIN_BIT(p) = 1 << (p mod 32)`. -/
def pinBit (pin : BitVec 6) : Word := 1#32 <<< (pin.toNat % 32)

/-- `0b111 << FSEL_SHIFT(p)`: the pin's field of its function-select register (40_gpio.md R141). -/
def fselField (pin : BitVec 6) : Word := 7#32 <<< fselShift pin

/-- `code << FSEL_SHIFT(p)` (40_gpio.md R141). -/
def fselCode (pin : BitVec 6) (code : BitVec 3) : Word := code.setWidth 32 <<< fselShift pin

/-- The write of a read-modify-write: `(w & ~clear) | bits`. -/
def rmwWord (w clear bits : Word) : Word := (w &&& ~~~clear) ||| bits

/-- `FUNC(p)` (10_state.md R41): the function code of a pin. -/
def Target.func (t : Target) (p : Fin Config.pinCount) : BitVec 3 :=
  (t.fsel[p.val / 10]'(by have := p.isLt; simp only [Config.pinCount] at this; omega)).extractLsb' (3 * (p.val % 10)) 3

/-- The 54-pin mask of a word written to register `n` of a pair: bit `i` is pin `32n + i`, and the bits above pin 53
select no pin (10_state.md R44). -/
def pinMask (n : Fin 2) (v : Word) : BitVec Config.pinCount := v.setWidth Config.pinCount <<< (32 * n.val)

/-- Bit `p mod 32` of register `p / 32` of a pair (10_state.md R50). -/
def pairBit (v : Vector Word 2) (p : Fin Config.pinCount) : Bool :=
  (v[p.val / 32]'(by have := p.isLt; simp only [Config.pinCount] at this; omega)).getLsbD (p.val % 32)

/-- Bits 7:0 of a word (41_uart.md R181). -/
def lowByte (w : Word) : Byte := w.extractLsb' 0 8

/-! ## Words that were read -/

/-- The bits of `MU_LSR` that are not described: every bit but 0 and 5 (10_state.md R57). -/
def lsrOpenBits : Word := 0xFFFFFFDE

/-- The position of the bit a polling loop tests (41_uart.md R182). -/
def PollBit.index : PollBit → Nat
  | .rxReady => 0
  | .txEmpty => 5

/-- The word an access returned. -/
def ReadWord.toWord : ReadWord → Word
  | .plain w => w
  | .data high b => high ++ b
  | .status other rx tx => (other &&& lsrOpenBits) ||| (if rx then 0x1 else 0) ||| (if tx then 0x20 else 0)

/-- Bits 7:0 of the word (`ReadWord.low_eq` in Laws/Operands.lean). -/
def ReadWord.low : ReadWord → Byte
  | .plain w => lowByte w
  | .data _ b => b
  | .status other rx tx => lowByte (ReadWord.toWord (.status other rx tx))

/-- The bit a polling loop tests (`ReadWord.bit_eq` in Laws/Operands.lean). -/
def ReadWord.bit (k : PollBit) : ReadWord → Bool
  | .plain w => w.getLsbD k.index
  | .data high b => (ReadWord.toWord (.data high b)).getLsbD k.index
  | .status _ rx tx => match k with
    | .rxReady => rx
    | .txEmpty => tx

/-! ## The divisor -/

/-- `baud = 0` or `8 * baud > SYSTEM_CLOCK_HZ` (60_exceptions.md R216), over unbounded naturals. -/
def badBaud (clock baud : Nat) : Bool := baud == 0 || decide (clock < 8 * baud)

/-- `computeDivisor` (41_uart.md R180), over unbounded naturals; it has no value where `badBaud` holds. -/
def computeDivisor (clock baud : Nat) : Nat := clock / (8 * baud) - 1

/-- The divisor as the word written to `MU_BAUD` (41_uart.md R185 step 4). -/
def divisorWord (p : Params) (baud : Word) : Word := BitVec.ofNat 32 (computeDivisor p.clockHz baud.toNat)

end Sys2Proof.Machine
end

