-- ==== Sys2Proof/Machine/Flags.lean ====
section
/-! DEFINITION. Flags.lean: the status and enable bits (10_state.md R31, R52, R56, R58). There are no condition codes. -/

namespace Sys2Proof.Machine

/-- `AUXENB[0]`: the mini-UART is enabled (10_state.md R52). -/
def Target.enabled (t : Target) : Bool := t.auxenb.getLsbD 0

/-- `rx_en = MU_CNTL[0]` (10_state.md R58). The values 1 and 2 are PRESUMED there. [log 12] -/
def Target.rxEn (t : Target) : Bool := t.cntl.getLsbD 0

/-- `tx_en = MU_CNTL[1]` (10_state.md R58). [log 12] -/
def Target.txEn (t : Target) : Bool := t.cntl.getLsbD 1

/-- `MU_LSR[0]`, "data ready": `RXF` is not empty (10_state.md R56). -/
def rxReady (t : Target) : Bool := !t.rxf.isEmpty

/-- `MU_LSR[5]`, "tx empty", in the reading the parameter names (10_state.md R56). [log 9] -/
def txReady (p : Params) (t : Target) : Bool :=
  match p.txStatus with
  | .notFull => decide (t.txf.length < p.fifoDepth)
  | .fifoEmpty => t.txf.isEmpty

/-- The line-status word (10_state.md R56), its other bits taken from `other` (R57). -/
def lineStatus (p : Params) (t : Target) (other : Word) : ReadWord := .status other (rxReady t) (txReady p t)

/-- The code a fault latches (60_exceptions.md R210). -/
def FaultCode.code : FaultCode → BitVec 8
  | .illegalCommand => 0x01
  | .badSlot => 0x02
  | .badPin => 0x03
  | .badPull => 0x04
  | .noUart => 0x05
  | .uartExists => 0x06
  | .badBaud => 0x07

end Sys2Proof.Machine
end

