-- ==== Sys2Proof/Machine/Ops.lean ====
section
/-! DEFINITION. Ops.lean: the named updates of State, taking a fault, the reset event, the register target's reads and
writes, the MMIO accessor, and the environment's steps. -/

namespace Sys2Proof.Machine

/-! ## Updates of one field (their laws: Laws/State.lean) -/

def State.withTarget (t : Target) (s : State) : State := { s with target := t }
def State.withSeq (q : Seq) (s : State) : State := { s with seq := q }
def State.withDly (d : BitVec 8) (s : State) : State := { s with dly := d }
def State.withSlots (l : List GpioContext) (s : State) : State := { s with slots := l }
def State.withUart (u : UartContext) (s : State) : State := { s with uart := u }
def State.withLineTx (l : List Byte) (s : State) : State := { s with lineTx := l }
def State.withCmdPort (l : List Word) (s : State) : State := { s with cmdPort := l }
def State.withSched (l : List (List EnvStep)) (s : State) : State := { s with sched := l }

/-- Append an event to the trace (20_memory.md R98). -/
def State.logEvent (e : Event) (s : State) : State := { s with trace := s.trace ++ [e] }

/-- `respond r` (00_scope.md R10): deliver a response on the command port. -/
def State.respond (r : Response) (s : State) : State := { s with responses := s.responses ++ [r] }

/-- Note the illegal command word (60_exceptions.md R210). -/
def State.noteBadCommand (w : Word) (s : State) : State := { s with badCommand := some w }

/-- One free value has been used: the next is a fresh one. [log 7] -/
def State.drawn (s : State) : State := { s with draws := s.draws + 1 }

/-! ## Taking a fault, and the way out of it -/

/-- `raise F` (60_exceptions.md R219): `fault <- code(F)`, `run <- 0`, `seq <- idle`, respond `Fault(code(F))`; nothing else. -/
def State.raise (f : FaultCode) (s : State) : State :=
  { s with fault := f.code, run := false, seq := .idle, responses := s.responses ++ [.fault f.code] }

/-- A launch state's queues cut to the FIFO's depth (10_state.md R71: "any two queues of at most `FIFO_DEPTH` bytes"). -/
def Target.cut (depth : Nat) (t : Target) : Target := { t with txf := t.txf.take depth, rxf := t.rxf.take depth }

/-- The reset event (70_reset_and_hazards.md R240), the only exit from a halt (60_exceptions.md R221): the sequencer goes to the
state of 10_state.md R70, the target to `launch` (R71), trace and `LINE_TX` are empty (R72); an operation cut short gives
no response. The parameters, the host's words, the responses already given and the environment's later steps are no state
of the machine and stay. [log 14] -/
def State.resetEvent (launch : Target) (s : State) : State :=
  { State.resetWith s.params (launch.cut s.params.fifoDepth) with
    cmdPort := s.cmdPort, responses := s.responses, sched := s.sched, draws := s.draws }

/-! ## The pull latch (10_state.md R48 to R51) -/

/-- What one event means for "a completed `Delay(k)`, `k >= SETTLE_CYCLES`, since the most recent write of the register at
`a`": `none` while there is no write to count from. -/
def settleStep (a : Word) (acc : Option Bool) : Event → Option Bool
  | .rd _ _ => acc
  | .wr b _ => if b == a then some false else acc
  | .dl n => acc.map (fun settled => settled || decide (Config.settleCycles ≤ n))

/-- The trace holds a write of the register at `a` and, since the most recent one, a completed settle delay (10_state.md
R50 (ii), R51 (a)). A trace without such a write answers `false`. [log 8] -/
def settledSince (a : Word) (trace : List Event) : Bool := trace.foldl (settleStep a) none == some true

/-- The trace holds a completed settle delay since the write that gave the register at `a` its bits (10_state.md R51 (a)): the
most recent write, or, where the trace holds none, the launch itself, so that any completed settle delay of the trace counts and
the pull sequence latches its code from every launch state (40_gpio.md R142). [log 8] -/
def heldSince (a : Word) (trace : List Event) : Bool := trace.foldl (settleStep a) (some false) == some true

/-- The register of a pair that holds a pin's bit. -/
def pairIndex (p : Fin Config.pinCount) : Fin 2 := Fin.ofNat 2 (p.val / 32)

/-- The staged pull code `PUD[1:0]` (10_state.md R48). -/
def Target.staged (t : Target) : BitVec 2 := t.pud.extractLsb' 0 2

/-- The pin's clock bit is 1 and no settle delay has passed since it was set: a write of `PUDCLK` now breaks the hold delay
(10_state.md R51 (a)), and so does one of `PUD` (`stageReaches`). -/
def holdBroken (s : State) (p : Fin Config.pinCount) : Bool :=
  pairBit s.target.pudclk p && !heldSince (regAddr s.params (.pudclk (pairIndex p))) s.trace

/-- What one event means for "a write of the register at `pud` since the most recent write of the one at `clk`". -/
def restageStep (pud clk : Word) (acc : Bool) : Event → Bool
  | .wr b _ => if b == clk then false else b == pud || acc
  | .rd _ _ | .dl _ => acc

/-- The trace holds a write of `PUD` (at `pud`) since the most recent write of the clock register at `clk`. -/
def restagedSince (pud clk : Word) (trace : List Event) : Bool := trace.foldl (restageStep pud clk) false

/-- A write of `v` to `PUD` is the first clear of the clean-up after the pin's latch (40_gpio.md R142 e, 70_reset_and_hazards.md
R253): it stages code 0, the hold delay has passed since a write of the pin's clock register, and `PUD` has not been written since
that write. [log 8] -/
def cleansUp (s : State) (v : Word) (p : Fin Config.pinCount) : Bool :=
  v.extractLsb' 0 2 == 0 && settledSince (regAddr s.params (.pudclk (pairIndex p))) s.trace
    && !restagedSince (regAddr s.params .pud) (regAddr s.params (.pudclk (pairIndex p))) s.trace

/-- A write of `v` to `PUD` reaches the pin (70_reset_and_hazards.md R253): its clock bit is 1, and the write is not the first clear of
the clean-up. A broken hold delay (10_state.md R51 (a)) is one such case, a bit that is 1 at launch another (R73), and `PUD` written
again under a bit that was left 1 after its hold delay the third (93_implementation_defined.md U18). [log 8] -/
def stageReaches (s : State) (v : Word) (p : Fin Config.pinCount) : Bool :=
  pairBit s.target.pudclk p && !cleansUp s v p

/-- `PULL` after a write of `v` to `PUD`: a draw for every pin the write reaches (10_state.md R51 (a), R73; 70_reset_and_hazards.md
R253; 93_implementation_defined.md U18), and for no other. -/
def pullAfterStage (v : Word) (s : State) : Vector (BitVec 2) Config.pinCount :=
  Vector.ofFn fun p => if stageReaches s v p then Config.drawPull s.draws p.val else s.target.pull[p]

/-- What a clocked pin latches (10_state.md R50): the staged code when it is 0, 1 or 2 and the set-up delay was kept, else a
draw (R51 (b)). -/
def latchedCode (s : State) (p : Fin Config.pinCount) : BitVec 2 :=
  if s.target.staged != 3 && settledSince (regAddr s.params .pud) s.trace then s.target.staged
  else Config.drawPull s.draws p.val

/-- `PULL` after a write of `v` to `PUDCLK[n]`: a draw where the write breaks a hold delay (10_state.md R51 (a)), the latched
code where `v` has the pin's bit (R50), else as it was. [log 8] -/
def pullAfterClock (n : Fin 2) (v : Word) (s : State) : Vector (BitVec 2) Config.pinCount :=
  Vector.ofFn fun p =>
    if holdBroken s p then Config.drawPull s.draws p.val
    else if (pinMask n v).getLsbD p.val then latchedCode s p
    else s.target.pull[p]

/-! ## The register target -/

/-- A draw as a word, and the state after it. -/
def State.drawWord (s : State) : ReadWord × State := (.plain (Config.drawWord s.draws), s.drawn)

/-- A drawn queue of at most `FIFO_DEPTH` bytes. -/
def State.drawQueue (s : State) : List Byte := (Config.drawQueue s.draws).take s.params.fifoDepth

/-- `target_read` (20_memory.md R82): the word a register returns, and the state after the read's side effect. -/
def readReg (r : Reg) (s : State) : ReadWord × State :=
  match r with
  -- R42: stored, no side effect
  | .fsel n => (.plain s.target.fsel[n], s)
  -- R47, R51 (c): not described
  | .set _ | .clr _ | .pud | .pudclk _ => s.drawWord
  -- R52
  | .auxenb => (.plain s.target.auxenb, s)
  -- R54; R64 while disabled, where whether the read pops is open too [log 10]
  | .muIo =>
    if s.target.enabled then
      match s.target.rxf with
      | b :: rest =>
        (.data ((Config.drawWord s.draws).extractLsb' 8 24) b, s.drawn.withTarget { s.target with rxf := rest })
      | [] => s.drawWord
    else (.plain (Config.drawWord s.draws),
      s.drawn.withTarget { s.target with rxf := if Config.drawBit s.draws then s.target.rxf else s.target.rxf.drop 1 })
  -- R56, R57; R64 while disabled
  | .muLsr =>
    if s.target.enabled then (lineStatus s.params s.target (Config.drawWord s.draws), s.drawn) else s.drawWord
  -- R55, R58, R59, R60: not described
  | .muIir | .muLcr | .muCntl | .muBaud => s.drawWord

/-- What a mini-UART register holds after a write of `v`: `v`, or a draw while the mini-UART is disabled (10_state.md R64). -/
def muWritten (s : State) (v : Word) : Word := if s.target.enabled then v else Config.drawWord s.draws

/-- `TXF` after a write of the byte `b` to `MU_IO` (10_state.md R53): pushed if there is room; else a draw among "unchanged"
and "the byte replacing the tail". While the mini-UART is disabled, any queue (R64). -/
def txfWritten (s : State) (b : Byte) : List Byte :=
  if s.target.enabled then
    if s.target.txf.length < s.params.fifoDepth then s.target.txf ++ [b]
    else if Config.drawBit s.draws then s.target.txf
    else s.target.txf.dropLast ++ [b]
  else s.drawQueue

/-- `target_write` (20_memory.md R83): the state after a write of `v`, or the refusal the spec names. -/
def writeReg (r : Reg) (v : Word) (s : State) : Except Refusal State :=
  match r with
  -- R42, R43: every bit stored
  | .fsel n => .ok (s.withTarget { s.target with fsel := s.target.fsel.set n v })
  -- R44
  | .set n => .ok (s.withTarget { s.target with out := s.target.out ||| pinMask n v })
  -- R46
  | .clr n => .ok (s.withTarget { s.target with out := s.target.out &&& ~~~(pinMask n v) })
  -- R48, R51 (a), R253
  | .pud => .ok (s.drawn.withTarget { s.target with pud := v, pull := pullAfterStage v s })
  -- R50, R51
  | .pudclk n =>
    .ok (s.drawn.withTarget { s.target with pudclk := s.target.pudclk.set n v, pull := pullAfterClock n v s })
  -- R52
  | .auxenb => .ok (s.withTarget { s.target with auxenb := v })
  -- R53, R64
  | .muIo => .ok (s.drawn.withTarget { s.target with txf := txfWritten s (lowByte v) })
  -- R60; R64 while disabled: any two queues [log 10]
  | .muIir =>
    if s.target.enabled then
      if v == s.params.fifoClearCode then .ok (s.withTarget { s.target with txf := [], rxf := [] })
      else .error (.iirWrite v)
    else .ok (s.drawn.drawn.withTarget { s.target with txf := s.drawQueue, rxf := s.drawn.drawQueue })
  -- R55, R64
  | .muLcr => .ok (s.drawn.withTarget { s.target with lcr := muWritten s v })
  -- R57: refused
  | .muLsr => .error (.lineStatusWrite v)
  -- R58, R64
  | .muCntl => .ok (s.drawn.withTarget { s.target with cntl := muWritten s v })
  -- R59, R64
  | .muBaud => .ok (s.drawn.withTarget { s.target with baud := muWritten s v })

/-! ## The MMIO accessor -/

/-- `MemRead(addr, 4)` (20_memory.md R82): one access of the target, recorded; an address outside the map is refused (R85). -/
def memRead (a : Word) (s : State) : Except Refusal (ReadWord × State) :=
  match regAt s.params a with
  | none => .error (.unmappedAddress a)
  | some r => .ok ((readReg r s).1, (readReg r s).2.logEvent (.rd a (readReg r s).1.toWord))

/-- `MemWrite(addr, 4, v)` (20_memory.md R83). -/
def memWrite (a v : Word) (s : State) : Except Refusal State :=
  match regAt s.params a with
  | none => .error (.unmappedAddress a)
  | some r =>
    match writeReg r v s with
    | .ok s' => .ok (s'.logEvent (.wr a v))
    | .error e => .error e

/-! ## The environment -/

/-- `TxDrain` (10_state.md R62); a step that is not enabled is not taken. -/
def State.txDrain (s : State) : State :=
  if s.target.enabled && s.target.txEn then
    match s.target.txf with
    | b :: rest => (s.withTarget { s.target with txf := rest }).withLineTx (s.lineTx ++ [b])
    | [] => s
  else s

/-- `RxArrive(b)` (10_state.md R63); on a full queue a draw among "unchanged" and "the tail replaced by `b`". -/
def State.rxArrive (b : Byte) (s : State) : State :=
  if s.target.enabled && s.target.rxEn then
    if s.target.rxf.length < s.params.fifoDepth then s.withTarget { s.target with rxf := s.target.rxf ++ [b] }
    else s.drawn.withTarget
      { s.target with rxf := if Config.drawBit s.draws then s.target.rxf else s.target.rxf.dropLast ++ [b] }
  else s

/-- One step of the environment. -/
def envStep (s : State) : EnvStep → State
  | .txDrain => s.txDrain
  | .rxArrive b => s.rxArrive b
  | .reset launch => s.resetEvent launch

/-- The environment's turn before a sequencer step (10_state.md R28: "the serial line may take any number of its own
steps"): the first entry of the schedule. An empty schedule is a silent line. [log 5] -/
def envTurn (s : State) : State :=
  match s.sched with
  | [] => s
  | es :: later => es.foldl envStep (s.withSched later)

end Sys2Proof.Machine
end

