-- ==== Sys2Proof/Machine/Sequencer.lean ====
section
/-! DEFINITION. Sequencer.lean: one micro-operation at a time (10_state.md R27, R28), the run of an operation, and taking a
command (R29, 60_exceptions.md R217). -/

namespace Sys2Proof.Machine

/-! ## Contexts -/

/-- The context in a slot, `none` where `slot >= NSLOT` or the slot is not valid (10_state.md R22). -/
def State.context (slot : BitVec 8) (s : State) : Option GpioContext :=
  if s.params.nslot ≤ slot.toNat then none
  else match s.slots[slot.toNat]? with
    | some c => if c.valid then some c else none
    | none => none

/-- `G[slot] <- c`. -/
def State.setContext (slot : BitVec 8) (c : GpioContext) (s : State) : State := s.withSlots (s.slots.set slot.toNat c)

/-- A context's update of a slot that holds one; where none is there it is the model's fault `noContext` (10_state.md R22). -/
def State.updateContext (slot : BitVec 8) (f : GpioContext → GpioContext) (s : State) : Except Fault State :=
  match s.context slot with
  | some c => .ok (s.setContext slot (f c))
  | none => .error (.noContext slot)

/-- `{ pin, mode = UART_ALT_CODE, pull = 0, state = 0 }`: a context inside `U` (10_state.md R25). -/
def uartPin (p : Params) (pin : BitVec 6) : GpioContext :=
  { valid := true, pin := pin, mode := p.uartAltCode, pull := 0, state := false }

/-- The context update that ends an operation (40_gpio.md R150 to R156, 41_uart.md R185). -/
def applyUpdate (u : Update) (s : State) : Except Fault State :=
  match u with
  | .newContext slot pin mode pull =>
    if slot.toNat < s.params.nslot ∧ slot.toNat < s.slots.length then
      .ok (s.setContext slot { valid := true, pin := pin, mode := mode, pull := pull, state := false })
    else .error (.noContext slot)
  | .setState slot on => s.updateContext slot fun c => { c with state := on }
  | .setPull slot code => s.updateContext slot fun c => { c with pull := code }
  | .drop slot => s.updateContext slot fun c => { c with valid := false }
  | .newUart baud =>
    .ok (s.withUart { valid := true, baud := baud, tx := uartPin s.params s.params.txPin, rx := uartPin s.params s.params.rxPin })
  | .sent => .ok s
  | .received => .ok s

/-- The response of an operation that completes, `w` the word it read last (30_encoding.md R120, R127). -/
def Update.response (w : ReadWord) : Update → Response
  | .received => .value (zext32 w.low)
  | .newContext _ _ _ _ | .setState _ _ | .setPull _ _ | .drop _ | .newUart _ | .sent => .done

/-! ## One micro-operation -/

/-- After a `MemRead`: the word read becomes `w`. -/
def afterRead (i : Instr) (rest : List MicroOp) : Except Refusal (ReadWord × State) → Host.Outcome State Fault Refusal
  | .ok (v, s) => .next (s.withSeq (.busy i v rest))
  | .error e => .refused e

/-- After a `MemWrite`. -/
def afterWrite (i : Instr) (w : ReadWord) (rest : List MicroOp) : Except Refusal State → Host.Outcome State Fault Refusal
  | .ok s => .next (s.withSeq (.busy i w rest))
  | .error e => .refused e

/-- After the read of a poll (41_uart.md R182): leave the loop if the bit is set, else a `Nop` and the loop again. -/
def afterPoll (i : Instr) (k : PollBit) (rest : List MicroOp) :
    Except Refusal (ReadWord × State) → Host.Outcome State Fault Refusal
  | .ok (v, s) => .next (s.withSeq (.busy i v (if v.bit k then rest else .nop :: .poll k :: rest)))
  | .error e => .refused e

/-- One cycle of a running `Delay(n)` (40_gpio.md R143): a decrement, and `Dl(n)` with the last one. -/
def waitCycle (i : Instr) (w : ReadWord) (rest : List MicroOp) (n : BitVec 8) (s : State) : State :=
  if s.dly.toNat ≤ 1 then ((s.withDly 0).logEvent (.dl n)).withSeq (.busy i w rest)
  else (s.withDly (s.dly - 1)).withSeq (.busy i w (.wait n :: rest))

/-- After the context update: the response, and idle (10_state.md R27). -/
def afterUpdate (r : Response) : Except Fault State → Host.Outcome State Fault Refusal
  | .ok s => .next ((s.respond r).withSeq .idle)
  | .error e => .fault e

/-- One micro-operation of the operation `i`, `w` the word it read last, `rest` what comes after (10_state.md R28). -/
def perform (i : Instr) (w : ReadWord) (rest : List MicroOp) (op : MicroOp) (s : State) : Host.Outcome State Fault Refusal :=
  match op with
  | .memRead a => afterRead i rest (memRead a s)
  | .memWrite a v => afterWrite i w rest (memWrite a v s)
  | .memModify a clear bits => afterWrite i w rest (memWrite a (rmwWord w.toWord clear bits) s)
  -- 40_gpio.md R143: `dly <- n`
  | .delay n => .next ((s.withDly n).withSeq (.busy i w (.wait n :: rest)))
  | .wait n => .next (waitCycle i w rest n s)
  | .poll k => afterPoll i k rest (memRead (regAddr s.params .muLsr) s)
  -- 41_uart.md R183
  | .nop => .next (s.withSeq (.busy i w rest))
  | .finish u => afterUpdate (u.response w) (applyUpdate u s)

/-- One sequencer step (10_state.md R28): the first micro-operation that remains. -/
def sequencerStep (s : State) : Host.Outcome State Fault Refusal :=
  match s.seq with
  | .idle => .next s
  | .busy _ _ [] => .next (s.withSeq .idle)
  | .busy i w (op :: rest) => perform i w rest op s

/-- The environment's turn and then one sequencer step (10_state.md R28). -/
def tick (s : State) : Host.Outcome State Fault Refusal := sequencerStep (envTurn s)

/-! ## The run of an operation -/

/-- The sequencer is idle, or a poll has just failed and its `Nop` comes next (41_uart.md R182). -/
def State.parked (s : State) : Bool :=
  match s.seq with
  | .idle => true
  | .busy _ _ (.nop :: _) => true
  | .busy _ _ _ => false

/-- At most `fuel` ticks: until the operation responds, a poll fails or a reset cuts it short. [log 4] -/
def runSeq : Nat → State → Host.Outcome State Fault Refusal
  | 0, s => .next s
  | fuel + 1, s =>
    match tick s with
    | .next s' => if s'.parked then .next s' else runSeq fuel s'
    | .fault e => .fault e
    | .refused e => .refused e

/-- How many ticks a micro-operation takes at most. -/
def MicroOp.cost : MicroOp → Nat
  | .delay n => n.toNat + 2
  | .wait _ => 256
  | .memRead _ | .memWrite _ _ | .memModify _ _ _ | .poll _ | .nop | .finish _ => 1

/-- How many ticks a list of micro-operations takes at most. -/
def opsCost (ops : List MicroOp) : Nat := (ops.map MicroOp.cost).sum + 1

/-- The ticks that take the operation in progress to its response or to a poll that fails. -/
def State.fuel (s : State) : Nat :=
  match s.seq with
  | .idle => 0
  | .busy _ _ rest => opsCost rest

/-- Go on with the operation in progress. -/
def resume (s : State) : Host.Outcome State Fault Refusal := runSeq s.fuel s

/-- What the checks of a command answer (60_exceptions.md R217): the fault it raises, or its micro-operations. -/
abbrev Plan := Except FaultCode (List MicroOp)

/-- Take the command `i` whose checks answer `plan` (60_exceptions.md R217, R218): raise the fault, or run the
micro-operations. A halted sequencer accepts no command (R219), and one that is in an operation is given none
(10_state.md R29): then nothing happens. [log 20] -/
def issue (i : Instr) (plan : Plan) (s : State) : Host.Outcome State Fault Refusal :=
  match s.run, s.seq with
  | true, .idle =>
    match plan with
    | .error f => .next (s.raise f)
    | .ok ops => runSeq (opsCost ops) (s.withSeq (.busy i (.plain 0) ops))
  | true, .busy _ _ _ => .next s
  | false, _ => .next s

end Sys2Proof.Machine
end

