-- ==== Sys2Proof/Machine/Gpio.lean ====
section
/-! DEFINITION. Gpio.lean: the GPIO pin controller (40_gpio.md): two internal sequences and seven operations. -/

namespace Sys2Proof.Machine

/-- `FSEL_RMW(pin, code)` (40_gpio.md R141): one read and one write of the same register. -/
def fselRmw (p : Params) (pin : BitVec 6) (code : BitVec 3) : List MicroOp :=
  [.memRead (fselAddr p pin), .memModify (fselAddr p pin) (fselField pin) (fselCode pin code)]

/-- `PULL_SEQ(pin, code)` (40_gpio.md R142): stage, settle, latch, settle, clear, clear. -/
def pullSeq (p : Params) (pin : BitVec 6) (code : BitVec 2) : List MicroOp :=
  [.memWrite (pudAddr p) (code.setWidth 32), .delay Config.settleCycles,
   .memWrite (pudclkAddr p pin) (pinBit pin), .delay Config.settleCycles,
   .memWrite (pudAddr p) 0, .memWrite (pudclkAddr p pin) 0]

/-- `GPIO.NEW slot, pin, mode, pull` (40_gpio.md R150), its checks in the order of 60_exceptions.md R218. -/
def execGpioNew (slot : BitVec 8) (pin : BitVec 6) (mode : BitVec 3) (pull : BitVec 2) (s : State) :
    Host.Outcome State Fault Refusal :=
  issue (.gpioNew slot pin mode pull)
    (if s.params.nslot ≤ slot.toNat then .error .badSlot
     else if Config.pinMax < pin.toNat then .error .badPin
     else if pull = 3 then .error .badPull
     else .ok (fselRmw s.params pin mode ++ pullSeq s.params pin pull ++ [.finish (.newContext slot pin mode pull)])) s

/-- An operation on an existing context: `BadSlot` where none is there (60_exceptions.md R212), else the micro-operations
its pin gives. -/
def onContext (slot : BitVec 8) (ops : BitVec 6 → List MicroOp) (s : State) : Plan :=
  match s.context slot with
  | none => .error .badSlot
  | some c => .ok (ops c.pin)

/-- `GPIO.ON slot` (40_gpio.md R151). -/
def execGpioOn (slot : BitVec 8) (s : State) : Host.Outcome State Fault Refusal :=
  issue (.gpioOn slot)
    (onContext slot (fun pin => [.memWrite (setAddr s.params pin) (pinBit pin), .finish (.setState slot true)]) s) s

/-- `GPIO.OFF slot` (40_gpio.md R152). -/
def execGpioOff (slot : BitVec 8) (s : State) : Host.Outcome State Fault Refusal :=
  issue (.gpioOff slot)
    (onContext slot (fun pin => [.memWrite (clrAddr s.params pin) (pinBit pin), .finish (.setState slot false)]) s) s

/-- The pull sequence and then the stored pull field (40_gpio.md R157). -/
def repull (slot : BitVec 8) (code : BitVec 2) (s : State) : Plan :=
  onContext slot (fun pin => pullSeq s.params pin code ++ [.finish (.setPull slot code)]) s

/-- `GPIO.PULL_UP slot` (40_gpio.md R153). -/
def execGpioPullUp (slot : BitVec 8) (s : State) : Host.Outcome State Fault Refusal :=
  issue (.gpioPullUp slot) (repull slot 1 s) s

/-- `GPIO.PULL_DOWN slot` (40_gpio.md R154). -/
def execGpioPullDown (slot : BitVec 8) (s : State) : Host.Outcome State Fault Refusal :=
  issue (.gpioPullDown slot) (repull slot 2 s) s

/-- `GPIO.PULL_NEITHER slot` (40_gpio.md R155). -/
def execGpioPullNeither (slot : BitVec 8) (s : State) : Host.Outcome State Fault Refusal :=
  issue (.gpioPullNeither slot) (repull slot 0 s) s

/-- `GPIO.DROP slot` (40_gpio.md R156): no access of any kind. -/
def execGpioDrop (slot : BitVec 8) (s : State) : Host.Outcome State Fault Refusal :=
  issue (.gpioDrop slot) (onContext slot (fun _ => [.finish (.drop slot)]) s) s

end Sys2Proof.Machine
end

