-- ==== Sys2Proof/Machine/Uart.lean ====
section
/-! DEFINITION. Uart.lean: the UART polled FIFO transceiver (41_uart.md): four operations. -/

namespace Sys2Proof.Machine

/-- Source §4.3 steps 1 to 4 (41_uart.md R185): enable by read-modify-write, disable transmit and receive, 8-bit mode,
divisor `d`. -/
def uartSetup (p : Params) (d : Word) : List MicroOp :=
  [.memRead (regAddr p .auxenb), .memModify (regAddr p .auxenb) 0 1,
   .memWrite (regAddr p .muCntl) 0, .memWrite (regAddr p .muLcr) 0b11, .memWrite (regAddr p .muBaud) d]

/-- Step 5 for one pin (41_uart.md R185): a GPIO construction without the slot. -/
def uartPinSetup (p : Params) (pin : BitVec 6) : List MicroOp := fselRmw p pin p.uartAltCode ++ pullSeq p pin 0

/-- Steps 6 and 7 (41_uart.md R185): re-enable, clear both FIFOs. -/
def uartStart (p : Params) : List MicroOp :=
  [.memWrite (regAddr p .muCntl) 0b11, .memWrite (regAddr p .muIir) p.fifoClearCode]

/-- `UART.NEW baud` (41_uart.md R185), its checks in the order of 60_exceptions.md R218. -/
def execUartNew (baud : Word) (s : State) : Host.Outcome State Fault Refusal :=
  issue (.uartNew baud)
    (if s.uart.valid then .error .uartExists
     else if badBaud s.params.clockHz baud.toNat then .error .badBaud
     else .ok (uartSetup s.params (divisorWord s.params baud) ++ uartPinSetup s.params s.params.txPin
       ++ uartPinSetup s.params s.params.rxPin ++ uartStart s.params ++ [.finish (.newUart baud)])) s

/-- `POLL(5)` and the write of one byte (41_uart.md R187, R181). -/
def sendByte (p : Params) (b : Byte) : List MicroOp := [.poll .txEmpty, .memWrite (regAddr p .muIo) (zext32 b)]

/-- An operation of a constructed transceiver: `NoUart` where there is none (60_exceptions.md R215). -/
def onUart (ops : List MicroOp) (s : State) : Plan := if s.uart.valid then .ok ops else .error .noUart

/-- `UART.SENDC byte` (41_uart.md R187). -/
def execUartSendc (byte : Byte) (s : State) : Host.Outcome State Fault Refusal :=
  issue (.uartSendc byte) (onUart (sendByte s.params byte ++ [.finish .sent]) s) s

/-- `UART.READC` (41_uart.md R188). -/
def execUartReadc (s : State) : Host.Outcome State Fault Refusal :=
  issue .uartReadc (onUart [.poll .rxReady, .memRead (regAddr s.params .muIo), .finish .received] s) s

/-- `UART.SEND_STR len, text` (41_uart.md R189): each byte with its own poll, one response at the end. -/
def execUartSendStr (text : List Byte) (s : State) : Host.Outcome State Fault Refusal :=
  issue (.uartSendStr text) (onUart (text.flatMap (sendByte s.params) ++ [.finish .sent]) s) s

end Sys2Proof.Machine
end

