-- ==== Sys2Proof/Machine/Dispatch.lean ====
section
/-! DEFINITION. Dispatch.lean: one arm for each operation of 30_encoding.md R120. -/

namespace Sys2Proof.Machine

def exec (i : Instr) (s : State) : Host.Outcome State Fault Refusal :=
  match i with
  | .gpioNew slot pin mode pull => Sys2Proof.Machine.execGpioNew slot pin mode pull s
  | .gpioOn slot => Sys2Proof.Machine.execGpioOn slot s
  | .gpioOff slot => Sys2Proof.Machine.execGpioOff slot s
  | .gpioPullUp slot => Sys2Proof.Machine.execGpioPullUp slot s
  | .gpioPullDown slot => Sys2Proof.Machine.execGpioPullDown slot s
  | .gpioPullNeither slot => Sys2Proof.Machine.execGpioPullNeither slot s
  | .gpioDrop slot => Sys2Proof.Machine.execGpioDrop slot s
  | .uartNew baud => Sys2Proof.Machine.execUartNew baud s
  | .uartSendc byte => Sys2Proof.Machine.execUartSendc byte s
  | .uartReadc => Sys2Proof.Machine.execUartReadc s
  | .uartSendStr text => Sys2Proof.Machine.execUartSendStr text s

end Sys2Proof.Machine
end

