-- ==== Sys2Proof/Machine/Step.lean ====
section
/-! DEFINITION. Step.lean: one step of the machine. It only calls the decoder, `exec`, `resume` and the environment's turn. -/

namespace Sys2Proof.Machine

/-- One step. A halted sequencer does nothing while the line goes on (60_exceptions.md R219, R220). One that is in an
operation goes on with it (10_state.md R28). An idle one takes the command at the head of the command port (R29): an
illegal word raises `IllegalCommand` and takes no extension word (60_exceptions.md R211); a command whose words are
not all there is waited for (30_encoding.md R125). [log 4, log 6] -/
def step (s : State) : Host.Outcome State Fault Refusal :=
  match s.run, s.seq with
  | false, _ => .next (envTurn s)
  | true, .busy _ _ _ => resume s
  | true, .idle =>
    match decode s.cmdPort with
    | .command i rest => exec i (s.withCmdPort rest)
    | .illegal w rest => .next (((s.withCmdPort rest).noteBadCommand w).raise .illegalCommand)
    | .incomplete => .next (envTurn s)

/-- `s` with the instruction whose bits are `w` as the next command the host delivers, to a sequencer that takes it:
running and idle. [log 6] -/
def State.withFetchWord (s : State) (nbits w : Nat) : State :=
  { s with cmdPort := tableWords nbits w ++ s.cmdPort, run := true, seq := .idle }

end Sys2Proof.Machine
end

