-- ==== Sys2Proof/Safety.lean ====
section
/-! DEFINITION. Safety.lean: the terms claims are stated in: what the environment is assumed to do, what an operation leaves
alone, and the invariants of the machine. -/

namespace Sys2Proof.Machine

/-! ## Premises -/

/-- The step is a reset, not a step of the serial line. -/
def EnvStep.isReset : EnvStep → Bool
  | .txDrain => false
  | .rxArrive _ => false
  | .reset _ => true

/-- Nothing but the serial line steps: no reset is scheduled. -/
def State.lineOnly (s : State) : Prop := ∀ es ∈ s.sched, ∀ e ∈ es, e.isReset = false

/-- The sequencer takes a command (10_state.md R29): it runs and is idle. -/
def State.ready (s : State) : Prop := s.run = true ∧ s.seq = .idle

/-- The clean-launch premise (10_state.md R73). -/
def Target.pullClean (t : Target) : Prop := t.staged = 0 ∧ t.pudclk[0] = 0 ∧ t.pudclk[1] = 0

/-! ## What an operation leaves alone -/

/-- The operation completed with the response `r`: running, idle, no fault latched, no delay counting, and the parameters, the
host's words and the model's note of an illegal command as they were. -/
structure Completed (s t : State) (r : Response) : Prop where
  run : t.run = true
  seq : t.seq = .idle
  fault : t.fault = s.fault
  responses : t.responses = s.responses ++ [r]
  params : t.params = s.params
  cmdPort : t.cmdPort = s.cmdPort
  badCommand : t.badCommand = s.badCommand

/-- The function-select registers, the output latches and the pull machinery are as they were. -/
structure SamePins (t u : Target) : Prop where
  fsel : u.fsel = t.fsel
  out : u.out = t.out
  pud : u.pud = t.pud
  pudclk : u.pudclk = t.pudclk
  pull : u.pull = t.pull

/-- `AUXENB` and the stored mini-UART registers are as they were. -/
structure SameUartRegs (t u : Target) : Prop where
  auxenb : u.auxenb = t.auxenb
  lcr : u.lcr = t.lcr
  cntl : u.cntl = t.cntl
  baud : u.baud = t.baud

/-! ## What the serial line does meanwhile -/

/-- The byte a step of the environment brings in (10_state.md R63). -/
def EnvStep.arrival : EnvStep → Option Byte
  | .txDrain => none
  | .rxArrive b => some b
  | .reset _ => none

/-- The step is a `TxDrain` (10_state.md R62). -/
def EnvStep.isDrain : EnvStep → Bool
  | .txDrain => true
  | .rxArrive _ => false
  | .reset _ => false

/-- The bytes the receiver hears of these steps: all that arrive when it is enabled, none when it is not (10_state.md R63). -/
def State.hears (es : List EnvStep) (s : State) : List Byte :=
  if s.target.enabled && s.target.rxEn then es.filterMap EnvStep.arrival else []

/-- How many of these steps are a `TxDrain` the transmitter may take (10_state.md R62). -/
def State.drains (es : List EnvStep) (s : State) : Nat :=
  if s.target.enabled && s.target.txEn then es.countP EnvStep.isDrain else 0

/-- The bytes heard in the environment's next `n` turns. [log 5] -/
def State.heard (n : Nat) (s : State) : List Byte := s.hears (s.sched.take n).flatten

/-- How often `TxDrain` comes in the environment's next `n` turns. [log 5] -/
def State.drained (n : Nat) (s : State) : Nat := s.drains (s.sched.take n).flatten

/-- `RXF` was `q`, the bytes `bs` arrived and it is `r` (10_state.md R63): as it was when none arrived; all of them at its end, in
order, when there was room for all; and whatever an overrun did, no byte but the last was lost, none came from elsewhere and
none changed places. -/
structure Hears (depth : Nat) (bs q r : List Byte) : Prop where
  silent : bs = [] → r = q
  room : q.length + bs.length ≤ depth → r = q ++ bs
  kept : q.dropLast <+: r
  longer : q.length ≤ r.length
  sub : r.Sublist (q ++ bs)

/-- `TxDrain` came `d` times and nothing else touched `TXF`: that many bytes, or all there were, went from its head to the end of
`LINE_TX` (10_state.md R62, R65). -/
structure Drained (d : Nat) (s t : State) : Prop where
  lineTx : t.lineTx = s.lineTx ++ s.target.txf.take d
  txf : t.target.txf = s.target.txf.drop d

/-- Only the serial line has touched the queues, in exactly `n` turns of the environment: one before each micro-operation and each
cycle of a delay (10_state.md R28, R30), so that a `Delay(150)` has 151, one to load `dly` and one for each decrement
(40_gpio.md R143). [log 5, log 13] -/
structure OnlyLine (n : Nat) (s t : State) : Prop where
  sched : t.sched = s.sched.drop n
  tx : Drained (s.drained n) s t
  rxf : Hears s.params.fifoDepth (s.heard n) s.target.rxf t.target.rxf

/-- These bytes have been sent, in `n` turns of the environment, in which the line went on: the bytes sent come after all those
sent before them, `LINE_TX` has grown by the bytes that `TxDrain` took, no more than it came and no fewer than there were for it
from the start, and `RXF` is as the line alone leaves it. [log 5] -/
structure Sends (n : Nat) (bytes : List Byte) (s t : State) : Prop where
  sched : t.sched = s.sched.drop n
  sent : t.lineTx ++ t.target.txf = s.lineTx ++ s.target.txf ++ bytes
  least : s.lineTx ++ s.target.txf.take (s.drained n) <+: t.lineTx
  most : t.lineTx.length ≤ s.lineTx.length + s.drained n
  rxf : Hears s.params.fifoDepth (s.heard n) s.target.rxf t.target.rxf

/-! ## Operations that wait -/

/-- A run that began in `s` waits in a poll at `t`: running, inside an operation, no response, and contexts, fault, delay counter, line, parameters,
the host's words and the note of an illegal command as they were. -/
structure StillBlocked (s t : State) : Prop where
  run : t.run = true
  seq : t.seq ≠ .idle
  fault : t.fault = s.fault
  responses : t.responses = s.responses
  dly : t.dly = s.dly
  slots : t.slots = s.slots
  uart : t.uart = s.uart
  lineTx : t.lineTx = s.lineTx
  sched : t.sched = []
  params : t.params = s.params
  cmdPort : t.cmdPort = s.cmdPort
  badCommand : t.badCommand = s.badCommand

/-! ## Traces of the internal sequences -/

/-- The trace of `FSEL_RMW(pin, code)` that read `w` (40_gpio.md R141). -/
def fselEvents (p : Params) (pin : BitVec 6) (code : BitVec 3) (w : Word) : List Event :=
  [.rd (fselAddr p pin) w, .wr (fselAddr p pin) (rmwWord w (fselField pin) (fselCode pin code))]

/-- The trace of `PULL_SEQ(pin, code)` (40_gpio.md R142): exactly four writes and two delays. -/
def pullEvents (p : Params) (pin : BitVec 6) (code : BitVec 2) : List Event :=
  [.wr (pudAddr p) (code.setWidth 32), .dl 150, .wr (pudclkAddr p pin) (pinBit pin), .dl 150, .wr (pudAddr p) 0,
   .wr (pudclkAddr p pin) 0]

/-- The trace of sending the bytes of a text, each after a poll that read the word beside it (41_uart.md R189). -/
def sendEvents (p : Params) (polls : List Word) (text : List Byte) : List Event :=
  (polls.zip text).flatMap fun x => [.rd (regAddr p .muLsr) x.1, .wr (regAddr p .muIo) (zext32 x.2)]

/-- One `UART.SENDC` after another (30_encoding.md R129). -/
def sendEach : List Byte → State → Host.Outcome State Fault Refusal
  | [], s => .next s
  | b :: text, s =>
    match exec (.uartSendc b) s with
    | .next t => sendEach text t
    | .fault e => .fault e
    | .refused e => .refused e

/-- The outcome `o` of a pull operation with this code on the context `c` of a slot (40_gpio.md R153 to R155): completed, the
sequence's trace, only the stored pull field and the pull machinery changed, `PUD` and the pin's clock register left 0; the pin has the
code latched, whatever the clock registers held before (R142), and every other pin whose clock bit is 0 keeps its pull. It takes 307 turns of the environment: 4 writes, 2 delays of 151, the update of
the context. [log 13] -/
def Repulled (slot : BitVec 8) (code : BitVec 2) (c : GpioContext) (s : State) (o : Host.Outcome State Fault Refusal) : Prop :=
  ∃ t, o = .next t ∧ Completed s t .done ∧ t.dly = 0 ∧
    t.trace = s.trace ++ pullEvents s.params c.pin code ∧
    t.slots = s.slots.set slot.toNat { c with pull := code } ∧ t.uart = s.uart ∧
    t.target.fsel = s.target.fsel ∧ t.target.out = s.target.out ∧
    t.target.pud = 0 ∧ t.target.pudclk = s.target.pudclk.set (c.pin.toNat / 32) 0 (by have := c.pin.isLt; omega) ∧
    (∀ p : Fin 54, p.val = c.pin.toNat → t.target.pull[p] = code) ∧
    (∀ p : Fin 54, p.val ≠ c.pin.toNat → pairBit s.target.pudclk p = false → t.target.pull[p] = s.target.pull[p]) ∧
    SameUartRegs s.target t.target ∧ OnlyLine 307 s t

/-- Two lists of contexts that differ at most in the fields no rule of the hardware reads: `mode`, `pull`, `state` (10_state.md
R23, 40_gpio.md R150, R157). -/
def SameHandles (l l' : List GpioContext) : Prop := l.map (fun c => (c.valid, c.pin)) = l'.map (fun c => (c.valid, c.pin))

/-! ## The invariant of the machine -/

/-- A context that is there names a pin of the hardware and a defined pull code (10_state.md R21). -/
def GpioContext.ok (c : GpioContext) : Bool := !c.valid || (decide (c.pin.toNat ≤ 53) && c.pull != 3)

/-- The UART context, when it is there, is what `UART.NEW` writes (10_state.md R25) with a baud rate it accepts. -/
def UartContext.ok (p : Params) (u : UartContext) : Bool :=
  !u.valid || (u.tx == uartPin p p.txPin && u.rx == uartPin p p.rxPin && !badBaud p.clockHz u.baud.toNat)

/-- A context update an operation can end with. -/
def Update.ok (s : State) : Update → Bool
  | .newContext slot pin _ pull => decide (slot.toNat < s.params.nslot) && decide (pin.toNat ≤ 53) && pull != 3
  | .setState slot _ => (s.context slot).isSome
  | .setPull slot code => (s.context slot).isSome && code != 3
  | .drop slot => (s.context slot).isSome
  | .newUart baud => !badBaud s.params.clockHz baud.toNat
  | .sent => true
  | .received => true

/-- A micro-operation the sequencer can issue: its address is in the map, and it is no write the target refuses (20_memory.md R96,
R97). -/
def MicroOp.ok (s : State) : MicroOp → Bool
  | .memRead a => (regAt s.params a).isSome
  | .memWrite a v =>
    match regAt s.params a with
    | some .muLsr => false
    | some .muIir => v == s.params.fifoClearCode
    | some _ => true
    | none => false
  | .memModify a _ _ =>
    match regAt s.params a with
    | some .muLsr => false
    | some .muIir => false
    | some _ => true
    | none => false
  | .delay _ => true
  | .wait _ => true
  | .poll _ => true
  | .nop => true
  | .finish u => u.ok s

/-- `seq` and `dly`: every remaining micro-operation is one the sequencer can issue, and `dly` holds 0 outside a delay
(10_state.md R30). -/
def State.seqOk (s : State) : Bool :=
  match s.seq with
  | .idle => s.dly == 0
  | .busy _ _ rest =>
    rest.all (MicroOp.ok s) && (match rest with
      | .wait _ :: _ => true
      | _ => s.dly == 0)

/-- The invariant of the machine: legal parameters, `NSLOT` slots with legal contexts, queues within the FIFO's depth, a halt
exactly when a fault is latched (10_state.md R26), and a legal `seq`. -/
structure State.Inv (s : State) : Prop where
  params : s.params.wf = true
  slots : s.slots.length = s.params.nslot
  contexts : ∀ c ∈ s.slots, c.ok = true
  uart : s.uart.ok s.params = true
  txf : s.target.txf.length ≤ s.params.fifoDepth
  rxf : s.target.rxf.length ≤ s.params.fifoDepth
  halt : s.run = true ↔ s.fault = 0
  halted : s.run = false → s.seq = .idle
  seq : s.seqOk = true

/-! ## The poll discipline (70_reset_and_hazards.md R256, R257) -/

/-- What the event just before an access of `MU_IO` must be: a read of `MU_LSR` with the bit set. -/
def polled (p : Params) (k : PollBit) : Option Event → Bool
  | some (.rd a w) => a == regAddr p .muLsr && w.getLsbD k.index
  | some (.wr _ _) => false
  | some (.dl _) => false
  | none => false

/-- In a trace, oldest first, after the event `before`: every write of `MU_IO` comes right after a read of `MU_LSR` with bit 5 set, and every
read of `MU_IO` right after one with bit 0 set. -/
def pollsFirst (p : Params) (before : Option Event) : List Event → Bool
  | [] => true
  | e :: later =>
    (match e with
      | .rd a _ => a != regAddr p .muIo || polled p .rxReady before
      | .wr a _ => a != regAddr p .muIo || polled p .txEmpty before
      | .dl _ => true) && pollsFirst p (some e) later

/-- In a list of micro-operations, after `before`: every access of `MU_IO` comes right after the poll of its bit. -/
def guarded (p : Params) (before : Option PollBit) : List MicroOp → Bool
  | [] => true
  | .poll k :: later => guarded p (some k) later
  | .memRead a :: later => (a != regAddr p .muIo || before == some .rxReady) && guarded p none later
  | .memWrite a _ :: later => (a != regAddr p .muIo || before == some .txEmpty) && guarded p none later
  | .memModify a _ _ :: later => a != regAddr p .muIo && guarded p none later
  | .delay _ :: later => guarded p none later
  | .wait _ :: later => guarded p none later
  | .nop :: later => guarded p none later
  | .finish _ :: later => guarded p none later

/-- The trace keeps the poll discipline, and what remains of the operation in progress will. -/
structure State.Disciplined (s : State) : Prop where
  params : s.params.wf = true
  trace : pollsFirst s.params none s.trace = true
  rest : ∀ i w rest, s.seq = .busy i w rest → guarded s.params none rest = true

/-! ## A constructed transceiver -/

/-- The postcondition of `UART.NEW` (41_uart.md R185): enabled, 8-bit mode, the divisor, transmit and receive enabled. -/
structure State.Configured (s : State) : Prop where
  auxenb : s.target.enabled = true
  lcr : s.target.lcr = 0b11
  baud : s.target.baud = divisorWord s.params s.uart.baud
  cntl : s.target.cntl = 0b11

/-- A micro-operation that leaves the mini-UART's configuration alone: it writes none of its four registers and constructs no
transceiver. -/
def MicroOp.keepsUart (p : Params) : MicroOp → Bool
  | .memWrite a _ => [Reg.auxenb, .muLcr, .muCntl, .muBaud].all (fun r => a != regAddr p r)
  | .memModify a _ _ => [Reg.auxenb, .muLcr, .muCntl, .muBaud].all (fun r => a != regAddr p r)
  | .finish (.newUart _) => false
  | .finish _ => true
  | .memRead _ | .delay _ | .wait _ | .poll _ | .nop => true

/-- Once `U.valid = 1` the mini-UART is configured for `U.baud`, and the operation in progress, if there is one, is one of a constructed
transceiver and keeps it so. -/
structure State.UartKept (s : State) : Prop where
  params : s.params.wf = true
  configured : s.uart.valid = true → s.Configured
  rest : ∀ i w rest, s.seq = .busy i w rest → s.uart.valid = true ∧ ∀ op ∈ rest, op.keepsUart s.params = true

end Sys2Proof.Machine
end

