-- ==== Sys2Proof/Certificates/Slice0/Obligations.lean ====
section
/-! DEFINITION. Obligations.lean: the statements. `State.lineOnly` lets the serial line do anything it may do between two
micro-operations and only excludes a reset; a statement without it holds under resets too. -/

open Sys2Proof Sys2Proof.Machine

/-! ## Encoding -/

/-- Decoding what the encoder writes gives the operation back, with whatever words come after it (30_encoding.md R118 to R126). -/
def Obligations.DecodeReadsWhatEncodeWrites : Prop :=
  ∀ (i : Instr) (rest : List Word), i.wf = true → decode (encode i ++ rest) = .command i rest

/-- At most one row of the opcode map matches a command word (30_encoding.md R121). -/
def Obligations.AtMostOneOpcodeRowMatches : Prop :=
  ∀ w : Word, (opcodeMap.filter fun r => r.selects w).length ≤ 1

/-- A command word is illegal exactly when it matches no row, and then no extension word is taken (30_encoding.md R122). -/
def Obligations.IllegalExactlyWhenNoRowMatches : Prop :=
  ∀ (w : Word) (ws : List Word),
    ((∀ r ∈ opcodeMap, r.selects w = false) → decode (w :: ws) = .illegal w ws) ∧
    ((∃ r ∈ opcodeMap, r.selects w = true) → ∀ v vs, decode (w :: ws) ≠ .illegal v vs)

/-- What is decoded is well formed and is read from the front: the words taken are those its length says (30_encoding.md R125). -/
def Obligations.DecodedCommandTakesItsWords : Prop :=
  ∀ (ws : List Word) (i : Instr) (rest : List Word), decode ws = .command i rest →
    i.wf = true ∧ ∃ taken, ws = taken ++ rest ∧ taken.length = (encode i).length

/-- The number of words of each command: `UART.NEW` has one extension word, `UART.SEND_STR` has `(len + 3) / 4`, every other
command none (30_encoding.md R125). -/
def Obligations.CommandLengths : Prop :=
  (∀ baud, (encode (.uartNew baud)).length = 1 + 1) ∧
  (∀ text, (encode (.uartSendStr text)).length = 1 + (text.length + 3) / 4) ∧
  (∀ i, (∀ baud, i ≠ .uartNew baud) → (∀ text, i ≠ .uartSendStr text) → (encode i).length = 1)

/-- Byte `k` of a text, byte 0 sent first, is bits `8*(k mod 4)+7 : 8*(k mod 4)` of extension word `k / 4`, and the bytes of the last
extension word at positions `>= len` are ignored: the text has `len` bytes, each given by those bits alone. The text "AB" is one
extension word `0x00004241` (30_encoding.md R126). -/
def Obligations.TextBytesLieLittleEndian : Prop :=
  (∀ (ws : List Word) (len : Nat), len < 65536 → ws.length = textWords len →
    ∃ text, decode (((0x2300 : BitVec 16) ++ BitVec.ofNat 16 len) :: ws) = .command (.uartSendStr text) [] ∧
      text.length = len ∧ ∀ k < len, text[k]? = ws[k / 4]?.map (fun w => w.extractLsb' (8 * (k % 4)) 8)) ∧
  decode [0x23000002, 0x00004241] = .command (.uartSendStr [0x41, 0x42]) [] ∧
  encode (.uartSendStr [0x41, 0x42]) = [0x23000002, 0x00004241]

/-- Words written out from the spec's encodings, and the operations they stand for (95_test_vectors.md 2.3, 2.5, 2.6). -/
def Obligations.SampleWordsDecode : Prop :=
  decode [0x10000115] = .command (.gpioNew 0 21 1 0) [] ∧
  decode [0x10032700] = .command (.gpioNew 3 0 7 2) [] ∧
  decode [0x11010000] = .command (.gpioOn 1) [] ∧
  decode [0x14010000] = .command (.gpioPullDown 1) [] ∧
  decode [0x20000000, 0x0001C200] = .command (.uartNew 115200) [] ∧
  decode [0x21000041] = .command (.uartSendc 0x41) [] ∧
  decode [0x22000000] = .command .uartReadc [] ∧
  decode [0x23000002, 0xFFFF4241] = .command (.uartSendStr [0x41, 0x42]) [] ∧
  decode [0x10008115] = .illegal 0x10008115 [] ∧
  decode [0x20000001, 0x0001C200] = .illegal 0x20000001 [0x0001C200]

/-! ## Taking a command -/

/-- When the words at the head of the command port are a well-formed operation, a step runs it, past its words (30_encoding.md R117). That one step
of the model takes a whole command is the model's choice. [log 4, log 6] -/
def Obligations.StepRunsTheDecodedCommand : Prop :=
  ∀ (i : Instr) (rest : List Word) (s : State), i.wf = true → s.ready → s.cmdPort = encode i ++ rest →
    step s = exec i (s.withCmdPort rest)

/-- An illegal command word raises `IllegalCommand`: code 0x01, halted, no extension word consumed, no micro-operation performed
(60_exceptions.md R211). -/
def Obligations.IllegalCommandHalts : Prop :=
  ∀ (w : Word) (ws : List Word) (s : State), s.ready → s.cmdPort = w :: ws → (∀ r ∈ opcodeMap, r.selects w = false) →
    ∃ t, step s = .next t ∧ t.fault = 0x01 ∧ t.run = false ∧ t.seq = .idle ∧
      t.responses = s.responses ++ [.fault 0x01] ∧ t.cmdPort = ws ∧ t.badCommand = some w ∧
      t.trace = s.trace ∧ t.slots = s.slots ∧ t.uart = s.uart ∧ t.target = s.target ∧ t.dly = s.dly ∧
      t.lineTx = s.lineTx ∧ t.sched = s.sched ∧ t.params = s.params

/-- A command whose extension words are not all there is waited for: the serial line takes every step that is scheduled for this turn, in
order [log 5], nothing else moves, and with none scheduled nothing at all. The spec says how many words
a command has (30_encoding.md R125); that the sequencer waits for late ones is the model's choice. [log 6] -/
def Obligations.IncompleteCommandIsWaitedFor : Prop :=
  ∀ s : State, s.ready → s.lineOnly → decode s.cmdPort = .incomplete →
    ∃ t, step s = .next t ∧ t.ready ∧ t.cmdPort = s.cmdPort ∧ t.trace = s.trace ∧ t.responses = s.responses ∧
      t.slots = s.slots ∧ t.uart = s.uart ∧ t.fault = s.fault ∧ t.dly = s.dly ∧ t.params = s.params ∧
      t.badCommand = s.badCommand ∧ SamePins s.target t.target ∧ SameUartRegs s.target t.target ∧ OnlyLine 1 s t ∧
      (∀ es later, s.sched = es :: later → t = es.foldl envStep (s.withSched later)) ∧ (s.sched = [] → t = s)

/-- A halted sequencer takes no command, performs no micro-operation, answers nothing and changes no context, while the line goes on:
it takes every step that is scheduled for this turn, in order (60_exceptions.md R219, R220; 10_state.md R26). That the line's steps stand
in a schedule is the model's. [log 5] -/
def Obligations.HaltedSequencerIsFrozen : Prop :=
  ∀ s : State, s.run = false → s.lineOnly →
    ∃ t, step s = .next t ∧ t.run = false ∧ t.fault = s.fault ∧ t.seq = s.seq ∧ t.dly = s.dly ∧ t.cmdPort = s.cmdPort ∧
      t.responses = s.responses ∧ t.trace = s.trace ∧ t.slots = s.slots ∧ t.uart = s.uart ∧ t.params = s.params ∧
      t.badCommand = s.badCommand ∧ SamePins s.target t.target ∧ SameUartRegs s.target t.target ∧ OnlyLine 1 s t ∧
      t = envTurn s ∧
      (∀ es later, s.sched = es :: later → t = es.foldl envStep (s.withSched later)) ∧ (s.sched = [] → t = s)

/-! ## Faults -/

/-- `raise F` latches the code, halts, leaves the operation and responds, and saves or changes nothing else (60_exceptions.md
R219); the codes are those of R210. -/
def Obligations.FaultEntry : Prop :=
  (∀ (f : FaultCode) (s : State),
    s.raise f = { s with fault := f.code, run := false, seq := .idle, responses := s.responses ++ [.fault f.code] }) ∧
  FaultCode.illegalCommand.code = 0x01 ∧ FaultCode.badSlot.code = 0x02 ∧ FaultCode.badPin.code = 0x03 ∧
  FaultCode.badPull.code = 0x04 ∧ FaultCode.noUart.code = 0x05 ∧ FaultCode.uartExists.code = 0x06 ∧
  FaultCode.badBaud.code = 0x07

/-- `GPIO.NEW` raises `BadSlot`, `BadPin`, `BadPull` in that order, before the first micro-operation (40_gpio.md R150,
60_exceptions.md R218). -/
def Obligations.GpioNewChecksItsOperands : Prop :=
  ∀ (slot : BitVec 8) (pin : BitVec 6) (mode : BitVec 3) (pull : BitVec 2) (s : State), s.ready →
    (s.params.nslot ≤ slot.toNat → exec (.gpioNew slot pin mode pull) s = .next (s.raise .badSlot)) ∧
    (slot.toNat < s.params.nslot → 53 < pin.toNat → exec (.gpioNew slot pin mode pull) s = .next (s.raise .badPin)) ∧
    (slot.toNat < s.params.nslot → pin.toNat ≤ 53 → pull = 3 →
      exec (.gpioNew slot pin mode pull) s = .next (s.raise .badPull))

/-- `BadSlot` is raised by `GPIO.NEW` when `slot >= NSLOT`, and by every other `GPIO.*` operation when `slot >= NSLOT` or
`G[slot].valid = 0` (60_exceptions.md R212). -/
def Obligations.BadSlotIsRaised : Prop :=
  ∀ (slot : BitVec 8) (s : State), s.ready →
    (s.params.nslot ≤ slot.toNat → ∀ pin mode pull, exec (.gpioNew slot pin mode pull) s = .next (s.raise .badSlot)) ∧
    (s.params.nslot ≤ slot.toNat ∨ (∃ c, s.slots[slot.toNat]? = some c ∧ c.valid = false) →
      ∀ i ∈ [Instr.gpioOn slot, .gpioOff slot, .gpioPullUp slot, .gpioPullDown slot, .gpioPullNeither slot, .gpioDrop slot],
        exec i s = .next (s.raise .badSlot))

/-- `NoUart` for the three operations of a transceiver that is not there, `UartExists` for a second construction
(60_exceptions.md R215). -/
def Obligations.UartMustBeConstructedOnce : Prop :=
  ∀ s : State, s.ready →
    (s.uart.valid = false →
      (∀ byte, exec (.uartSendc byte) s = .next (s.raise .noUart)) ∧ exec .uartReadc s = .next (s.raise .noUart) ∧
      (∀ text, exec (.uartSendStr text) s = .next (s.raise .noUart))) ∧
    (s.uart.valid = true → ∀ baud, exec (.uartNew baud) s = .next (s.raise .uartExists))

/-- `BadBaud` exactly when `baud = 0` or `8 * baud > SYSTEM_CLOCK_HZ`, over unbounded integers; at 250 MHz the accepted range is 1 to
31250000, and a large divisor is no fault (60_exceptions.md R216). -/
def Obligations.BadBaudIsRaised : Prop :=
  (∀ (baud : Word) (s : State), s.ready → s.uart.valid = false →
    (baud = 0 ∨ s.params.clockHz < 8 * baud.toNat → exec (.uartNew baud) s = .next (s.raise .badBaud)) ∧
    (baud ≠ 0 → 8 * baud.toNat ≤ s.params.clockHz → ∀ f, exec (.uartNew baud) s ≠ .next (s.raise f))) ∧
  (∀ baud : Nat, badBaud 250000000 baud = false ↔ 1 ≤ baud ∧ baud ≤ 31250000) ∧
  computeDivisor 250000000 1 = 31249999

/-! ## The GPIO family -/

/-- The write of a function-select read-modify-write: the pin's field is the code, and every other bit is as read, bits 31:30 and
the fields of pins that do not exist included (40_gpio.md R141, R144). -/
def Obligations.ModifyChangesOnlyThePinsField : Prop :=
  ∀ (pin : BitVec 6) (code : BitVec 3) (w : Word),
    (rmwWord w (fselField pin) (fselCode pin code)).extractLsb' (3 * (pin.toNat % 10)) 3 = code ∧
    ∀ b, b < 3 * (pin.toNat % 10) ∨ 3 * (pin.toNat % 10) + 3 ≤ b →
      (rmwWord w (fselField pin) (fselCode pin code)).getLsbD b = w.getLsbD b

/-- `GPIO.NEW` completes: one read and one write of the pin's function-select register, the whole pull sequence, then the context
with `state = 0`; the pin's function is the mode, no other pin's function and no other bit of a function-select register changes; the
output latches and the UART are not touched; the pin has the pull code latched, whatever the clock registers held before, and every
other pin whose clock bit is 0 keeps its pull (40_gpio.md R141, R142, R150). Each delay takes its cycles (R143): 309 turns of the environment in all. [log 5, log 13] -/
def Obligations.GpioNewConstructs : Prop :=
  ∀ (slot : BitVec 8) (pin : BitVec 6) (mode : BitVec 3) (pull : BitVec 2) (s : State) (hp : pin.toNat ≤ 53),
    s.ready → s.lineOnly → slot.toNat < s.params.nslot → s.slots.length = s.params.nslot → pull ≠ 3 →
    ∃ t, exec (.gpioNew slot pin mode pull) s = .next t ∧ Completed s t .done ∧ t.dly = 0 ∧
      t.trace = s.trace ++ fselEvents s.params pin mode (s.target.fsel[pin.toNat / 10]'(by omega))
        ++ pullEvents s.params pin pull ∧
      t.slots = s.slots.set slot.toNat { valid := true, pin := pin, mode := mode, pull := pull, state := false } ∧
      t.uart = s.uart ∧ t.target.out = s.target.out ∧
      (∀ p : Fin 54, t.target.func p = if p.val = pin.toNat then mode else s.target.func p) ∧
      t.target.fsel = s.target.fsel.set (pin.toNat / 10)
        (rmwWord (s.target.fsel[pin.toNat / 10]'(by omega)) (fselField pin) (fselCode pin mode)) (by omega) ∧
      t.target.pud = 0 ∧ t.target.pudclk = s.target.pudclk.set (pin.toNat / 32) 0 (by omega) ∧
      (∀ p : Fin 54, p.val = pin.toNat → t.target.pull[p] = pull) ∧
      (∀ p : Fin 54, p.val ≠ pin.toNat → pairBit s.target.pudclk p = false → t.target.pull[p] = s.target.pull[p]) ∧
      SameUartRegs s.target t.target ∧ OnlyLine 309 s t

/-- `GPIO.ON` completes: one write of the pin's bit to its set register; that latch is 1 and no other latch changes; the context's
`state` is 1; nothing else changes but what the line does in two turns (40_gpio.md R151). [log 5] -/
def Obligations.GpioOnSetsOneLatch : Prop :=
  ∀ (slot : BitVec 8) (s : State) (c : GpioContext), s.ready → s.lineOnly → s.context slot = some c →
    ∃ t, exec (.gpioOn slot) s = .next t ∧ Completed s t .done ∧ t.dly = s.dly ∧
      t.trace = s.trace ++ [.wr (setAddr s.params c.pin) (pinBit c.pin)] ∧
      t.slots = s.slots.set slot.toNat { c with state := true } ∧ t.uart = s.uart ∧
      (∀ q < 54, t.target.out.getLsbD q = (decide (q = c.pin.toNat) || s.target.out.getLsbD q)) ∧
      SamePins { s.target with out := t.target.out } t.target ∧ SameUartRegs s.target t.target ∧ OnlyLine 2 s t

/-- `GPIO.OFF` completes: one write of the pin's bit to its clear register; that latch is 0 and no other latch changes; the
context's `state` is 0; nothing else changes but what the line does in two turns (40_gpio.md R152). [log 5] -/
def Obligations.GpioOffClearsOneLatch : Prop :=
  ∀ (slot : BitVec 8) (s : State) (c : GpioContext), s.ready → s.lineOnly → s.context slot = some c →
    ∃ t, exec (.gpioOff slot) s = .next t ∧ Completed s t .done ∧ t.dly = s.dly ∧
      t.trace = s.trace ++ [.wr (clrAddr s.params c.pin) (pinBit c.pin)] ∧
      t.slots = s.slots.set slot.toNat { c with state := false } ∧ t.uart = s.uart ∧
      (∀ q < 54, t.target.out.getLsbD q = (!decide (q = c.pin.toNat) && s.target.out.getLsbD q)) ∧
      SamePins { s.target with out := t.target.out } t.target ∧ SameUartRegs s.target t.target ∧ OnlyLine 2 s t

/-- The three pull operations complete, with the codes 1, 2 and 0: the whole pull sequence and then the stored pull field
(40_gpio.md R153 to R155, R157). Each of the two delays takes its cycles (R143): 307 turns of the environment in all, of which the
line makes what it may and nothing else. [log 5, log 13] -/
def Obligations.PullOperationsLatchTheirCode : Prop :=
  ∀ (slot : BitVec 8) (s : State) (c : GpioContext), s.ready → s.lineOnly → s.context slot = some c →
    Repulled slot 1 c s (exec (.gpioPullUp slot) s) ∧
    Repulled slot 2 c s (exec (.gpioPullDown slot) s) ∧
    Repulled slot 0 c s (exec (.gpioPullNeither slot) s)

/-- `GPIO.DROP` completes: the slot's `valid` is 0, with no access of any kind (40_gpio.md R156). That the other fields of the dropped
slot, which have no value any more (10_state.md R22), stay as they were is the model's choice. [log 3] -/
def Obligations.GpioDropTouchesNoRegister : Prop :=
  ∀ (slot : BitVec 8) (s : State) (c : GpioContext), s.ready → s.lineOnly → s.context slot = some c →
    ∃ t, exec (.gpioDrop slot) s = .next t ∧ Completed s t .done ∧ t.dly = s.dly ∧ t.trace = s.trace ∧
      t.slots = s.slots.set slot.toNat { c with valid := false } ∧ t.uart = s.uart ∧
      SamePins s.target t.target ∧ SameUartRegs s.target t.target ∧ OnlyLine 1 s t

/-- `on(p)` followed by `off(p)` leaves the pin's latch 0 and does not alter the state of any other pin (95_test_vectors.md S2). -/
def Obligations.OnThenOffLeavesOtherPins : Prop :=
  ∀ (slot : BitVec 8) (s : State) (c : GpioContext), s.ready → s.lineOnly → s.context slot = some c →
    slot.toNat < s.slots.length →
    ∃ t u, exec (.gpioOn slot) s = .next t ∧ exec (.gpioOff slot) t = .next u ∧
      ∀ q < 54, u.target.out.getLsbD q = (!decide (q = c.pin.toNat) && s.target.out.getLsbD q)

/-! ## The UART family -/

/-- `computeDivisor`: floor division over unbounded integers; under its condition the bit rate of the divisor is the least one not
below the rate asked for, and the divisor fits its word; the source's example is 270 (41_uart.md R180). -/
def Obligations.DivisorIsTheFloor : Prop :=
  (∀ clock baud : Nat, badBaud clock baud = false →
    8 * baud * (computeDivisor clock baud + 1) ≤ clock ∧ clock < 8 * baud * (computeDivisor clock baud + 2)) ∧
  (∀ (p : Params) (baud : Word), p.wf = true → badBaud p.clockHz baud.toNat = false →
    (divisorWord p baud).toNat = computeDivisor p.clockHz baud.toNat ∧ (divisorWord p baud).toNat < 2 ^ 29) ∧
  computeDivisor 250000000 115200 = 270

/-- `UART.NEW` completes: exactly its 3 reads, 16 writes and 4 delays in order; its postcondition; the context; both pins in the
alternate function with no pull, and no other bit of a function-select register changed; every other pin whose clock bit is 0 keeps its
pull; nothing else but what the line does: it may take bytes of `TXF` before the clear, oldest
first, and the bytes cleared from `TXF` never reach `LINE_TX`; `RXF` holds only bytes that arrived after the clear, all of them where there
was room (41_uart.md R185 with corner cases 2 and 3, 40_gpio.md R142, 10_state.md R60, R63). Each delay takes its cycles (R143): 624 turns of
the environment in all, the last of them after the clear. [log 5, log 13] -/
def Obligations.UartNewConstructs : Prop :=
  ∀ (baud : Word) (s : State) (htx : s.params.txPin.toNat ≤ 53) (hrx : s.params.rxPin.toNat ≤ 53),
    s.ready → s.lineOnly → s.params.wf = true → s.uart.valid = false → badBaud s.params.clockHz baud.toNat = false →
    let p := s.params
    let wtx := s.target.fsel[s.params.txPin.toNat / 10]'(by omega)
    let afterTx := s.target.fsel.set (s.params.txPin.toNat / 10)
      (rmwWord wtx (fselField p.txPin) (fselCode p.txPin p.uartAltCode)) (by omega)
    let wrx := afterTx[s.params.rxPin.toNat / 10]'(by omega)
    ∃ t, exec (.uartNew baud) s = .next t ∧ Completed s t .done ∧ t.dly = 0 ∧
      t.trace = s.trace ++ [.rd (regAddr p .auxenb) s.target.auxenb, .wr (regAddr p .auxenb) (s.target.auxenb ||| 1),
          .wr (regAddr p .muCntl) 0, .wr (regAddr p .muLcr) 3, .wr (regAddr p .muBaud) (divisorWord p baud)]
        ++ fselEvents p p.txPin p.uartAltCode wtx ++ pullEvents p p.txPin 0
        ++ fselEvents p p.rxPin p.uartAltCode wrx ++ pullEvents p p.rxPin 0
        ++ [.wr (regAddr p .muCntl) 3, .wr (regAddr p .muIir) p.fifoClearCode] ∧
      t.uart = { valid := true, baud := baud,
                 tx := { valid := true, pin := p.txPin, mode := p.uartAltCode, pull := 0, state := false },
                 rx := { valid := true, pin := p.rxPin, mode := p.uartAltCode, pull := 0, state := false } } ∧
      t.slots = s.slots ∧ t.target.out = s.target.out ∧
      t.target.auxenb = s.target.auxenb ||| 1 ∧ t.target.cntl = 3 ∧ t.target.lcr = 3 ∧
      t.target.baud = divisorWord p baud ∧ t.target.txf = [] ∧ t.sched = s.sched.drop 624 ∧
      (∃ k ≤ (s.sched.take 623).flatten.countP EnvStep.isDrain, t.lineTx = s.lineTx ++ s.target.txf.take k) ∧
      Hears p.fifoDepth (((s.sched.drop 623).take 1).flatten.filterMap EnvStep.arrival) [] t.target.rxf ∧
      t.target.fsel = afterTx.set (s.params.rxPin.toNat / 10)
        (rmwWord wrx (fselField p.rxPin) (fselCode p.rxPin p.uartAltCode)) (by omega) ∧
      (∀ q : Fin 54, t.target.func q =
        if q.val = p.txPin.toNat ∨ q.val = p.rxPin.toNat then p.uartAltCode else s.target.func q) ∧
      (∀ q : Fin 54, q.val = p.txPin.toNat ∨ q.val = p.rxPin.toNat → t.target.pull[q] = 0) ∧
      (∀ q : Fin 54, q.val ≠ p.txPin.toNat → q.val ≠ p.rxPin.toNat → pairBit s.target.pudclk q = false →
        t.target.pull[q] = s.target.pull[q]) ∧
      t.target.pud = 0 ∧
      t.target.pudclk = (s.target.pudclk.set (s.params.txPin.toNat / 32) 0 (by omega)).set (s.params.rxPin.toNat / 32) 0 (by omega)

/-- `UART.SENDC` completes when the transmitter is ready: one poll that reads bit 5 set, then one write of the byte; the byte
follows all bytes sent before it; nothing else changes but what the line does in its three turns (41_uart.md R187). [log 5] -/
def Obligations.SendcSendsOneByte : Prop :=
  ∀ (byte : Byte) (s : State), s.ready → s.lineOnly → s.params.wf = true → s.uart.valid = true →
    s.target.enabled = true → txReady s.params s.target = true →
    ∃ t w, exec (.uartSendc byte) s = .next t ∧ Completed s t .done ∧ t.dly = s.dly ∧ BitVec.getLsbD w 5 = true ∧
      t.trace = s.trace ++ [.rd (regAddr s.params .muLsr) w, .wr (regAddr s.params .muIo) (zext32 byte)] ∧
      Sends 3 [byte] s t ∧
      t.slots = s.slots ∧ t.uart = s.uart ∧ SamePins s.target t.target ∧ SameUartRegs s.target t.target

/-- `UART.READC` completes when a byte is there: one poll that reads bit 0 set, one read of `MU_IO`, and the answer is the head of
`RXF`, zero-extended; nothing else changes but what the line does in its three turns: what is left of `RXF` is the bytes behind the head
and those that arrived. With a FIFO of one byte an overrun could replace the head in between (20_memory.md R102), so there the line must
be silent (41_uart.md R188). [log 5] -/
def Obligations.ReadcReturnsTheOldestByte : Prop :=
  ∀ (b : Byte) (later : List Byte) (s : State), s.ready → s.lineOnly → s.params.wf = true → s.uart.valid = true →
    s.target.enabled = true → s.target.rxf = b :: later → (2 ≤ s.params.fifoDepth ∨ s.sched = []) →
    ∃ t w v, exec .uartReadc s = .next t ∧ Completed s t (.value (zext32 b)) ∧ t.dly = s.dly ∧
      BitVec.getLsbD w 0 = true ∧ BitVec.extractLsb' 0 8 v = b ∧
      t.trace = s.trace ++ [.rd (regAddr s.params .muLsr) w, .rd (regAddr s.params .muIo) v] ∧
      t.sched = s.sched.drop 3 ∧ Drained (s.drained 3) s t ∧ Hears (s.params.fifoDepth - 1) (s.heard 3) later t.target.rxf ∧
      t.slots = s.slots ∧ t.uart = s.uart ∧ SamePins s.target t.target ∧ SameUartRegs s.target t.target

/-- `UART.SEND_STR` completes when the whole text has room: each byte after its own poll that reads bit 5 set, in order, with one
response at the end; nothing else changes but what the line does in its turns, two for each byte and one (41_uart.md R189). [log 5] -/
def Obligations.SendStrSendsTheWholeText : Prop :=
  ∀ (text : List Byte) (s : State), s.ready → s.lineOnly → s.params.wf = true → s.params.txStatus = .notFull →
    s.uart.valid = true → s.target.enabled = true → s.target.txf.length + text.length ≤ s.params.fifoDepth →
    ∃ (t : State) (polls : List Word), exec (.uartSendStr text) s = .next t ∧ Completed s t .done ∧ t.dly = s.dly ∧
      polls.length = text.length ∧ (∀ w ∈ polls, BitVec.getLsbD w 5 = true) ∧
      t.trace = s.trace ++ sendEvents s.params polls text ∧
      Sends (2 * text.length + 1) text s t ∧
      t.slots = s.slots ∧ t.uart = s.uart ∧ SamePins s.target t.target ∧ SameUartRegs s.target t.target

/-- `UART.SEND_STR` of the empty text: no access, `Done` (41_uart.md R189 corner case 1). -/
def Obligations.SendStrOfNothing : Prop :=
  ∀ s : State, s.ready → s.lineOnly → s.uart.valid = true →
    ∃ t, exec (.uartSendStr []) s = .next t ∧ Completed s t .done ∧ t.dly = s.dly ∧ t.trace = s.trace ∧
      t.slots = s.slots ∧ t.uart = s.uart ∧ SamePins s.target t.target ∧ SameUartRegs s.target t.target ∧ OnlyLine 1 s t

/-- `UART.SEND_STR` has exactly the effect and trace of one `UART.SENDC` after another, with one response instead of one for each
byte (30_encoding.md R129). Stated with the line silent, where the two runs meet the same environment, for every state, also one where
the mini-UART is disabled, as long as the bytes are all sent. It compares two runs: that both draw the same open bits in the same places
is the model's counter of draws. [log 5, log 7] -/
def Obligations.SendStrIsSendcForEachByte : Prop :=
  ∀ (text : List Byte) (s t : State), s.ready → s.sched = [] → s.uart.valid = true → sendEach text s = .next t →
    t.seq = .idle → exec (.uartSendStr text) s = .next { t with responses := s.responses ++ [.done] }

/-- With no room and a line that drains nothing, a send never writes the data register and never responds: every step reads the
status once more with bit 5 clear, and nothing else changes (60_exceptions.md R222, 95_test_vectors.md S5). A `UART.SEND_STR` that meets
a full FIFO in the middle of its text has sent the bytes before it, each after its own poll, and none from there on (41_uart.md R189);
`sent` is empty where the first byte already waits. That each of the `k` further steps is one more read of the status is the grain of the model's
step. [log 4] -/
def Obligations.SendBlocksWithoutRoom : Prop :=
  ∀ (i : Instr) (sent : List Byte) (s : State),
    ((∃ b, i = .uartSendc b) ∧ sent = [] ∨ ∃ b later, i = .uartSendStr (sent ++ b :: later)) →
    s.ready → s.sched = [] → s.uart.valid = true → s.target.enabled = true → (sent ≠ [] → 1 ≤ s.params.fifoDepth) →
    (∀ n < sent.length, txReady s.params { s.target with txf := s.target.txf ++ sent.take n } = true) →
    txReady s.params { s.target with txf := s.target.txf ++ sent } = false →
    ∃ t0 : State, exec i s = .next t0 ∧ ∀ k : Nat, ∃ (t : State) (ready polls : List Word), Sys2Proof.core.run k t0 = .next t ∧
      ready.length = sent.length ∧ (∀ w ∈ ready, BitVec.getLsbD w 5 = true) ∧
      polls.length = k + 1 ∧ (∀ w ∈ polls, BitVec.getLsbD w 5 = false) ∧
      t.trace = s.trace ++ sendEvents s.params ready sent ++ polls.map (fun w => .rd (regAddr s.params .muLsr) w) ∧
      t.target = { s.target with txf := s.target.txf ++ sent } ∧ StillBlocked s t

/-- With nothing received and nothing arriving, `UART.READC` never reads the data register and never responds (60_exceptions.md
R222). That each of the `k` further steps is one more read of the status is the grain of the model's step. [log 4] -/
def Obligations.ReadBlocksWithoutData : Prop :=
  ∀ s : State, s.ready → s.sched = [] → s.uart.valid = true → s.target.enabled = true → s.target.rxf = [] →
    ∃ t0 : State, exec .uartReadc s = .next t0 ∧ ∀ k : Nat, ∃ (t : State) (polls : List Word), Sys2Proof.core.run k t0 = .next t ∧
      polls.length = k + 1 ∧ (∀ w ∈ polls, BitVec.getLsbD w 0 = false) ∧
      t.trace = s.trace ++ polls.map (fun w => .rd (regAddr s.params .muLsr) w) ∧
      t.target = s.target ∧ StillBlocked s t

/-- A send or a receive that waits after a failed poll (41_uart.md R182, R184, R189; 60_exceptions.md R222: "Whether the bit is ever set is
the serial line's business"). In the step that goes on from there the line has its turn before the `Nop` and its turn before the
next poll, which leave `envTurn (envTurn s)`; what the poll finds is decided there. Bit set: the operation goes on to the access
of the data register and completes; a `UART.SEND_STR` sends the bytes that remain, each after its own poll, with its one response, when all
of them have room, and when only the first ones (`sent`; none, where the bit is still clear) have room it sends those and waits
again. Nothing else changes but what the line does in its turns. The state a poll leaves behind it, and that one step runs to the next
wait, are the model's. [log 4, log 5] -/
def Obligations.BlockedOperationsGoOn : Prop :=
  (∀ (byte : Byte) (w : ReadWord) (s : State), s.run = true → s.lineOnly → s.params.wf = true → s.target.enabled = true →
    s.seq = .busy (.uartSendc byte) w (.nop :: sendByte s.params byte ++ [.finish .sent]) →
    let e := envTurn (envTurn s)
    txReady s.params e.target = true →
    ∃ t v, step s = .next t ∧ Completed s t .done ∧ t.dly = s.dly ∧ BitVec.getLsbD v 5 = true ∧
      t.trace = s.trace ++ [.rd (regAddr s.params .muLsr) v, .wr (regAddr s.params .muIo) (zext32 byte)] ∧
      Sends 4 [byte] s t ∧ Sends 2 [byte] e t ∧
      t.slots = s.slots ∧ t.uart = s.uart ∧ SamePins s.target t.target ∧ SameUartRegs s.target t.target) ∧
  (∀ (b : Byte) (later : List Byte) (w : ReadWord) (s : State), s.run = true → s.lineOnly → s.params.wf = true →
    s.target.enabled = true →
    s.seq = .busy .uartReadc w [.nop, .poll .rxReady, .memRead (regAddr s.params .muIo), .finish .received] →
    let e := envTurn (envTurn s)
    e.target.rxf = b :: later → (2 ≤ s.params.fifoDepth ∨ e.sched = []) →
    ∃ t u v, step s = .next t ∧ Completed s t (.value (zext32 b)) ∧ t.dly = s.dly ∧
      BitVec.getLsbD u 0 = true ∧ BitVec.extractLsb' 0 8 v = b ∧
      t.trace = s.trace ++ [.rd (regAddr s.params .muLsr) u, .rd (regAddr s.params .muIo) v] ∧
      t.sched = s.sched.drop 4 ∧ Drained (s.drained 4) s t ∧ Drained (e.drained 2) e t ∧
      Hears (s.params.fifoDepth - 1) (e.heard 2) later t.target.rxf ∧
      t.slots = s.slots ∧ t.uart = s.uart ∧ SamePins s.target t.target ∧ SameUartRegs s.target t.target) ∧
  (∀ (text remaining : List Byte) (w : ReadWord) (s : State), s.run = true → s.lineOnly → s.params.wf = true →
    s.params.txStatus = .notFull → s.target.enabled = true → remaining ≠ [] →
    s.seq = .busy (.uartSendStr text) w (.nop :: remaining.flatMap (sendByte s.params) ++ [.finish .sent]) →
    let e := envTurn (envTurn s)
    e.target.txf.length + remaining.length ≤ s.params.fifoDepth →
    ∃ (t : State) (polls : List Word), step s = .next t ∧ Completed s t .done ∧ t.dly = s.dly ∧
      polls.length = remaining.length ∧ (∀ v ∈ polls, BitVec.getLsbD v 5 = true) ∧
      t.trace = s.trace ++ sendEvents s.params polls remaining ∧
      Sends (2 * remaining.length + 2) remaining s t ∧ Sends (2 * remaining.length) remaining e t ∧
      t.slots = s.slots ∧ t.uart = s.uart ∧ SamePins s.target t.target ∧ SameUartRegs s.target t.target) ∧
  (∀ (text sent : List Byte) (b : Byte) (later : List Byte) (w : ReadWord) (s : State), s.run = true → s.lineOnly →
    s.params.wf = true → s.target.enabled = true →
    s.seq = .busy (.uartSendStr text) w (.nop :: (sent ++ b :: later).flatMap (sendByte s.params) ++ [.finish .sent]) →
    let e := envTurn (envTurn s)
    e.sched = [] →
    (∀ n < sent.length, txReady s.params { e.target with txf := e.target.txf ++ sent.take n } = true) →
    txReady s.params { e.target with txf := e.target.txf ++ sent } = false →
    ∃ (t : State) (ready : List Word) (r : ReadWord), step s = .next t ∧
      t.seq = .busy (.uartSendStr text) r (.nop :: (b :: later).flatMap (sendByte s.params) ++ [.finish .sent]) ∧
      ready.length = sent.length ∧ (∀ v ∈ ready, BitVec.getLsbD v 5 = true) ∧ BitVec.getLsbD r.toWord 5 = false ∧
      t.trace = s.trace ++ sendEvents s.params ready sent ++ [.rd (regAddr s.params .muLsr) r.toWord] ∧
      t.target = { e.target with txf := e.target.txf ++ sent } ∧ StillBlocked e t ∧
      t.responses = s.responses ∧ t.slots = s.slots ∧ t.uart = s.uart ∧ t.fault = s.fault ∧ t.dly = s.dly)

/-! ## The register target -/

/-- A write of `SET[n]` sets the latch of every pin `32n + i` with `v[i] = 1`, leaves every other latch, and ignores the bits above pin
53 (10_state.md R44). -/
def Obligations.SetWriteSetsLatches : Prop :=
  ∀ (n : Fin 2) (v : Word) (s : State), ∃ t, memWrite (regAddr s.params (.set n)) v s = .ok t ∧
    (∀ i < 32, 32 * n.val + i ≤ 53 →
      t.target.out.getLsbD (32 * n.val + i) = (v.getLsbD i || s.target.out.getLsbD (32 * n.val + i))) ∧
    (∀ q < 54, q / 32 ≠ n.val → t.target.out.getLsbD q = s.target.out.getLsbD q) ∧
    t = { s with target := { s.target with out := t.target.out },
                 trace := s.trace ++ [.wr (regAddr s.params (.set n)) v] }

/-- A write of `CLR[n]` clears the latch of every pin `32n + i` with `v[i] = 1`, leaves every other latch, and ignores the bits above pin
53; after a write of the same word to `SET[n]` it leaves every other latch as it was before both (10_state.md R46). -/
def Obligations.ClrWriteClearsLatches : Prop :=
  ∀ (n : Fin 2) (v : Word) (s : State), ∃ t, memWrite (regAddr s.params (.clr n)) v s = .ok t ∧
    (∀ i < 32, 32 * n.val + i ≤ 53 →
      t.target.out.getLsbD (32 * n.val + i) = (!v.getLsbD i && s.target.out.getLsbD (32 * n.val + i))) ∧
    (∀ q < 54, q / 32 ≠ n.val → t.target.out.getLsbD q = s.target.out.getLsbD q) ∧
    (∀ u, memWrite (regAddr u.params (.set n)) v u = .ok s → ∀ q < 54, q / 32 ≠ n.val ∨ v.getLsbD (q % 32) = false →
      t.target.out.getLsbD q = u.target.out.getLsbD q) ∧
    t = { s with target := { s.target with out := t.target.out },
                 trace := s.trace ++ [.wr (regAddr s.params (.clr n)) v] }

/-- `FSEL[n]` and `AUXENB` are read/write storage: a write stores the whole word, a read returns it and changes nothing (10_state.md
R42, R52). With the mini-UART enabled a write of `MU_LCR`, `MU_CNTL` or `MU_BAUD` stores the whole word and changes nothing else (R55, R58, R59).
A write of `MU_LSR` is refused (R57), also while the mini-UART is disabled, where the model takes R57 and not R64. [log 10] -/
def Obligations.WritesStoreTheWholeWord : Prop :=
  ∀ (v : Word) (s : State),
    (∀ n : Fin 6,
      memWrite (regAddr s.params (.fsel n)) v s
        = .ok { s with target := { s.target with fsel := s.target.fsel.set n v },
                       trace := s.trace ++ [.wr (regAddr s.params (.fsel n)) v] } ∧
      memRead (regAddr s.params (.fsel n)) s
        = .ok (.plain s.target.fsel[n],
            { s with trace := s.trace ++ [.rd (regAddr s.params (.fsel n)) s.target.fsel[n]] })) ∧
    memWrite (regAddr s.params .auxenb) v s
      = .ok { s with target := { s.target with auxenb := v }, trace := s.trace ++ [.wr (regAddr s.params .auxenb) v] } ∧
    memRead (regAddr s.params .auxenb) s
      = .ok (.plain s.target.auxenb, { s with trace := s.trace ++ [.rd (regAddr s.params .auxenb) s.target.auxenb] }) ∧
    (s.target.enabled = true →
      (∃ d, memWrite (regAddr s.params .muLcr) v s
        = .ok { s with target := { s.target with lcr := v },
                       trace := s.trace ++ [.wr (regAddr s.params .muLcr) v], draws := d }) ∧
      (∃ d, memWrite (regAddr s.params .muCntl) v s
        = .ok { s with target := { s.target with cntl := v },
                       trace := s.trace ++ [.wr (regAddr s.params .muCntl) v], draws := d }) ∧
      (∃ d, memWrite (regAddr s.params .muBaud) v s
        = .ok { s with target := { s.target with baud := v },
                       trace := s.trace ++ [.wr (regAddr s.params .muBaud) v], draws := d })) ∧
    memWrite (regAddr s.params .muLsr) v s = .error (.lineStatusWrite v)

/-- A read of `MU_LSR` has bit 0 set exactly when `RXF` is not empty, and bit 5 set exactly when `TXF` is not full, or, in the stricter reading,
exactly when it is empty; it changes nothing (10_state.md R56). Which reading holds is a parameter. [log 9] -/
def Obligations.LineStatusTellsTheQueues : Prop :=
  ∀ s : State, s.target.enabled = true → ∃ r t, memRead (regAddr s.params .muLsr) s = .ok (r, t) ∧
    (ReadWord.toWord r).getLsbD 0 = !s.target.rxf.isEmpty ∧
    (s.params.txStatus = .notFull → (ReadWord.toWord r).getLsbD 5 = decide (s.target.txf.length < s.params.fifoDepth)) ∧
    (s.params.txStatus = .fifoEmpty → (ReadWord.toWord r).getLsbD 5 = s.target.txf.isEmpty) ∧
    t = { s with trace := s.trace ++ [.rd (regAddr s.params .muLsr) r.toWord], draws := t.draws }

/-- A read of `MU_IO` removes the head of `RXF` and returns it in bits 7:0; with `RXF` empty the queue stays empty (10_state.md R54). While the
mini-UART is disabled a read of any of its registers answers some word and changes nothing but the trace, save that one of `MU_IO` may
take the head of `RXF`: the spec leaves the effect open (R64), and how far is the model's choice. [log 10] -/
def Obligations.DataReadPops : Prop :=
  ∀ s : State,
    (s.target.enabled = true → ∃ r t, memRead (regAddr s.params .muIo) s = .ok (r, t) ∧
      (∀ b later, s.target.rxf = b :: later → r.toWord.extractLsb' 0 8 = b ∧ t.target.rxf = later) ∧
      (s.target.rxf = [] → t.target.rxf = []) ∧
      t = { s with target := { s.target with rxf := t.target.rxf },
                   trace := s.trace ++ [.rd (regAddr s.params .muIo) r.toWord], draws := t.draws }) ∧
    (s.target.enabled = false → s.params.wf = true → ∀ reg ∈ [Reg.muIo, .muIir, .muLcr, .muLsr, .muCntl, .muBaud],
      ∃ r t, memRead (regAddr s.params reg) s = .ok (r, t) ∧
        (t.target.rxf = s.target.rxf ∨ reg = .muIo ∧ t.target.rxf = s.target.rxf.drop 1) ∧
        t = { s with target := { s.target with rxf := t.target.rxf },
                     trace := s.trace ++ [.rd (regAddr s.params reg) r.toWord], draws := t.draws })

/-- A write of `MU_IO` pushes bits 7:0 onto `TXF` when there is room; with `TXF` full the queue is as it was or has its tail replaced
(10_state.md R53). While the mini-UART is disabled a write of one of its registers leaves that register open, or its queue or queues, within the
FIFO's depth, and changes nothing else but the trace (R64); that `MU_IO` stands for `TXF` and `MU_IIR` for both queues there is the model's
choice. [log 10] -/
def Obligations.DataWritePushes : Prop :=
  ∀ (v : Word) (s : State),
    (s.target.enabled = true → ∃ t, memWrite (regAddr s.params .muIo) v s = .ok t ∧
      (s.target.txf.length < s.params.fifoDepth → t.target.txf = s.target.txf ++ [v.extractLsb' 0 8]) ∧
      (s.params.fifoDepth ≤ s.target.txf.length →
        t.target.txf = s.target.txf ∨ t.target.txf = s.target.txf.dropLast ++ [v.extractLsb' 0 8]) ∧
      t = { s with target := { s.target with txf := t.target.txf },
                   trace := s.trace ++ [.wr (regAddr s.params .muIo) v], draws := t.draws }) ∧
    (s.target.enabled = false → s.params.wf = true →
      (∃ t, memWrite (regAddr s.params .muIo) v s = .ok t ∧ t.target.txf.length ≤ s.params.fifoDepth ∧
        t = { s with target := { s.target with txf := t.target.txf },
                     trace := s.trace ++ [.wr (regAddr s.params .muIo) v], draws := t.draws }) ∧
      (∃ t, memWrite (regAddr s.params .muIir) v s = .ok t ∧ t.target.txf.length ≤ s.params.fifoDepth ∧
        t.target.rxf.length ≤ s.params.fifoDepth ∧
        t = { s with target := { s.target with txf := t.target.txf, rxf := t.target.rxf },
                     trace := s.trace ++ [.wr (regAddr s.params .muIir) v], draws := t.draws }) ∧
      (∃ t, memWrite (regAddr s.params .muLcr) v s = .ok t ∧
        t = { s with target := { s.target with lcr := t.target.lcr },
                     trace := s.trace ++ [.wr (regAddr s.params .muLcr) v], draws := t.draws }) ∧
      (∃ t, memWrite (regAddr s.params .muCntl) v s = .ok t ∧
        t = { s with target := { s.target with cntl := t.target.cntl },
                     trace := s.trace ++ [.wr (regAddr s.params .muCntl) v], draws := t.draws }) ∧
      (∃ t, memWrite (regAddr s.params .muBaud) v s = .ok t ∧
        t = { s with target := { s.target with baud := t.target.baud },
                     trace := s.trace ++ [.wr (regAddr s.params .muBaud) v], draws := t.draws }))

/-- A write of `FIFO_CLEAR_CODE` to `MU_IIR` empties both queues, and the bytes in `TXF` never reach `LINE_TX`; any other value is refused
(10_state.md R60). -/
def Obligations.FifoClearEmptiesBoth : Prop :=
  ∀ (v : Word) (s : State), s.params.wf = true → s.target.enabled = true →
    (v = s.params.fifoClearCode → memWrite (regAddr s.params .muIir) v s
      = .ok { s with target := { s.target with txf := [], rxf := [] },
                     trace := s.trace ++ [.wr (regAddr s.params .muIir) v] }) ∧
    (v ≠ s.params.fifoClearCode → memWrite (regAddr s.params .muIir) v s = .error (.iirWrite v))

/-- "A completed settle delay since the most recent write of the register": what `settledSince` finds in a trace (10_state.md
R50 (ii)); `heldSince`, which counts from the launch where the trace holds no such write (R51 (a)); and `restagedSince`: a write of `PUD`
after the most recent write of a clock register (70_reset_and_hazards.md R253). How the launch counts in each is the model's reading.
[log 8] -/
def Obligations.TraceTestsSayWhatFollowsTheLastWrite : Prop :=
  ∀ (a b : Word) (trace : List Event),
    (settledSince a trace = true ↔
      ∃ before v after, trace = before ++ .wr a v :: after ∧ (∀ v', Event.wr a v' ∉ after) ∧
        ∃ n : BitVec 8, 150 ≤ n ∧ Event.dl n ∈ after) ∧
    (heldSince a trace = true ↔
      settledSince a trace = true ∨ (∀ v, Event.wr a v ∉ trace) ∧ ∃ n : BitVec 8, 150 ≤ n ∧ Event.dl n ∈ trace) ∧
    (b ≠ a → (restagedSince b a trace = true ↔
      ∃ before v after, trace = before ++ .wr b v :: after ∧ ∀ v', Event.wr a v' ∉ after))

/-- A write of `PUDCLK[n]` stores the word; it latches the staged code onto every pin `32n + i` with `v[i] = 1` when the code is 0, 1 or 2
and the set-up delay was kept, and leaves the pull of such a pin a free value under code 3 or without the set-up delay; pins whose bit is
0 keep their pull; a pin whose hold delay it breaks gets a free value, whatever `v` is (10_state.md R50, R51). The model's reading: the
write that set a clock bit is the most recent write of its register, a bit that is 1 at launch counts its hold delay from the launch, a
trace without a write of `PUD` has no set-up delay, and a broken hold wins over a new latch. [log 8] -/
def Obligations.ClockWriteLatchesStagedCode : Prop :=
  ∀ (n : Fin 2) (v : Word) (s : State), ∃ t, memWrite (regAddr s.params (.pudclk n)) v s = .ok t ∧
    t.target.pudclk = s.target.pudclk.set n v ∧
    (∀ p : Fin 54,
      (holdBroken s p = false →
        (p.val / 32 = n.val → v.getLsbD (p.val % 32) = true → s.target.pud.extractLsb' 0 2 ≠ 3 →
          settledSince (regAddr s.params .pud) s.trace = true → t.target.pull[p] = s.target.pud.extractLsb' 0 2) ∧
        (p.val / 32 = n.val → v.getLsbD (p.val % 32) = true →
          s.target.pud.extractLsb' 0 2 = 3 ∨ settledSince (regAddr s.params .pud) s.trace = false →
          t.target.pull[p] = Config.drawPull s.draws p.val) ∧
        (p.val / 32 ≠ n.val ∨ v.getLsbD (p.val % 32) = false → t.target.pull[p] = s.target.pull[p])) ∧
      (holdBroken s p = true → t.target.pull[p] = Config.drawPull s.draws p.val)) ∧
    t = { s with target := { s.target with pudclk := t.target.pudclk, pull := t.target.pull },
                 trace := s.trace ++ [.wr (regAddr s.params (.pudclk n)) v], draws := t.draws }

/-- A write of `PUD` stores the word and changes the pull of no pin whose clock bit is 0; it keeps the pull of a pin whose clock bit is 1
when it is the first clear of the clean-up: it stages code 0, the hold delay has passed since the write of the pin's clock register, and
`PUD` has not been written since that write; every other pin with a clock bit it reaches, and leaves its pull a free value (10_state.md
R48, R51, R73; 70_reset_and_hazards.md R253; 93_implementation_defined.md U18). That no other write than that clear keeps the pull of a
pin with a clock bit is the model's reading. [log 8] -/
def Obligations.StageWriteReachesClockedPins : Prop :=
  ∀ (v : Word) (s : State), ∃ t, memWrite (regAddr s.params .pud) v s = .ok t ∧ t.target.pud = v ∧
    (∀ p : Fin 54,
      let clk := regAddr s.params (.pudclk (pairIndex p))
      (pairBit s.target.pudclk p = false → t.target.pull[p] = s.target.pull[p]) ∧
      (v.extractLsb' 0 2 = 0 → settledSince clk s.trace = true → restagedSince (regAddr s.params .pud) clk s.trace = false →
        t.target.pull[p] = s.target.pull[p]) ∧
      (pairBit s.target.pudclk p = true →
        v.extractLsb' 0 2 ≠ 0 ∨ settledSince clk s.trace = false ∨ restagedSince (regAddr s.params .pud) clk s.trace = true →
        t.target.pull[p] = Config.drawPull s.draws p.val)) ∧
    t = { s with target := { s.target with pud := v, pull := t.target.pull },
                 trace := s.trace ++ [.wr (regAddr s.params .pud) v], draws := t.draws }

/-- Reads of registers whose read the spec does not describe return some word and change nothing (10_state.md R47, R51 (c), R55,
R58 to R60). -/
def Obligations.UndescribedReadsChangeNothing : Prop :=
  ∀ (r : Reg) (s : State), s.params.wf = true →
    r ∈ [Reg.set 0, .set 1, .clr 0, .clr 1, .pud, .pudclk 0, .pudclk 1, .muIir, .muLcr, .muCntl, .muBaud] →
    ∃ w t, memRead (regAddr s.params r) s = .ok (w, t) ∧
      t = { s with trace := s.trace ++ [.rd (regAddr s.params r) w.toWord], draws := t.draws }

/-- An access outside the address map has no behaviour, and every register of the map can be read (20_memory.md R85, R91). -/
def Obligations.OnlyMappedAddressesAnswer : Prop :=
  ∀ (a : Word) (s : State),
    ((∀ r, regAddr s.params r ≠ a) →
      memRead a s = .error (.unmappedAddress a) ∧ ∀ v, memWrite a v s = .error (.unmappedAddress a)) ∧
    ((∃ r, regAddr s.params r = a) → ∃ w t, memRead a s = .ok (w, t))

/-- The registers have different addresses, each a multiple of 4, and no address wraps, nor does an address function of 00_scope.md R12
(20_memory.md R88, R90, R93, 40_gpio.md R140). The one exception is `MU_IIR` with an offset above `0x21506C`, whose bound the spec leaves open:
its address is taken modulo 2^32, and still differs from the others and is a multiple of 4: the model's choice. [log 21] -/
def Obligations.AddressesDifferAndOnlyMuIirMayWrap : Prop :=
  (∀ (p : Params) (r r' : Reg), p.wf = true → regAddr p r = regAddr p r' → r = r') ∧
  (∀ (p : Params) (r : Reg), p.wf = true → (regAddr p r).toNat % 4 = 0) ∧
  (∀ (p : Params) (r : Reg), p.wf = true → (r = .muIir → p.iirOffset.toNat ≤ 0x21506C) →
    (regAddr p r).toNat = p.periphBase.toNat + (regOffset p r).toNat) ∧
  ∀ (p : Params) (pin : BitVec 6), p.wf = true → pin.toNat ≤ 53 →
    (fselAddr p pin).toNat = p.periphBase.toNat + 0x200000 + 4 * (pin.toNat / 10) ∧
    (setAddr p pin).toNat = p.periphBase.toNat + 0x20001C + 4 * (pin.toNat / 32) ∧
    (clrAddr p pin).toNat = p.periphBase.toNat + 0x200028 + 4 * (pin.toNat / 32) ∧
    (pudclkAddr p pin).toNat = p.periphBase.toNat + 0x200098 + 4 * (pin.toNat / 32) ∧
    (pudAddr p).toNat = p.periphBase.toNat + 0x200094 ∧
    (pinBit pin).toNat = 2 ^ (pin.toNat % 32)

/-! ## The serial line -/

/-- `TxDrain` moves the head of `TXF` to `LINE_TX` when it is enabled, and is not taken when it is not (10_state.md R62). That
`MU_CNTL[1]` alone is `tx_en` for the values 1 and 2 is PRESUMED [log 12]; that a scheduled step which is not enabled is skipped is
the model's [log 5]. -/
def Obligations.TxDrainMovesTheHead : Prop :=
  ∀ s : State,
    (∀ b later, s.target.auxenb.getLsbD 0 = true → s.target.cntl.getLsbD 1 = true → s.target.txf = b :: later →
      envStep s .txDrain = { s with target := { s.target with txf := later }, lineTx := s.lineTx ++ [b] }) ∧
    (s.target.auxenb.getLsbD 0 = false ∨ s.target.cntl.getLsbD 1 = false ∨ s.target.txf = [] → envStep s .txDrain = s)

/-- `RxArrive(b)` appends `b` to `RXF` when it is enabled and there is room, leaves `RXF` or replaces its tail when it is full, and is not taken when
it is not enabled (10_state.md R63). [log 5, log 7, log 12] -/
def Obligations.RxArriveAppends : Prop :=
  ∀ (b : Byte) (s : State),
    (s.target.auxenb.getLsbD 0 = true → s.target.cntl.getLsbD 0 = true → s.target.rxf.length < s.params.fifoDepth →
      envStep s (.rxArrive b) = { s with target := { s.target with rxf := s.target.rxf ++ [b] } }) ∧
    (s.target.auxenb.getLsbD 0 = true → s.target.cntl.getLsbD 0 = true → s.params.fifoDepth ≤ s.target.rxf.length →
      ∃ t, envStep s (.rxArrive b) = t ∧ (t.target.rxf = s.target.rxf ∨ t.target.rxf = s.target.rxf.dropLast ++ [b]) ∧
        t = { s with target := { s.target with rxf := t.target.rxf }, draws := t.draws }) ∧
    (s.target.auxenb.getLsbD 0 = false ∨ s.target.cntl.getLsbD 0 = false → envStep s (.rxArrive b) = s)

/-! ## Reset -/

/-- The sequencer after reset (10_state.md R70), for every launch state of the target, and `State.reset` in particular. -/
def Obligations.ResetStateOfTheSequencer : Prop :=
  (∀ (p : Params) (launch : Target),
    (State.resetWith p launch).run = true ∧ (State.resetWith p launch).fault = 0 ∧ (State.resetWith p launch).seq = .idle ∧
    (State.resetWith p launch).dly = 0 ∧ (State.resetWith p launch).slots.length = p.nslot ∧
    (∀ c ∈ (State.resetWith p launch).slots, c.valid = false) ∧ (State.resetWith p launch).uart.valid = false) ∧
  ∃ p launch, State.reset = State.resetWith p launch

/-- The reset event takes every state, also a halted one or one inside an operation, to the sequencer state of 10_state.md R70, with
trace and `LINE_TX` empty (70_reset_and_hazards.md R240, 10_state.md R72). That the record of the responses stays is the model's
bookkeeping. [log 14] -/
def Obligations.ResetEventFromEveryState : Prop :=
  ∀ (launch : Target) (s : State),
    (s.resetEvent launch).ready ∧ (s.resetEvent launch).fault = 0 ∧ (s.resetEvent launch).dly = 0 ∧
    (s.resetEvent launch).slots.length = s.params.nslot ∧ (∀ c ∈ (s.resetEvent launch).slots, c.valid = false) ∧
    (s.resetEvent launch).uart.valid = false ∧ (s.resetEvent launch).trace = [] ∧ (s.resetEvent launch).lineTx = [] ∧
    (s.resetEvent launch).params = s.params ∧ (s.resetEvent launch).responses = s.responses

/-- A reset that is due is taken, whatever the sequencer is at (70_reset_and_hazards.md R240): before any micro-operation, in the middle of an
operation or in its poll loop (60_exceptions.md R222), while halted, of which it is the exit (R221), while waiting for the words of a
command, and before the first micro-operation of any operation whose checks pass, which then has no effect. The operation it cuts short
gives no response (the record of the responses is kept). When a reset falls is the model's schedule, and what a reset leaves of the
host's words and of the bookkeeping is the model's. [log 5, log 14] -/
def Obligations.ScheduledResetIsTaken : Prop :=
  ∀ (s : State) (launch : Target) (later : List (List EnvStep)), s.sched = [.reset launch] :: later →
    tick s = .next ((s.withSched later).resetEvent launch) ∧
    (s.run = false → step s = .next ((s.withSched later).resetEvent launch)) ∧
    (∀ i w rest, s.run = true → s.seq = .busy i w rest → step s = .next ((s.withSched later).resetEvent launch)) ∧
    (s.ready → decode s.cmdPort = .incomplete → step s = .next ((s.withSched later).resetEvent launch)) ∧
    (∀ i, s.ready → (∀ f, exec i s ≠ .next (s.raise f)) → exec i s = .next ((s.withSched later).resetEvent launch))

/-! ## Invariants -/

/-- Every step keeps the invariant of the machine, from every state that meets it and under every behaviour of the environment. -/
def Obligations.EveryStepKeepsTheInvariant : Prop := ∀ s t : State, s.Inv → step s = .next t → t.Inv

/-- From every state that meets the invariant a step answers a next state: no operation ever reaches an address outside the map, a write
the target refuses, or a context that is not there (20_memory.md R85, R96, R97). -/
def Obligations.NoStepStops : Prop := ∀ s : State, s.Inv → ∃ t, step s = .next t

/-- Every step keeps the poll discipline: `MU_IO` is written only right after a read of `MU_LSR` with bit 5 set, and read only right after one
with bit 0 set (70_reset_and_hazards.md R256, R257). -/
def Obligations.EveryStepKeepsThePollDiscipline : Prop := ∀ s t : State, s.Disciplined → step s = .next t → t.Disciplined

/-- Once constructed, the mini-UART stays enabled, in 8-bit mode, at the configured divisor, with transmit and receive enabled
(41_uart.md R185 postcondition, R190). -/
def Obligations.EveryStepKeepsTheUartConfigured : Prop := ∀ s t : State, s.UartKept → step s = .next t → t.UartKept

/-- The state after reset meets the three invariants that every step keeps. Its parameters and its target are the model's choice.
[log 1, log 2] -/
def Obligations.ResetMeetsTheInvariants : Prop := State.reset.Inv ∧ State.reset.Disciplined ∧ State.reset.UartKept

/-- Every operation leaves the pull machinery clean if it was clean before (10_state.md R73). -/
def Obligations.EveryOperationLeavesThePullMachineryClean : Prop :=
  ∀ (i : Instr) (s t : State), s.ready → s.lineOnly → s.params.wf = true → s.target.pullClean → exec i s = .next t →
    t.target.pullClean

/-- No step changes the parameters (00_scope.md R7, R8). -/
def Obligations.NoStepChangesTheParameters : Prop := ∀ s t : State, step s = .next t → t.params = s.params

/-- No operation but `GPIO.NEW` and `GPIO.DROP` changes which slots are valid (10_state.md R22). -/
def Obligations.OnlyNewAndDropChangeValid : Prop :=
  ∀ (i : Instr) (s t : State), s.lineOnly → s.ready → (∀ slot pin mode pull, i ≠ .gpioNew slot pin mode pull) →
    (∀ slot, i ≠ .gpioDrop slot) → exec i s = .next t → t.slots.map (·.valid) = s.slots.map (·.valid)

/-- The fields `state`, `mode` and `pull` of the contexts are read by no rule: two machines that differ only there answer alike, with
the same trace, responses, target and serial line, and still differ only there (10_state.md R23, 40_gpio.md R150, R157). It compares two runs:
that both draw the same open values in the same places is the model's counter of draws. [log 7] -/
def Obligations.StateFieldIsNeverRead : Prop :=
  ∀ (i : Instr) (s t : State) (slots : List GpioContext), SameHandles s.slots slots → exec i s = .next t →
    ∃ u, exec i { s with slots := slots } = .next u ∧ SameHandles t.slots u.slots ∧ t = { u with slots := t.slots }
end

