-- ==== Sys2Proof/Machine/Assembler.lean ====
section
/-! DEFINITION. Assembler.lean: the assembler syntax (30_encoding.md R128): one line of text to the operation it spells. No step of the
machine reads it. [log 19] -/

namespace Sys2Proof.Asm

/-! ## Text -/

def isBlank (c : Char) : Bool := c == ' ' || c == '\t'

/-- Without the blanks at either end. -/
def trim (cs : List Char) : List Char := ((cs.dropWhile isBlank).reverse.dropWhile isBlank).reverse

/-- The line up to a `;` that stands in no quoted text and is no quoted character; `quoted` says that a text has begun. -/
def uncomment (quoted : Bool) : List Char → List Char
  | [] => []
  | '\'' :: c :: '\'' :: cs => '\'' :: c :: '\'' :: uncomment (quoted && c != '"') cs
  | c :: cs =>
    if c == '"' then c :: uncomment (!quoted) cs
    else if c == ';' && !quoted then []
    else c :: uncomment quoted cs

/-- The operands between the commas, each without the blanks around it. -/
def operands (cs : List Char) : List (List Char) := (cs.splitOn ',').map trim

/-! ## Numbers (00_scope.md R9: `0b` binary, `0x` hexadecimal, anything else decimal) -/

/-- The value of a digit, `none` for no hexadecimal digit. -/
def digit (c : Char) : Option Nat :=
  if '0' ≤ c ∧ c ≤ '9' then some (c.toNat - 48)
  else if 'a' ≤ c ∧ c ≤ 'f' then some (c.toNat - 87)
  else if 'A' ≤ c ∧ c ≤ 'F' then some (c.toNat - 55)
  else none

/-- The digits after the number `n`. -/
def digits (base n : Nat) : List Char → Option Nat
  | [] => some n
  | c :: cs => match digit c with
    | some d => if d < base then digits base (n * base + d) cs else none
    | none => none

/-- A number less than `limit`. -/
def number (limit : Nat) (cs : List Char) : Option Nat :=
  let n := match cs with
    | '0' :: 'x' :: d :: ds => digits 16 0 (d :: ds)
    | '0' :: 'b' :: d :: ds => digits 2 0 (d :: ds)
    | d :: ds => digits 10 0 (d :: ds)
    | [] => none
  n.filter (fun n => decide (n < limit))

/-- A number as a field of `w` bits. -/
def field (w : Nat) (cs : List Char) : Option (BitVec w) := (number (2 ^ w) cs).map (BitVec.ofNat w)

/-! ## Operands (30_encoding.md R128) -/

/-- `s<slot>`. -/
def slotOperand : List Char → Option (BitVec 8)
  | 's' :: cs => field 8 cs
  | _ => none

/-- The mode names of 30_encoding.md R111. -/
def modeName (m : ModeNames) (cs : List Char) : Option (BitVec 3) :=
  if cs = ['i', 'n'] then some m.input
  else if cs = ['o', 'u', 't'] then some m.output
  else if cs = ['a', 'l', 't', '0'] then some m.alt0
  else if cs = ['a', 'l', 't', '1'] then some m.alt1
  else if cs = ['a', 'l', 't', '2'] then some m.alt2
  else if cs = ['a', 'l', 't', '3'] then some m.alt3
  else if cs = ['a', 'l', 't', '4'] then some m.alt4
  else if cs = ['a', 'l', 't', '5'] then some m.alt5
  else none

/-- `mode: 0..7 or a name`. -/
def modeOperand (m : ModeNames) (cs : List Char) : Option (BitVec 3) := (modeName m cs).or (field 3 cs)

/-- `pull: 0..2 or none|up|down`; `none` = 0, `up` = 1, `down` = 2 (30_encoding.md R112, R128). -/
def pullOperand (cs : List Char) : Option (BitVec 2) :=
  if cs = ['n', 'o', 'n', 'e'] then some 0
  else if cs = ['u', 'p'] then some 1
  else if cs = ['d', 'o', 'w', 'n'] then some 2
  else (number 3 cs).map (BitVec.ofNat 2)

/-- The byte a character stands for; only the characters of one byte have one. -/
def charByte (c : Char) : Option Byte := if c.toNat < 128 then some (BitVec.ofNat 8 c.toNat) else none

/-- `0..255 or a quoted character`. DESIGN CHOICE: a quoted character is any one ASCII character, also a quote or a backslash; there
is no two-character spelling of one here. [log 19] -/
def byteOperand : List Char → Option Byte
  | ['\'', c, '\''] => charByte c
  | cs => field 8 cs

/-- The bytes of a quoted text after its opening quote, as written, with the two characters `\n` for the byte `0x0A`
(95_test_vectors.md 2.5). DESIGN CHOICE: how a text spells a double quote is open (30_encoding.md R128), and the model gives it no
spelling: a double quote before the end of the operand, also one after a backslash, makes the line spell no operation. A backslash
that no `n` follows is the byte `0x5C`, and so a backslash before an `n` has no spelling either. [log 19] -/
def textBytes : List Char → Option (List Byte)
  | ['"'] => some []
  | '\\' :: 'n' :: cs => (textBytes cs).map (0x0A :: ·)
  | c :: cs => if c == '"' then none else do some ((← charByte c) :: (← textBytes cs))
  | [] => none

/-- `"<text>"`. DESIGN CHOICE: what the assembler does with a text of more than 65535 bytes is open (30_encoding.md R128); no
operation has such a text (R120: `len : 0..65535`), so the line spells none. [log 19] -/
def textOperand : List Char → Option (List Byte)
  | '"' :: cs => (textBytes cs).filter fun text => decide (text.length < 65536)
  | _ => none

/-! ## Lines -/

/-- An operation whose one operand is a slot. -/
def slotLine (f : BitVec 8 → Instr) : List (List Char) → Option Instr
  | [s] => (slotOperand s).map f
  | _ => none

/-- `gpio.new s<slot>, <pin>, <mode>, <pull>`. -/
def newLine (m : ModeNames) : List (List Char) → Option Instr
  | [s, pin, mode, pull] => do
    some (.gpioNew (← slotOperand s) (← field 6 pin) (← modeOperand m mode) (← pullOperand pull))
  | _ => none

/-- The operation an operation name and the text after it spell. -/
def line (m : ModeNames) (name : String) (rest : List Char) : Option Instr :=
  if name = "gpio.new" then newLine m (operands rest)
  else if name = "gpio.on" then slotLine .gpioOn (operands rest)
  else if name = "gpio.off" then slotLine .gpioOff (operands rest)
  else if name = "gpio.pull_up" then slotLine .gpioPullUp (operands rest)
  else if name = "gpio.pull_down" then slotLine .gpioPullDown (operands rest)
  else if name = "gpio.pull_neither" then slotLine .gpioPullNeither (operands rest)
  else if name = "gpio.drop" then slotLine .gpioDrop (operands rest)
  else if name = "uart.new" then (field 32 rest).map .uartNew
  else if name = "uart.sendc" then (byteOperand rest).map .uartSendc
  else if name = "uart.readc" then if rest = [] then some .uartReadc else none
  else if name = "uart.send_str" then (textOperand rest).map .uartSendStr
  else none

/-- The operation a line of assembly spells, `none` where it spells none. -/
def assemble (m : ModeNames) (cs : List Char) : Option Instr :=
  let cs := trim (uncomment false cs)
  line m (String.ofList (cs.takeWhile (fun c => !isBlank c))) (trim (cs.dropWhile (fun c => !isBlank c)))

end Sys2Proof.Asm
end

