-- ==== Sys2Proof/Laws/Assembler.lean ====
section
/-! SUPPORT. Laws/Assembler.lean: what the assembler gives is well formed, so that its encoding cuts nothing off. -/

namespace Sys2Proof

/-- A text operand has at most the 65535 bytes of 30_encoding.md R120. [log 19] -/
theorem Asm.textOperand_length {cs : List Char} {text : List Byte} (h : Asm.textOperand cs = some text) : text.length < 65536 := by
  unfold Asm.textOperand at h
  split at h
  · exact of_decide_eq_true (Option.filter_eq_some_iff.mp h).2
  · cases h

/-- A line with one slot spells the operation it names. -/
theorem Asm.slotLine_eq {f : BitVec 8 → Instr} {ops : List (List Char)} {i : Instr} (h : Asm.slotLine f ops = some i) :
    ∃ slot, i = f slot := by
  unfold Asm.slotLine at h
  split at h
  · obtain ⟨slot, -, rfl⟩ := Option.map_eq_some_iff.mp h
    exact ⟨slot, rfl⟩
  · cases h

/-- A `gpio.new` line spells `GPIO.NEW`. -/
theorem Asm.newLine_eq {m : ModeNames} {ops : List (List Char)} {i : Instr} (h : Asm.newLine m ops = some i) :
    ∃ slot pin mode pull, i = .gpioNew slot pin mode pull := by
  unfold Asm.newLine at h
  split at h
  · simp only [bind, Option.bind_eq_some_iff, Option.some.injEq] at h
    obtain ⟨slot, -, pin, -, mode, -, pull, -, rfl⟩ := h
    exact ⟨slot, pin, mode, pull, rfl⟩
  · cases h

/-- Every line spells a well-formed operation or none. -/
theorem Asm.line_wf {m : ModeNames} {name : String} {rest : List Char} {i : Instr} (h : Asm.line m name rest = some i) :
    i.wf = true := by
  unfold Asm.line at h
  split at h
  · obtain ⟨slot, pin, mode, pull, rfl⟩ := Asm.newLine_eq h
    rfl
  iterate 6
    split at h
    · obtain ⟨slot, rfl⟩ := Asm.slotLine_eq h
      rfl
  iterate 2
    split at h
    · obtain ⟨_, -, rfl⟩ := Option.map_eq_some_iff.mp h
      rfl
  split at h
  · split at h
    · cases h
      rfl
    · cases h
  split at h
  · obtain ⟨text, ht, rfl⟩ := Option.map_eq_some_iff.mp h
    exact decide_eq_true (Asm.textOperand_length ht)
  · cases h

/-- What the assembler gives is well formed (30_encoding.md R120, R128). -/
theorem Asm.assemble_wf {m : ModeNames} {cs : List Char} {i : Instr} (h : Asm.assemble m cs = some i) : i.wf = true :=
  Asm.line_wf h

end Sys2Proof
end

