-- ==== Sys2Proof/Laws/Decode.lean ====
section
/-! SUPPORT. Laws/Decode.lean: fields of concatenated words, and texts packed into words and back. -/

namespace Sys2Proof

theorem extract_append_low {m n k : Nat} (x : BitVec m) (y : BitVec n) (start : Nat) (h : start + k ≤ n) :
    (x ++ y).extractLsb' start k = y.extractLsb' start k := by
  apply BitVec.eq_of_getLsbD_eq
  intro j hj
  rw [BitVec.getLsbD_extractLsb', BitVec.getLsbD_extractLsb', BitVec.getLsbD_append, if_pos (by omega)]

theorem extract_append_high {m n k : Nat} (x : BitVec m) (y : BitVec n) (start : Nat) (h : n ≤ start) :
    (x ++ y).extractLsb' start k = x.extractLsb' (start - n) k := by
  apply BitVec.eq_of_getLsbD_eq
  intro j hj
  rw [BitVec.getLsbD_extractLsb', BitVec.getLsbD_extractLsb', BitVec.getLsbD_append, if_neg (by omega)]
  congr 2
  omega

theorem extract_all {n : Nat} (x : BitVec n) : x.extractLsb' 0 n = x := by
  apply BitVec.eq_of_getLsbD_eq
  intro j hj
  simp [hj]

theorem wordBytes_packWord (a b c d : Byte) : wordBytes (packWord a b c d) = [a, b, c, d] := by
  simp only [wordBytes, packWord]
  rw [extract_append_low _ a 0 (by decide), extract_append_high _ a 8 (by decide), extract_append_high _ a 16 (by decide),
    extract_append_high _ a 24 (by decide), extract_append_low _ b _ (by decide), extract_append_high _ b _ (by decide),
    extract_append_high _ b _ (by decide), extract_append_low _ c _ (by decide), extract_append_high _ c _ (by decide)]
  simp

theorem packText_length : ∀ text : List Byte, (packText text).length = textWords text.length
  | [] => rfl
  | [_] => by simp [packText, textWords]
  | [_, _] => by simp [packText, textWords]
  | [_, _, _] => by simp [packText, textWords]
  | _ :: _ :: _ :: _ :: text => by
    simp only [packText, List.length_cons, packText_length text, textWords]
    omega

theorem unpackText_packText : ∀ text : List Byte, unpackText text.length (packText text) = text
  | [] => rfl
  | [_] => by simp [unpackText, packText, wordBytes_packWord]
  | [_, _] => by simp [unpackText, packText, wordBytes_packWord]
  | [_, _, _] => by simp [unpackText, packText, wordBytes_packWord]
  | _ :: _ :: _ :: _ :: text => by
    have h := unpackText_packText text
    simp only [unpackText] at h
    simp [unpackText, packText, wordBytes_packWord, h]

/-- A command word that selects an operation, with its extension words, decodes to it. -/
theorem decode_cons {w : Word} {ext rest : List Word} {i : Instr} (h : extCount w = ext.length) (hd : decodeWords w ext = some i) :
    decode (w :: (ext ++ rest)) = .command i rest := by
  simp [decode, h, hd]

end Sys2Proof
end

