-- ==== Sys2Proof/Laws/State.lean ====
section
/-! SUPPORT. Laws/State.lean: what each field is after each update of Ops.lean; every law is true by rfl. -/

namespace Sys2Proof.Machine

@[simp] theorem State.withTarget_params (t : Target) (s : State) : (s.withTarget t).params = s.params := rfl
@[simp] theorem State.withTarget_slots (t : Target) (s : State) : (s.withTarget t).slots = s.slots := rfl
@[simp] theorem State.withTarget_uart (t : Target) (s : State) : (s.withTarget t).uart = s.uart := rfl
@[simp] theorem State.withTarget_run (t : Target) (s : State) : (s.withTarget t).run = s.run := rfl
@[simp] theorem State.withTarget_fault (t : Target) (s : State) : (s.withTarget t).fault = s.fault := rfl
@[simp] theorem State.withTarget_seq (t : Target) (s : State) : (s.withTarget t).seq = s.seq := rfl
@[simp] theorem State.withTarget_dly (t : Target) (s : State) : (s.withTarget t).dly = s.dly := rfl
@[simp] theorem State.withTarget_target (t : Target) (s : State) : (s.withTarget t).target = t := rfl
@[simp] theorem State.withTarget_lineTx (t : Target) (s : State) : (s.withTarget t).lineTx = s.lineTx := rfl
@[simp] theorem State.withTarget_trace (t : Target) (s : State) : (s.withTarget t).trace = s.trace := rfl
@[simp] theorem State.withTarget_cmdPort (t : Target) (s : State) : (s.withTarget t).cmdPort = s.cmdPort := rfl
@[simp] theorem State.withTarget_responses (t : Target) (s : State) : (s.withTarget t).responses = s.responses := rfl
@[simp] theorem State.withTarget_badCommand (t : Target) (s : State) : (s.withTarget t).badCommand = s.badCommand := rfl
@[simp] theorem State.withTarget_sched (t : Target) (s : State) : (s.withTarget t).sched = s.sched := rfl
@[simp] theorem State.withTarget_draws (t : Target) (s : State) : (s.withTarget t).draws = s.draws := rfl

@[simp] theorem State.withSeq_params (q : Seq) (s : State) : (s.withSeq q).params = s.params := rfl
@[simp] theorem State.withSeq_slots (q : Seq) (s : State) : (s.withSeq q).slots = s.slots := rfl
@[simp] theorem State.withSeq_uart (q : Seq) (s : State) : (s.withSeq q).uart = s.uart := rfl
@[simp] theorem State.withSeq_run (q : Seq) (s : State) : (s.withSeq q).run = s.run := rfl
@[simp] theorem State.withSeq_fault (q : Seq) (s : State) : (s.withSeq q).fault = s.fault := rfl
@[simp] theorem State.withSeq_seq (q : Seq) (s : State) : (s.withSeq q).seq = q := rfl
@[simp] theorem State.withSeq_dly (q : Seq) (s : State) : (s.withSeq q).dly = s.dly := rfl
@[simp] theorem State.withSeq_target (q : Seq) (s : State) : (s.withSeq q).target = s.target := rfl
@[simp] theorem State.withSeq_lineTx (q : Seq) (s : State) : (s.withSeq q).lineTx = s.lineTx := rfl
@[simp] theorem State.withSeq_trace (q : Seq) (s : State) : (s.withSeq q).trace = s.trace := rfl
@[simp] theorem State.withSeq_cmdPort (q : Seq) (s : State) : (s.withSeq q).cmdPort = s.cmdPort := rfl
@[simp] theorem State.withSeq_responses (q : Seq) (s : State) : (s.withSeq q).responses = s.responses := rfl
@[simp] theorem State.withSeq_badCommand (q : Seq) (s : State) : (s.withSeq q).badCommand = s.badCommand := rfl
@[simp] theorem State.withSeq_sched (q : Seq) (s : State) : (s.withSeq q).sched = s.sched := rfl
@[simp] theorem State.withSeq_draws (q : Seq) (s : State) : (s.withSeq q).draws = s.draws := rfl

@[simp] theorem State.withDly_params (d : BitVec 8) (s : State) : (s.withDly d).params = s.params := rfl
@[simp] theorem State.withDly_slots (d : BitVec 8) (s : State) : (s.withDly d).slots = s.slots := rfl
@[simp] theorem State.withDly_uart (d : BitVec 8) (s : State) : (s.withDly d).uart = s.uart := rfl
@[simp] theorem State.withDly_run (d : BitVec 8) (s : State) : (s.withDly d).run = s.run := rfl
@[simp] theorem State.withDly_fault (d : BitVec 8) (s : State) : (s.withDly d).fault = s.fault := rfl
@[simp] theorem State.withDly_seq (d : BitVec 8) (s : State) : (s.withDly d).seq = s.seq := rfl
@[simp] theorem State.withDly_dly (d : BitVec 8) (s : State) : (s.withDly d).dly = d := rfl
@[simp] theorem State.withDly_target (d : BitVec 8) (s : State) : (s.withDly d).target = s.target := rfl
@[simp] theorem State.withDly_lineTx (d : BitVec 8) (s : State) : (s.withDly d).lineTx = s.lineTx := rfl
@[simp] theorem State.withDly_trace (d : BitVec 8) (s : State) : (s.withDly d).trace = s.trace := rfl
@[simp] theorem State.withDly_cmdPort (d : BitVec 8) (s : State) : (s.withDly d).cmdPort = s.cmdPort := rfl
@[simp] theorem State.withDly_responses (d : BitVec 8) (s : State) : (s.withDly d).responses = s.responses := rfl
@[simp] theorem State.withDly_badCommand (d : BitVec 8) (s : State) : (s.withDly d).badCommand = s.badCommand := rfl
@[simp] theorem State.withDly_sched (d : BitVec 8) (s : State) : (s.withDly d).sched = s.sched := rfl
@[simp] theorem State.withDly_draws (d : BitVec 8) (s : State) : (s.withDly d).draws = s.draws := rfl

@[simp] theorem State.withSlots_params (l : List GpioContext) (s : State) : (s.withSlots l).params = s.params := rfl
@[simp] theorem State.withSlots_slots (l : List GpioContext) (s : State) : (s.withSlots l).slots = l := rfl
@[simp] theorem State.withSlots_uart (l : List GpioContext) (s : State) : (s.withSlots l).uart = s.uart := rfl
@[simp] theorem State.withSlots_run (l : List GpioContext) (s : State) : (s.withSlots l).run = s.run := rfl
@[simp] theorem State.withSlots_fault (l : List GpioContext) (s : State) : (s.withSlots l).fault = s.fault := rfl
@[simp] theorem State.withSlots_seq (l : List GpioContext) (s : State) : (s.withSlots l).seq = s.seq := rfl
@[simp] theorem State.withSlots_dly (l : List GpioContext) (s : State) : (s.withSlots l).dly = s.dly := rfl
@[simp] theorem State.withSlots_target (l : List GpioContext) (s : State) : (s.withSlots l).target = s.target := rfl
@[simp] theorem State.withSlots_lineTx (l : List GpioContext) (s : State) : (s.withSlots l).lineTx = s.lineTx := rfl
@[simp] theorem State.withSlots_trace (l : List GpioContext) (s : State) : (s.withSlots l).trace = s.trace := rfl
@[simp] theorem State.withSlots_cmdPort (l : List GpioContext) (s : State) : (s.withSlots l).cmdPort = s.cmdPort := rfl
@[simp] theorem State.withSlots_responses (l : List GpioContext) (s : State) : (s.withSlots l).responses = s.responses := rfl
@[simp] theorem State.withSlots_badCommand (l : List GpioContext) (s : State) : (s.withSlots l).badCommand = s.badCommand := rfl
@[simp] theorem State.withSlots_sched (l : List GpioContext) (s : State) : (s.withSlots l).sched = s.sched := rfl
@[simp] theorem State.withSlots_draws (l : List GpioContext) (s : State) : (s.withSlots l).draws = s.draws := rfl

@[simp] theorem State.withUart_params (u : UartContext) (s : State) : (s.withUart u).params = s.params := rfl
@[simp] theorem State.withUart_slots (u : UartContext) (s : State) : (s.withUart u).slots = s.slots := rfl
@[simp] theorem State.withUart_uart (u : UartContext) (s : State) : (s.withUart u).uart = u := rfl
@[simp] theorem State.withUart_run (u : UartContext) (s : State) : (s.withUart u).run = s.run := rfl
@[simp] theorem State.withUart_fault (u : UartContext) (s : State) : (s.withUart u).fault = s.fault := rfl
@[simp] theorem State.withUart_seq (u : UartContext) (s : State) : (s.withUart u).seq = s.seq := rfl
@[simp] theorem State.withUart_dly (u : UartContext) (s : State) : (s.withUart u).dly = s.dly := rfl
@[simp] theorem State.withUart_target (u : UartContext) (s : State) : (s.withUart u).target = s.target := rfl
@[simp] theorem State.withUart_lineTx (u : UartContext) (s : State) : (s.withUart u).lineTx = s.lineTx := rfl
@[simp] theorem State.withUart_trace (u : UartContext) (s : State) : (s.withUart u).trace = s.trace := rfl
@[simp] theorem State.withUart_cmdPort (u : UartContext) (s : State) : (s.withUart u).cmdPort = s.cmdPort := rfl
@[simp] theorem State.withUart_responses (u : UartContext) (s : State) : (s.withUart u).responses = s.responses := rfl
@[simp] theorem State.withUart_badCommand (u : UartContext) (s : State) : (s.withUart u).badCommand = s.badCommand := rfl
@[simp] theorem State.withUart_sched (u : UartContext) (s : State) : (s.withUart u).sched = s.sched := rfl
@[simp] theorem State.withUart_draws (u : UartContext) (s : State) : (s.withUart u).draws = s.draws := rfl

@[simp] theorem State.withLineTx_params (l : List Byte) (s : State) : (s.withLineTx l).params = s.params := rfl
@[simp] theorem State.withLineTx_slots (l : List Byte) (s : State) : (s.withLineTx l).slots = s.slots := rfl
@[simp] theorem State.withLineTx_uart (l : List Byte) (s : State) : (s.withLineTx l).uart = s.uart := rfl
@[simp] theorem State.withLineTx_run (l : List Byte) (s : State) : (s.withLineTx l).run = s.run := rfl
@[simp] theorem State.withLineTx_fault (l : List Byte) (s : State) : (s.withLineTx l).fault = s.fault := rfl
@[simp] theorem State.withLineTx_seq (l : List Byte) (s : State) : (s.withLineTx l).seq = s.seq := rfl
@[simp] theorem State.withLineTx_dly (l : List Byte) (s : State) : (s.withLineTx l).dly = s.dly := rfl
@[simp] theorem State.withLineTx_target (l : List Byte) (s : State) : (s.withLineTx l).target = s.target := rfl
@[simp] theorem State.withLineTx_lineTx (l : List Byte) (s : State) : (s.withLineTx l).lineTx = l := rfl
@[simp] theorem State.withLineTx_trace (l : List Byte) (s : State) : (s.withLineTx l).trace = s.trace := rfl
@[simp] theorem State.withLineTx_cmdPort (l : List Byte) (s : State) : (s.withLineTx l).cmdPort = s.cmdPort := rfl
@[simp] theorem State.withLineTx_responses (l : List Byte) (s : State) : (s.withLineTx l).responses = s.responses := rfl
@[simp] theorem State.withLineTx_badCommand (l : List Byte) (s : State) : (s.withLineTx l).badCommand = s.badCommand := rfl
@[simp] theorem State.withLineTx_sched (l : List Byte) (s : State) : (s.withLineTx l).sched = s.sched := rfl
@[simp] theorem State.withLineTx_draws (l : List Byte) (s : State) : (s.withLineTx l).draws = s.draws := rfl

@[simp] theorem State.withCmdPort_params (l : List Word) (s : State) : (s.withCmdPort l).params = s.params := rfl
@[simp] theorem State.withCmdPort_slots (l : List Word) (s : State) : (s.withCmdPort l).slots = s.slots := rfl
@[simp] theorem State.withCmdPort_uart (l : List Word) (s : State) : (s.withCmdPort l).uart = s.uart := rfl
@[simp] theorem State.withCmdPort_run (l : List Word) (s : State) : (s.withCmdPort l).run = s.run := rfl
@[simp] theorem State.withCmdPort_fault (l : List Word) (s : State) : (s.withCmdPort l).fault = s.fault := rfl
@[simp] theorem State.withCmdPort_seq (l : List Word) (s : State) : (s.withCmdPort l).seq = s.seq := rfl
@[simp] theorem State.withCmdPort_dly (l : List Word) (s : State) : (s.withCmdPort l).dly = s.dly := rfl
@[simp] theorem State.withCmdPort_target (l : List Word) (s : State) : (s.withCmdPort l).target = s.target := rfl
@[simp] theorem State.withCmdPort_lineTx (l : List Word) (s : State) : (s.withCmdPort l).lineTx = s.lineTx := rfl
@[simp] theorem State.withCmdPort_trace (l : List Word) (s : State) : (s.withCmdPort l).trace = s.trace := rfl
@[simp] theorem State.withCmdPort_cmdPort (l : List Word) (s : State) : (s.withCmdPort l).cmdPort = l := rfl
@[simp] theorem State.withCmdPort_responses (l : List Word) (s : State) : (s.withCmdPort l).responses = s.responses := rfl
@[simp] theorem State.withCmdPort_badCommand (l : List Word) (s : State) : (s.withCmdPort l).badCommand = s.badCommand := rfl
@[simp] theorem State.withCmdPort_sched (l : List Word) (s : State) : (s.withCmdPort l).sched = s.sched := rfl
@[simp] theorem State.withCmdPort_draws (l : List Word) (s : State) : (s.withCmdPort l).draws = s.draws := rfl

@[simp] theorem State.withSched_params (l : List (List EnvStep)) (s : State) : (s.withSched l).params = s.params := rfl
@[simp] theorem State.withSched_slots (l : List (List EnvStep)) (s : State) : (s.withSched l).slots = s.slots := rfl
@[simp] theorem State.withSched_uart (l : List (List EnvStep)) (s : State) : (s.withSched l).uart = s.uart := rfl
@[simp] theorem State.withSched_run (l : List (List EnvStep)) (s : State) : (s.withSched l).run = s.run := rfl
@[simp] theorem State.withSched_fault (l : List (List EnvStep)) (s : State) : (s.withSched l).fault = s.fault := rfl
@[simp] theorem State.withSched_seq (l : List (List EnvStep)) (s : State) : (s.withSched l).seq = s.seq := rfl
@[simp] theorem State.withSched_dly (l : List (List EnvStep)) (s : State) : (s.withSched l).dly = s.dly := rfl
@[simp] theorem State.withSched_target (l : List (List EnvStep)) (s : State) : (s.withSched l).target = s.target := rfl
@[simp] theorem State.withSched_lineTx (l : List (List EnvStep)) (s : State) : (s.withSched l).lineTx = s.lineTx := rfl
@[simp] theorem State.withSched_trace (l : List (List EnvStep)) (s : State) : (s.withSched l).trace = s.trace := rfl
@[simp] theorem State.withSched_cmdPort (l : List (List EnvStep)) (s : State) : (s.withSched l).cmdPort = s.cmdPort := rfl
@[simp] theorem State.withSched_responses (l : List (List EnvStep)) (s : State) : (s.withSched l).responses = s.responses := rfl
@[simp] theorem State.withSched_badCommand (l : List (List EnvStep)) (s : State) : (s.withSched l).badCommand = s.badCommand := rfl
@[simp] theorem State.withSched_sched (l : List (List EnvStep)) (s : State) : (s.withSched l).sched = l := rfl
@[simp] theorem State.withSched_draws (l : List (List EnvStep)) (s : State) : (s.withSched l).draws = s.draws := rfl

@[simp] theorem State.logEvent_params (e : Event) (s : State) : (s.logEvent e).params = s.params := rfl
@[simp] theorem State.logEvent_slots (e : Event) (s : State) : (s.logEvent e).slots = s.slots := rfl
@[simp] theorem State.logEvent_uart (e : Event) (s : State) : (s.logEvent e).uart = s.uart := rfl
@[simp] theorem State.logEvent_run (e : Event) (s : State) : (s.logEvent e).run = s.run := rfl
@[simp] theorem State.logEvent_fault (e : Event) (s : State) : (s.logEvent e).fault = s.fault := rfl
@[simp] theorem State.logEvent_seq (e : Event) (s : State) : (s.logEvent e).seq = s.seq := rfl
@[simp] theorem State.logEvent_dly (e : Event) (s : State) : (s.logEvent e).dly = s.dly := rfl
@[simp] theorem State.logEvent_target (e : Event) (s : State) : (s.logEvent e).target = s.target := rfl
@[simp] theorem State.logEvent_lineTx (e : Event) (s : State) : (s.logEvent e).lineTx = s.lineTx := rfl
@[simp] theorem State.logEvent_trace (e : Event) (s : State) : (s.logEvent e).trace = s.trace ++ [e] := rfl
@[simp] theorem State.logEvent_cmdPort (e : Event) (s : State) : (s.logEvent e).cmdPort = s.cmdPort := rfl
@[simp] theorem State.logEvent_responses (e : Event) (s : State) : (s.logEvent e).responses = s.responses := rfl
@[simp] theorem State.logEvent_badCommand (e : Event) (s : State) : (s.logEvent e).badCommand = s.badCommand := rfl
@[simp] theorem State.logEvent_sched (e : Event) (s : State) : (s.logEvent e).sched = s.sched := rfl
@[simp] theorem State.logEvent_draws (e : Event) (s : State) : (s.logEvent e).draws = s.draws := rfl

@[simp] theorem State.respond_params (r : Response) (s : State) : (s.respond r).params = s.params := rfl
@[simp] theorem State.respond_slots (r : Response) (s : State) : (s.respond r).slots = s.slots := rfl
@[simp] theorem State.respond_uart (r : Response) (s : State) : (s.respond r).uart = s.uart := rfl
@[simp] theorem State.respond_run (r : Response) (s : State) : (s.respond r).run = s.run := rfl
@[simp] theorem State.respond_fault (r : Response) (s : State) : (s.respond r).fault = s.fault := rfl
@[simp] theorem State.respond_seq (r : Response) (s : State) : (s.respond r).seq = s.seq := rfl
@[simp] theorem State.respond_dly (r : Response) (s : State) : (s.respond r).dly = s.dly := rfl
@[simp] theorem State.respond_target (r : Response) (s : State) : (s.respond r).target = s.target := rfl
@[simp] theorem State.respond_lineTx (r : Response) (s : State) : (s.respond r).lineTx = s.lineTx := rfl
@[simp] theorem State.respond_trace (r : Response) (s : State) : (s.respond r).trace = s.trace := rfl
@[simp] theorem State.respond_cmdPort (r : Response) (s : State) : (s.respond r).cmdPort = s.cmdPort := rfl
@[simp] theorem State.respond_responses (r : Response) (s : State) : (s.respond r).responses = s.responses ++ [r] := rfl
@[simp] theorem State.respond_badCommand (r : Response) (s : State) : (s.respond r).badCommand = s.badCommand := rfl
@[simp] theorem State.respond_sched (r : Response) (s : State) : (s.respond r).sched = s.sched := rfl
@[simp] theorem State.respond_draws (r : Response) (s : State) : (s.respond r).draws = s.draws := rfl

@[simp] theorem State.noteBadCommand_params (w : Word) (s : State) : (s.noteBadCommand w).params = s.params := rfl
@[simp] theorem State.noteBadCommand_slots (w : Word) (s : State) : (s.noteBadCommand w).slots = s.slots := rfl
@[simp] theorem State.noteBadCommand_uart (w : Word) (s : State) : (s.noteBadCommand w).uart = s.uart := rfl
@[simp] theorem State.noteBadCommand_run (w : Word) (s : State) : (s.noteBadCommand w).run = s.run := rfl
@[simp] theorem State.noteBadCommand_fault (w : Word) (s : State) : (s.noteBadCommand w).fault = s.fault := rfl
@[simp] theorem State.noteBadCommand_seq (w : Word) (s : State) : (s.noteBadCommand w).seq = s.seq := rfl
@[simp] theorem State.noteBadCommand_dly (w : Word) (s : State) : (s.noteBadCommand w).dly = s.dly := rfl
@[simp] theorem State.noteBadCommand_target (w : Word) (s : State) : (s.noteBadCommand w).target = s.target := rfl
@[simp] theorem State.noteBadCommand_lineTx (w : Word) (s : State) : (s.noteBadCommand w).lineTx = s.lineTx := rfl
@[simp] theorem State.noteBadCommand_trace (w : Word) (s : State) : (s.noteBadCommand w).trace = s.trace := rfl
@[simp] theorem State.noteBadCommand_cmdPort (w : Word) (s : State) : (s.noteBadCommand w).cmdPort = s.cmdPort := rfl
@[simp] theorem State.noteBadCommand_responses (w : Word) (s : State) : (s.noteBadCommand w).responses = s.responses := rfl
@[simp] theorem State.noteBadCommand_badCommand (w : Word) (s : State) : (s.noteBadCommand w).badCommand = some w := rfl
@[simp] theorem State.noteBadCommand_sched (w : Word) (s : State) : (s.noteBadCommand w).sched = s.sched := rfl
@[simp] theorem State.noteBadCommand_draws (w : Word) (s : State) : (s.noteBadCommand w).draws = s.draws := rfl

@[simp] theorem State.drawn_params (s : State) : (s.drawn).params = s.params := rfl
@[simp] theorem State.drawn_slots (s : State) : (s.drawn).slots = s.slots := rfl
@[simp] theorem State.drawn_uart (s : State) : (s.drawn).uart = s.uart := rfl
@[simp] theorem State.drawn_run (s : State) : (s.drawn).run = s.run := rfl
@[simp] theorem State.drawn_fault (s : State) : (s.drawn).fault = s.fault := rfl
@[simp] theorem State.drawn_seq (s : State) : (s.drawn).seq = s.seq := rfl
@[simp] theorem State.drawn_dly (s : State) : (s.drawn).dly = s.dly := rfl
@[simp] theorem State.drawn_target (s : State) : (s.drawn).target = s.target := rfl
@[simp] theorem State.drawn_lineTx (s : State) : (s.drawn).lineTx = s.lineTx := rfl
@[simp] theorem State.drawn_trace (s : State) : (s.drawn).trace = s.trace := rfl
@[simp] theorem State.drawn_cmdPort (s : State) : (s.drawn).cmdPort = s.cmdPort := rfl
@[simp] theorem State.drawn_responses (s : State) : (s.drawn).responses = s.responses := rfl
@[simp] theorem State.drawn_badCommand (s : State) : (s.drawn).badCommand = s.badCommand := rfl
@[simp] theorem State.drawn_sched (s : State) : (s.drawn).sched = s.sched := rfl
@[simp] theorem State.drawn_draws (s : State) : (s.drawn).draws = s.draws + 1 := rfl

@[simp] theorem State.raise_params (f : FaultCode) (s : State) : (s.raise f).params = s.params := rfl
@[simp] theorem State.raise_slots (f : FaultCode) (s : State) : (s.raise f).slots = s.slots := rfl
@[simp] theorem State.raise_uart (f : FaultCode) (s : State) : (s.raise f).uart = s.uart := rfl
@[simp] theorem State.raise_run (f : FaultCode) (s : State) : (s.raise f).run = false := rfl
@[simp] theorem State.raise_fault (f : FaultCode) (s : State) : (s.raise f).fault = f.code := rfl
@[simp] theorem State.raise_seq (f : FaultCode) (s : State) : (s.raise f).seq = .idle := rfl
@[simp] theorem State.raise_dly (f : FaultCode) (s : State) : (s.raise f).dly = s.dly := rfl
@[simp] theorem State.raise_target (f : FaultCode) (s : State) : (s.raise f).target = s.target := rfl
@[simp] theorem State.raise_lineTx (f : FaultCode) (s : State) : (s.raise f).lineTx = s.lineTx := rfl
@[simp] theorem State.raise_trace (f : FaultCode) (s : State) : (s.raise f).trace = s.trace := rfl
@[simp] theorem State.raise_cmdPort (f : FaultCode) (s : State) : (s.raise f).cmdPort = s.cmdPort := rfl
@[simp] theorem State.raise_responses (f : FaultCode) (s : State) : (s.raise f).responses = s.responses ++ [.fault f.code] := rfl
@[simp] theorem State.raise_badCommand (f : FaultCode) (s : State) : (s.raise f).badCommand = s.badCommand := rfl
@[simp] theorem State.raise_sched (f : FaultCode) (s : State) : (s.raise f).sched = s.sched := rfl
@[simp] theorem State.raise_draws (f : FaultCode) (s : State) : (s.raise f).draws = s.draws := rfl

@[simp] theorem State.setContext_params (slot : BitVec 8) (c : GpioContext) (s : State) : (s.setContext slot c).params = s.params := rfl
@[simp] theorem State.setContext_slots (slot : BitVec 8) (c : GpioContext) (s : State) : (s.setContext slot c).slots = s.slots.set slot.toNat c := rfl
@[simp] theorem State.setContext_uart (slot : BitVec 8) (c : GpioContext) (s : State) : (s.setContext slot c).uart = s.uart := rfl
@[simp] theorem State.setContext_run (slot : BitVec 8) (c : GpioContext) (s : State) : (s.setContext slot c).run = s.run := rfl
@[simp] theorem State.setContext_fault (slot : BitVec 8) (c : GpioContext) (s : State) : (s.setContext slot c).fault = s.fault := rfl
@[simp] theorem State.setContext_seq (slot : BitVec 8) (c : GpioContext) (s : State) : (s.setContext slot c).seq = s.seq := rfl
@[simp] theorem State.setContext_dly (slot : BitVec 8) (c : GpioContext) (s : State) : (s.setContext slot c).dly = s.dly := rfl
@[simp] theorem State.setContext_target (slot : BitVec 8) (c : GpioContext) (s : State) : (s.setContext slot c).target = s.target := rfl
@[simp] theorem State.setContext_lineTx (slot : BitVec 8) (c : GpioContext) (s : State) : (s.setContext slot c).lineTx = s.lineTx := rfl
@[simp] theorem State.setContext_trace (slot : BitVec 8) (c : GpioContext) (s : State) : (s.setContext slot c).trace = s.trace := rfl
@[simp] theorem State.setContext_cmdPort (slot : BitVec 8) (c : GpioContext) (s : State) : (s.setContext slot c).cmdPort = s.cmdPort := rfl
@[simp] theorem State.setContext_responses (slot : BitVec 8) (c : GpioContext) (s : State) : (s.setContext slot c).responses = s.responses := rfl
@[simp] theorem State.setContext_badCommand (slot : BitVec 8) (c : GpioContext) (s : State) : (s.setContext slot c).badCommand = s.badCommand := rfl
@[simp] theorem State.setContext_sched (slot : BitVec 8) (c : GpioContext) (s : State) : (s.setContext slot c).sched = s.sched := rfl
@[simp] theorem State.setContext_draws (slot : BitVec 8) (c : GpioContext) (s : State) : (s.setContext slot c).draws = s.draws := rfl

@[simp] theorem State.resetEvent_params (l : Target) (s : State) : (s.resetEvent l).params = s.params := rfl
@[simp] theorem State.resetEvent_slots (l : Target) (s : State) : (s.resetEvent l).slots = List.replicate s.params.nslot .absent := rfl
@[simp] theorem State.resetEvent_uart (l : Target) (s : State) : (s.resetEvent l).uart = .absent := rfl
@[simp] theorem State.resetEvent_run (l : Target) (s : State) : (s.resetEvent l).run = true := rfl
@[simp] theorem State.resetEvent_fault (l : Target) (s : State) : (s.resetEvent l).fault = 0 := rfl
@[simp] theorem State.resetEvent_seq (l : Target) (s : State) : (s.resetEvent l).seq = .idle := rfl
@[simp] theorem State.resetEvent_dly (l : Target) (s : State) : (s.resetEvent l).dly = 0 := rfl
@[simp] theorem State.resetEvent_target (l : Target) (s : State) : (s.resetEvent l).target = l.cut s.params.fifoDepth := rfl
@[simp] theorem State.resetEvent_lineTx (l : Target) (s : State) : (s.resetEvent l).lineTx = [] := rfl
@[simp] theorem State.resetEvent_trace (l : Target) (s : State) : (s.resetEvent l).trace = [] := rfl
@[simp] theorem State.resetEvent_cmdPort (l : Target) (s : State) : (s.resetEvent l).cmdPort = s.cmdPort := rfl
@[simp] theorem State.resetEvent_responses (l : Target) (s : State) : (s.resetEvent l).responses = s.responses := rfl
@[simp] theorem State.resetEvent_badCommand (l : Target) (s : State) : (s.resetEvent l).badCommand = none := rfl
@[simp] theorem State.resetEvent_sched (l : Target) (s : State) : (s.resetEvent l).sched = s.sched := rfl
@[simp] theorem State.resetEvent_draws (l : Target) (s : State) : (s.resetEvent l).draws = s.draws := rfl

end Sys2Proof.Machine
end

