-- ==== Sys2Proof/Laws/Operands.lean ====
section
/-! SUPPORT. Laws/Operands.lean: what the address functions, the address map and the words that are read come to. -/

namespace Sys2Proof.Machine

/-! ## Words that were read -/

theorem ReadWord.low_eq (r : ReadWord) : r.low = lowByte r.toWord := by
  cases r with
  | plain w => rfl
  | data high b =>
    simp only [ReadWord.low, ReadWord.toWord, lowByte]
    ext i hi
    have h : (high ++ b).getLsbD i = _ := BitVec.getLsbD_append
    simp [h, hi]
  | status other rx tx => rfl

theorem ReadWord.bit_eq (k : PollBit) (r : ReadWord) : r.bit k = r.toWord.getLsbD k.index := by
  cases r with
  | plain w => rfl
  | data high b => rfl
  | status other rx tx => cases k <;> cases rx <;> cases tx <;> simp [ReadWord.bit, ReadWord.toWord, PollBit.index, lsrOpenBits]

/-! ## The address map -/

theorem regAt_eq_some {p : Params} {a : Word} {r : Reg} (h : regAt p a = some r) : regAddr p r = a := by
  have := List.find?_some h
  simpa using this

theorem mem_allRegs (r : Reg) : r ∈ allRegs := by
  cases r with
  | fsel n => fin_cases n <;> simp [allRegs]
  | set n => fin_cases n <;> simp [allRegs]
  | clr n => fin_cases n <;> simp [allRegs]
  | pudclk n => fin_cases n <;> simp [allRegs]
  | _ => simp [allRegs]

theorem regAt_eq_none {p : Params} {a : Word} : regAt p a = none ↔ ∀ r, regAddr p r ≠ a := by
  simp [regAt, List.find?_eq_none, mem_allRegs]

theorem regOffset_mem_fixed (p : Params) (r : Reg) (h : r ≠ .muIir) : regOffset p r ∈ Params.fixedOffsets := by
  cases r with
  | fsel n => fin_cases n <;> simp [Params.fixedOffsets, regOffset]
  | set n => fin_cases n <;> simp [Params.fixedOffsets, regOffset]
  | clr n => fin_cases n <;> simp [Params.fixedOffsets, regOffset]
  | pudclk n => fin_cases n <;> simp [Params.fixedOffsets, regOffset]
  | muIir => exact absurd rfl h
  | _ => simp [Params.fixedOffsets, regOffset]

theorem regAt_regAddr (p : Params) (r : Reg) (h : r ≠ .muIir) : regAt p (regAddr p r) = some r := by
  cases r with
  | fsel n => fin_cases n <;> simp [regAt, allRegs, regAddr, regOffset]
  | set n => fin_cases n <;> simp [regAt, allRegs, regAddr, regOffset]
  | clr n => fin_cases n <;> simp [regAt, allRegs, regAddr, regOffset]
  | pudclk n => fin_cases n <;> simp [regAt, allRegs, regAddr, regOffset]
  | muIir => exact absurd rfl h
  | _ => simp [regAt, allRegs, regAddr, regOffset]

theorem iir_ne_regOffset {p : Params} (hp : p.iirWf = true) (r : Reg) (h : r ≠ .muIir) : regOffset p r ≠ p.iirOffset := by
  intro he
  have hm := regOffset_mem_fixed p r h
  rw [he] at hm
  simp [Params.iirWf, hm] at hp

theorem regAt_iir {p : Params} (hp : p.iirWf = true) : regAt p (regAddr p .muIir) = some .muIir := by
  have ne := fun r h => iir_ne_regOffset hp r h
  have key : ∀ r, r ≠ .muIir → (regAddr p r == regAddr p .muIir) = false := by
    intro r h
    simpa [regAddr, regOffset, beq_eq_false_iff_ne] using ne r h
  simp [regAt, allRegs, key]

theorem regAt_regAddr_of_wf {p : Params} (hp : p.wf = true) (r : Reg) : regAt p (regAddr p r) = some r := by
  by_cases h : r = .muIir
  · subst h
    exact regAt_iir (by simp [Params.wf] at hp; exact hp.1.1.1.2)
  · exact regAt_regAddr p r h

theorem regAddr_injective {p : Params} (hp : p.wf = true) {r r' : Reg} (h : regAddr p r = regAddr p r') : r = r' := by
  have := regAt_regAddr_of_wf hp r
  rw [h, regAt_regAddr_of_wf hp r'] at this
  exact (Option.some.inj this).symm

/-! ## Pins -/

theorem fselAddr_eq (p : Params) (pin : BitVec 6) (h : pin.toNat / 10 < 6) :
    fselAddr p pin = regAddr p (.fsel ⟨pin.toNat / 10, h⟩) := by
  simp [fselAddr, regAddr, regOffset, BitVec.add_assoc]

theorem pairIndex_lt (pin : BitVec 6) : pin.toNat / 32 < 2 := by have := pin.isLt; omega

theorem setAddr_eq (p : Params) (pin : BitVec 6) : setAddr p pin = regAddr p (.set ⟨pin.toNat / 32, pairIndex_lt pin⟩) := by
  simp [setAddr, regAddr, regOffset, BitVec.add_assoc]

theorem clrAddr_eq (p : Params) (pin : BitVec 6) : clrAddr p pin = regAddr p (.clr ⟨pin.toNat / 32, pairIndex_lt pin⟩) := by
  simp [clrAddr, regAddr, regOffset, BitVec.add_assoc]

theorem pudclkAddr_eq (p : Params) (pin : BitVec 6) :
    pudclkAddr p pin = regAddr p (.pudclk ⟨pin.toNat / 32, pairIndex_lt pin⟩) := by
  simp [pudclkAddr, regAddr, regOffset, BitVec.add_assoc]

theorem pudAddr_eq (p : Params) : pudAddr p = regAddr p .pud := rfl

/-- Bit `q` of the pin mask of `PIN_BIT(p)` written to `p`'s register of a pair: exactly pin `p`. -/
theorem pinMask_pinBit (pin : BitVec 6) (q : Nat) (hq : q < Config.pinCount) :
    (pinMask ⟨pin.toNat / 32, pairIndex_lt pin⟩ (pinBit pin)).getLsbD q = decide (q = pin.toNat) := by
  have hp := pin.isLt
  simp only [Config.pinCount] at hq
  simp only [pinMask, pinBit, BitVec.getLsbD_shiftLeft, BitVec.getLsbD_setWidth, BitVec.getLsbD_one, Config.pinCount]
  by_cases hqp : q = pin.toNat
  · subst hqp
    simp
    omega
  · simp [hqp]
    omega

/-- A word of zeros selects no pin. -/
@[simp] theorem pinMask_zero (n : Fin 2) : pinMask n 0 = 0 := by simp [pinMask]

end Sys2Proof.Machine
end

