-- ==== Sys2Proof/Laws/Line.lean ====
section
/-! SUPPORT. Laws/Line.lean: everything the environment's turn can do. -/

namespace Sys2Proof.Machine

/-- What steps of the serial line can change: the queues, `LINE_TX`, the schedule and the count of draws; and how. -/
structure LineStep (s t : State) : Prop where
  params : t.params = s.params
  slots : t.slots = s.slots
  uart : t.uart = s.uart
  run : t.run = s.run
  fault : t.fault = s.fault
  seq : t.seq = s.seq
  dly : t.dly = s.dly
  trace : t.trace = s.trace
  cmdPort : t.cmdPort = s.cmdPort
  responses : t.responses = s.responses
  badCommand : t.badCommand = s.badCommand
  pins : SamePins s.target t.target
  uartRegs : SameUartRegs s.target t.target
  sent : t.lineTx ++ t.target.txf = s.lineTx ++ s.target.txf
  shrink : t.target.txf.length ≤ s.target.txf.length
  rxfBound : s.target.rxf.length ≤ s.params.fifoDepth → 1 ≤ s.params.fifoDepth → t.target.rxf.length ≤ t.params.fifoDepth
  rxfHead : 2 ≤ s.params.fifoDepth → ∀ b, s.target.rxf.head? = some b → t.target.rxf.head? = some b
  lineOnly : s.lineOnly → t.lineOnly

theorem SamePins.refl (t : Target) : SamePins t t := ⟨rfl, rfl, rfl, rfl, rfl⟩

theorem SameUartRegs.refl (t : Target) : SameUartRegs t t := ⟨rfl, rfl, rfl, rfl⟩

theorem LineStep.refl (s : State) : LineStep s s :=
  ⟨rfl, rfl, rfl, rfl, rfl, rfl, rfl, rfl, rfl, rfl, rfl, .refl _, .refl _, rfl, Nat.le_refl _, fun h _ => h,
    fun _ _ h => h, id⟩

theorem SamePins.trans {a b c : Target} (h : SamePins a b) (k : SamePins b c) : SamePins a c :=
  ⟨k.fsel.trans h.fsel, k.out.trans h.out, k.pud.trans h.pud, k.pudclk.trans h.pudclk, k.pull.trans h.pull⟩

theorem SameUartRegs.trans {a b c : Target} (h : SameUartRegs a b) (k : SameUartRegs b c) : SameUartRegs a c :=
  ⟨k.auxenb.trans h.auxenb, k.lcr.trans h.lcr, k.cntl.trans h.cntl, k.baud.trans h.baud⟩

theorem LineStep.trans {a b c : State} (h : LineStep a b) (k : LineStep b c) : LineStep a c where
  params := k.params.trans h.params
  slots := k.slots.trans h.slots
  uart := k.uart.trans h.uart
  run := k.run.trans h.run
  fault := k.fault.trans h.fault
  seq := k.seq.trans h.seq
  dly := k.dly.trans h.dly
  trace := k.trace.trans h.trace
  cmdPort := k.cmdPort.trans h.cmdPort
  responses := k.responses.trans h.responses
  badCommand := k.badCommand.trans h.badCommand
  pins := h.pins.trans k.pins
  uartRegs := h.uartRegs.trans k.uartRegs
  sent := k.sent.trans h.sent
  shrink := k.shrink.trans h.shrink
  rxfBound h1 h2 := k.rxfBound (h.rxfBound h1 h2) (h.params ▸ h2)
  rxfHead h1 b hb := k.rxfHead (h.params ▸ h1) b (h.rxfHead h1 b hb)
  lineOnly := k.lineOnly ∘ h.lineOnly

theorem txDrain_line (s : State) : LineStep s s.txDrain := by
  unfold State.txDrain
  split
  · split
    · rename_i b rest heq
      constructor <;> simp_all [State.lineOnly]
      · exact ⟨rfl, rfl, rfl, rfl, rfl⟩
      · exact ⟨rfl, rfl, rfl, rfl⟩
    · exact LineStep.refl s
  · exact LineStep.refl s

theorem rxArrive_line (b : Byte) (s : State) : LineStep s (s.rxArrive b) := by
  unfold State.rxArrive
  split
  · split
    · constructor <;> simp_all [State.lineOnly]
      · exact ⟨rfl, rfl, rfl, rfl, rfl⟩
      · exact ⟨rfl, rfl, rfl, rfl⟩
    · rename_i hfull
      constructor <;> simp_all [State.lineOnly]
      · exact ⟨rfl, rfl, rfl, rfl, rfl⟩
      · exact ⟨rfl, rfl, rfl, rfl⟩
      · intro h1 h2
        split
        · exact h1
        · simp only [List.length_append, List.length_dropLast, List.length_singleton]
          omega
      · intro h2 x hx
        split
        · exact hx
        · match hr : s.target.rxf, hfull, hx with
          | [], _, hx => simp at hx
          | [y], hfull, _ => simp at hfull; omega
          | y :: z :: r, _, hx => simpa using hx
  · exact LineStep.refl s

theorem envStep_line (s : State) (e : EnvStep) (h : e.isReset = false) : LineStep s (envStep s e) := by
  cases e with
  | txDrain => exact txDrain_line s
  | rxArrive b => exact rxArrive_line b s
  | reset l => simp [EnvStep.isReset] at h

theorem foldl_line (es : List EnvStep) (s : State) (h : ∀ e ∈ es, e.isReset = false) : LineStep s (es.foldl envStep s) := by
  induction es generalizing s with
  | nil => exact LineStep.refl s
  | cons e es ih =>
    exact (envStep_line s e (h e (by simp))).trans (ih _ (fun x hx => h x (by simp [hx])))

/-- With no reset scheduled, the environment's turn is steps of the line and nothing else. -/
theorem envTurn_line (s : State) (h : s.lineOnly) : LineStep s (envTurn s) := by
  unfold envTurn
  split
  · exact LineStep.refl s
  · rename_i es later heq
    have h0 : LineStep s (s.withSched later) := by
      constructor <;> simp_all [State.lineOnly]
      · exact ⟨rfl, rfl, rfl, rfl, rfl⟩
      · exact ⟨rfl, rfl, rfl, rfl⟩
    exact h0.trans (foldl_line es _ (h es (by simp [heq])))

/-! ## What the line does to the queues, exactly -/

theorem Hears.refl (depth : Nat) (q : List Byte) : Hears depth [] q q :=
  ⟨fun _ => rfl, fun _ => (List.append_nil q).symm, List.dropLast_prefix q, Nat.le_refl _, List.sublist_append_left q []⟩

theorem Hears.trans {depth : Nat} {bs cs q r u : List Byte} (h : Hears depth bs q r) (k : Hears depth cs r u) :
    Hears depth (bs ++ cs) q u where
  silent e := by
    obtain ⟨h1, h2⟩ := List.append_eq_nil_iff.mp e
    rw [k.silent h2, h.silent h1]
  room l := by
    rw [List.length_append] at l
    have hr := h.room (by omega)
    rw [k.room (by rw [hr, List.length_append]; omega), hr, List.append_assoc]
  kept := by
    have h1 : q.dropLast <+: r.dropLast :=
      List.prefix_of_prefix_length_le h.kept (List.dropLast_prefix r) (by have := h.longer; simp; omega)
    exact h1.trans k.kept
  longer := h.longer.trans k.longer
  sub := by
    rw [← List.append_assoc]
    exact k.sub.trans (h.sub.append_right cs)

/-- A byte that was read before the line went on: it has left the head of the queue, where no overrun touched it. -/
theorem Hears.tail {depth : Nat} {bs q r : List Byte} {b : Byte} (h : Hears depth bs (b :: q) (b :: r)) :
    Hears (depth - 1) bs q r where
  silent e := by simpa using h.silent e
  room l := by
    by_cases e : bs = []
    · simpa [e] using h.silent e
    · have : 0 < bs.length := List.length_pos_iff.mpr e
      simpa using h.room (by simp; omega)
  kept := by
    cases q with
    | nil => exact List.nil_prefix
    | cons c q =>
      have := h.kept
      rw [List.dropLast_cons_cons] at this
      exact (List.cons_prefix_cons.mp this).2
  longer := by simpa using h.longer
  sub := by simpa using h.sub

theorem Drained.refl (s : State) : Drained 0 s s := ⟨by simp, by simp⟩

theorem Drained.trans {a b c : State} {d e : Nat} (h : Drained d a b) (k : Drained e b c) : Drained (d + e) a c where
  lineTx := by rw [k.lineTx, h.lineTx, h.txf, List.append_assoc, ← List.take_add]
  txf := by rw [k.txf, h.txf, List.drop_drop]

/-! What the line would do with some steps depends only on the two enables, which it leaves alone. -/

theorem hears_congr {s t : State} (h : SameUartRegs s.target t.target) (es : List EnvStep) : t.hears es = s.hears es := by
  unfold State.hears Target.enabled Target.rxEn
  rw [h.auxenb, h.cntl]

theorem drains_congr {s t : State} (h : SameUartRegs s.target t.target) (es : List EnvStep) : t.drains es = s.drains es := by
  unfold State.drains Target.enabled Target.txEn
  rw [h.auxenb, h.cntl]

theorem hears_append (s : State) (es fs : List EnvStep) : s.hears (es ++ fs) = s.hears es ++ s.hears fs := by
  unfold State.hears
  split <;> simp

theorem drains_append (s : State) (es fs : List EnvStep) : s.drains (es ++ fs) = s.drains es + s.drains fs := by
  unfold State.drains
  split <;> simp

theorem hears_nil (s : State) : s.hears [] = [] := by simp [State.hears]

theorem drains_nil (s : State) : s.drains [] = 0 := by simp [State.drains]

theorem txDrain_queues (s : State) : Drained (s.drains [.txDrain]) s s.txDrain ∧ s.txDrain.target.rxf = s.target.rxf := by
  unfold State.txDrain State.drains
  split
  · split
    · rename_i b rest heq
      exact ⟨⟨by simp [heq, EnvStep.isDrain], by simp [heq, EnvStep.isDrain]⟩, rfl⟩
    · rename_i heq
      exact ⟨⟨by simp [heq], by simp [heq]⟩, rfl⟩
  · exact ⟨.refl s, rfl⟩

theorem rxArrive_queues (b : Byte) (s : State) :
    Hears s.params.fifoDepth (s.hears [.rxArrive b]) s.target.rxf (s.rxArrive b).target.rxf ∧
      (s.rxArrive b).target.txf = s.target.txf ∧ (s.rxArrive b).lineTx = s.lineTx := by
  unfold State.rxArrive State.hears
  split
  · split
    · refine ⟨?_, rfl, rfl⟩
      constructor <;> simp [EnvStep.arrival]
      exact (List.dropLast_prefix _).trans (List.prefix_append _ _)
    · refine ⟨?_, rfl, rfl⟩
      simp only [State.withTarget_target]
      split
      · constructor <;> simp [EnvStep.arrival, List.dropLast_prefix]
        omega
      · constructor <;> simp [EnvStep.arrival]
        · omega
        · omega
        · exact List.dropLast_sublist _
  · exact ⟨.refl _ _, rfl, rfl⟩

theorem envStep_queues (s : State) (e : EnvStep) (h : e.isReset = false) :
    Drained (s.drains [e]) s (envStep s e) ∧ Hears s.params.fifoDepth (s.hears [e]) s.target.rxf (envStep s e).target.rxf := by
  cases e with
  | txDrain =>
    have := txDrain_queues s
    refine ⟨this.1, ?_⟩
    have hn : s.hears [.txDrain] = [] := by simp [State.hears, EnvStep.arrival]
    show Hears _ _ _ s.txDrain.target.rxf
    rw [hn, this.2]
    exact .refl _ _
  | rxArrive b =>
    obtain ⟨h1, h2, h3⟩ := rxArrive_queues b s
    have hn : s.drains [.rxArrive b] = 0 := by simp [State.drains, EnvStep.isDrain]
    refine ⟨?_, h1⟩
    rw [hn]
    exact ⟨by simp [envStep, h3], by simp [envStep, h2]⟩
  | reset l => simp [EnvStep.isReset] at h

theorem foldl_queues (es : List EnvStep) (s : State) (h : ∀ e ∈ es, e.isReset = false) :
    Drained (s.drains es) s (es.foldl envStep s) ∧
      Hears s.params.fifoDepth (s.hears es) s.target.rxf (es.foldl envStep s).target.rxf := by
  induction es generalizing s with
  | nil =>
    rw [drains_nil, hears_nil]
    exact ⟨.refl s, .refl _ _⟩
  | cons e es ih =>
    obtain ⟨h1, h2⟩ := envStep_queues s e (h e (by simp))
    have hl := envStep_line s e (h e (by simp))
    obtain ⟨k1, k2⟩ := ih (envStep s e) (fun x hx => h x (by simp [hx]))
    rw [drains_congr hl.uartRegs] at k1
    rw [hears_congr hl.uartRegs, hl.params] at k2
    rw [show e :: es = [e] ++ es from rfl, drains_append, hears_append]
    exact ⟨h1.trans k1, h2.trans k2⟩

theorem foldl_sched (es : List EnvStep) (s : State) (h : ∀ e ∈ es, e.isReset = false) : (es.foldl envStep s).sched = s.sched := by
  induction es generalizing s with
  | nil => rfl
  | cons e es ih =>
    rw [List.foldl_cons, ih _ (fun x hx => h x (by simp [hx]))]
    cases e with
    | txDrain => simp only [envStep, State.txDrain]; split <;> [split; skip] <;> rfl
    | rxArrive b => simp only [envStep, State.rxArrive]; split <;> [split; skip] <;> rfl
    | reset l => simp [EnvStep.isReset] at h

/-! Turns of the environment, counted. -/

theorem heard_congr {s t : State} (h : SameUartRegs s.target t.target) (n m : Nat) (hs : t.sched = s.sched.drop n) :
    s.heard (n + m) = s.heard n ++ t.heard m := by
  simp only [State.heard, hears_congr h, hs]
  rw [← hears_append, List.take_add, List.flatten_append]

theorem drained_congr {s t : State} (h : SameUartRegs s.target t.target) (n m : Nat) (hs : t.sched = s.sched.drop n) :
    s.drained (n + m) = s.drained n + t.drained m := by
  simp only [State.drained, drains_congr h, hs]
  rw [← drains_append, List.take_add, List.flatten_append]

theorem OnlyLine.refl (s : State) : OnlyLine 0 s s :=
  ⟨rfl, by rw [State.drained, List.take_zero, List.flatten_nil, drains_nil]; exact .refl s,
    by rw [State.heard, List.take_zero, List.flatten_nil, hears_nil]; exact .refl _ _⟩

theorem OnlyLine.trans {a b c : State} {n m : Nat} (hp : b.params = a.params) (hu : SameUartRegs a.target b.target)
    (h : OnlyLine n a b) (k : OnlyLine m b c) : OnlyLine (n + m) a c where
  sched := by rw [k.sched, h.sched, List.drop_drop]
  tx := by rw [drained_congr hu n m h.sched]; exact h.tx.trans k.tx
  rxf := by rw [heard_congr hu n m h.sched]; exact h.rxf.trans (hp ▸ k.rxf)

/-- `TXF` and the line together hold the bytes they held. -/
theorem OnlyLine.sends {s t : State} {n : Nat} (h : OnlyLine n s t) : Sends n [] s t :=
  ⟨h.sched, by rw [h.tx.lineTx, h.tx.txf, List.append_assoc, List.take_append_drop, List.append_nil],
    h.tx.lineTx ▸ List.prefix_rfl, by simp [h.tx.lineTx], h.rxf⟩

theorem Sends.trans {a b c : State} {n m : Nat} {bs cs : List Byte} (hp : b.params = a.params)
    (hu : SameUartRegs a.target b.target) (h : Sends n bs a b) (k : Sends m cs b c) : Sends (n + m) (bs ++ cs) a c where
  sched := by rw [k.sched, h.sched, List.drop_drop]
  sent := by rw [k.sent, h.sent, List.append_assoc]
  least := by
    have hall : a.lineTx ++ a.target.txf.take (a.drained (n + m)) <+: c.lineTx ++ c.target.txf := by
      rw [k.sent, h.sent, List.append_assoc, List.append_assoc]
      exact (List.prefix_append_right_inj _).mpr ((List.take_prefix _ _).trans (List.prefix_append _ _))
    refine List.prefix_of_prefix_length_le hall (List.prefix_append _ _) ?_
    have h1 := h.least.length_le
    have k1 := k.least.length_le
    have e := congrArg List.length h.sent
    have d := drained_congr hu n m h.sched
    simp only [List.length_append, List.length_take] at h1 k1 e ⊢
    omega
  most := by
    have := h.most
    have := k.most
    rw [drained_congr hu n m h.sched]
    omega
  rxf := by rw [heard_congr hu n m h.sched]; exact h.rxf.trans (hp ▸ k.rxf)

/-- One turn. -/
theorem envTurn_onlyLine (s : State) (h : s.lineOnly) : OnlyLine 1 s (envTurn s) := by
  unfold envTurn
  split
  · rename_i heq
    have := OnlyLine.refl s
    exact ⟨by simp [heq], by simpa only [State.drained, heq, List.take_nil] using this.tx,
      by simpa only [State.heard, heq, List.take_nil] using this.rxf⟩
  · rename_i es later heq
    have hes := h es (by simp [heq])
    obtain ⟨h1, h2⟩ := foldl_queues es (s.withSched later) hes
    have hd : s.drained 1 = (s.withSched later).drains es := by simp [State.drained, heq, State.drains]
    have hh : s.heard 1 = (s.withSched later).hears es := by simp [State.heard, heq, State.hears]
    exact ⟨by rw [foldl_sched es _ hes, heq]; rfl, by rw [hd]; exact ⟨h1.lineTx, h1.txf⟩, by rw [hh]; exact h2⟩

/-! ## The line and the sequencer -/

/-- The line does not look at `seq`. -/
theorem envStep_withSeq (s : State) (q : Seq) (e : EnvStep) (h : e.isReset = false) :
    envStep (s.withSeq q) e = (envStep s e).withSeq q := by
  cases e with
  | txDrain =>
    by_cases he : (s.target.enabled && s.target.txEn) = true
    · cases hx : s.target.txf with
      | nil => simp [envStep, State.txDrain, he, hx]
      | cons b rest => simp [envStep, State.txDrain, he, hx]; rfl
    · simp [envStep, State.txDrain, he]
  | rxArrive b =>
    by_cases he : (s.target.enabled && s.target.rxEn) = true
    · by_cases hr : s.target.rxf.length < s.params.fifoDepth <;> simp [envStep, State.rxArrive, he, hr] <;> rfl
    · simp [envStep, State.rxArrive, he]
  | reset l => simp [EnvStep.isReset] at h

theorem foldl_withSeq (es : List EnvStep) (s : State) (q : Seq) (h : ∀ e ∈ es, e.isReset = false) :
    es.foldl envStep (s.withSeq q) = (es.foldl envStep s).withSeq q := by
  induction es generalizing s with
  | nil => rfl
  | cons e es ih =>
    rw [List.foldl_cons, List.foldl_cons, envStep_withSeq s q e (h e (by simp)), ih _ (fun x hx => h x (by simp [hx]))]

/-- With no reset scheduled, the environment's turn is the same whatever the sequencer is at. -/
theorem envTurn_withSeq (s : State) (q : Seq) (h : s.lineOnly) : envTurn (s.withSeq q) = (envTurn s).withSeq q := by
  unfold envTurn
  rw [State.withSeq_sched]
  split
  · rfl
  · rename_i es later heq
    exact foldl_withSeq es (s.withSched later) q (h es (by simp [heq]))

/-- With nothing scheduled, the environment's turn does nothing. -/
theorem envTurn_quiet (s : State) (h : s.sched = []) : envTurn s = s := by simp [envTurn, h]

end Sys2Proof.Machine
end

