-- ==== Sys2Proof/Laws/Sequencer.lean ====
section
/-! SUPPORT. Laws/Sequencer.lean: how a run of micro-operations goes on, one law for each micro-operation, for every behaviour of the
serial line. -/

namespace Sys2Proof.Machine

/-! ## Runs -/

/-- `k` ticks take `s` to `t` and the run goes on from there. -/
def Runs (k : Nat) (s t : State) : Prop := ∀ n, runSeq (k + n) s = runSeq n t

/-- At most `k` ticks take `s` to `t` and the run stops there. -/
def Ends (k : Nat) (s t : State) : Prop := ∀ n, k ≤ n → runSeq n s = .next t

theorem Runs.refl (s : State) : Runs 0 s s := fun n => by rw [Nat.zero_add]

theorem Runs.trans {j k : Nat} {s t u : State} (h : Runs j s t) (h' : Runs k t u) : Runs (j + k) s u := fun n => by
  rw [Nat.add_assoc, h, h']

theorem Runs.ends {j k : Nat} {s t u : State} (h : Runs j s t) (h' : Ends k t u) : Ends (j + k) s u := fun n hn => by
  obtain ⟨m, rfl⟩ := Nat.exists_eq_add_of_le (show j ≤ n by omega)
  rw [h, h' m (by omega)]

theorem runs_of_tick {s t : State} (h : tick s = .next t) (hp : t.parked = false) : Runs 1 s t := fun n => by
  rw [Nat.add_comm, runSeq, h]
  simp [hp]

theorem ends_of_tick {s t : State} (h : tick s = .next t) (hp : t.parked = true) : Ends 1 s t := fun n hn => by
  obtain ⟨m, rfl⟩ := Nat.exists_eq_add_of_le hn
  rw [Nat.add_comm, runSeq, h]
  simp [hp]

/-- A list of micro-operations the run does not stop before: it does not begin with the `Nop` of a failed poll. -/
def goesOn : List MicroOp → Bool
  | .nop :: _ => false
  | _ => true

theorem not_parked {s : State} {i : Instr} {w : ReadWord} {rest : List MicroOp} (hs : s.seq = .busy i w rest)
    (hr : goesOn rest = true) : s.parked = false := by
  unfold State.parked
  rw [hs]
  match rest, hr with
  | [], _ => rfl
  | op :: _, hr => cases op <;> simp_all [goesOn]

theorem busy_not_parked (s : State) (i : Instr) (w : ReadWord) {rest : List MicroOp} (hr : goesOn rest = true) :
    (s.withSeq (.busy i w rest)).parked = false :=
  not_parked (State.withSeq_seq _ _) hr

theorem nop_parked (s : State) (i : Instr) (w : ReadWord) (rest : List MicroOp) :
    (s.withSeq (.busy i w (.nop :: rest))).parked = true := by simp [State.parked]

theorem idle_parked (s : State) : (s.withSeq .idle).parked = true := by simp [State.parked]

theorem tick_busy {s : State} {i : Instr} {w : ReadWord} {op : MicroOp} {rest : List MicroOp} (hl : s.lineOnly)
    (hs : s.seq = .busy i w (op :: rest)) : tick s = perform i w rest op (envTurn s) := by
  have h := (envTurn_line s hl).seq
  simp [tick, sequencerStep, h, hs]

/-- The state that `n` turns of the environment leave: steps of the line, and exactly those scheduled. -/
structure TurnOf (n : Nat) (s e : State) : Prop where
  line : LineStep s e
  only : OnlyLine n s e

theorem envTurn_turnOf (s : State) (hl : s.lineOnly) : TurnOf 1 s (envTurn s) := ⟨envTurn_line s hl, envTurn_onlyLine s hl⟩

/-- Where nothing is scheduled the target is as it was. -/
theorem TurnOf.quiet {n : Nat} {s e : State} (h : TurnOf n s e) (q : s.sched = []) :
    e.target = s.target ∧ e.lineTx = s.lineTx ∧ e.sched = [] := by
  have hd : s.drained n = 0 := by simp [State.drained, State.drains, q]
  have hh : s.heard n = [] := by simp [State.heard, State.hears, q]
  have ht := h.only.tx
  rw [hd] at ht
  refine ⟨?_, by simpa using ht.lineTx, by simp [h.only.sched, q]⟩
  obtain ⟨p1, p2, p3, p4, p5⟩ := h.line.pins
  obtain ⟨u1, u2, u3, u4⟩ := h.line.uartRegs
  have t1 : e.target.txf = s.target.txf := by simpa using ht.txf
  have t2 := h.only.rxf.silent hh
  revert p1 p2 p3 p4 p5 u1 u2 u3 u4 t1 t2
  cases e.target
  cases s.target
  simp_all

/-! ## One law for each micro-operation -/

section
variable {s : State} {i : Instr} {w : ReadWord} {rest : List MicroOp}

theorem memRead_runs {a : Word} {r : Reg} (hl : s.lineOnly) (hs : s.seq = .busy i w (.memRead a :: rest))
    (hr : regAt s.params a = some r) (hg : goesOn rest = true) :
    ∃ e, TurnOf 1 s e ∧ Runs 1 s (((readReg r e).2.logEvent (.rd a (readReg r e).1.toWord)).withSeq (.busy i (readReg r e).1 rest)) := by
  refine ⟨envTurn s, envTurn_turnOf s hl, runs_of_tick ?_ (busy_not_parked _ _ _ hg)⟩
  rw [tick_busy hl hs]
  simp [perform, afterRead, memRead, (envTurn_line s hl).params, hr]

theorem memWrite_runs {a v : Word} {r : Reg} (hl : s.lineOnly) (hs : s.seq = .busy i w (.memWrite a v :: rest))
    (hr : regAt s.params a = some r) (hg : goesOn rest = true) (f : State → State)
    (hf : ∀ e, TurnOf 1 s e → writeReg r v e = .ok (f e)) :
    ∃ e, TurnOf 1 s e ∧ Runs 1 s (((f e).logEvent (.wr a v)).withSeq (.busy i w rest)) := by
  refine ⟨envTurn s, envTurn_turnOf s hl, runs_of_tick ?_ (busy_not_parked _ _ _ hg)⟩
  rw [tick_busy hl hs]
  simp [perform, afterWrite, memWrite, (envTurn_line s hl).params, hr, hf _ (envTurn_turnOf s hl)]

theorem memModify_runs {a c b : Word} {r : Reg} (hl : s.lineOnly) (hs : s.seq = .busy i w (.memModify a c b :: rest))
    (hr : regAt s.params a = some r) (hg : goesOn rest = true) (f : State → State)
    (hf : ∀ e, TurnOf 1 s e → writeReg r (rmwWord w.toWord c b) e = .ok (f e)) :
    ∃ e, TurnOf 1 s e ∧ Runs 1 s (((f e).logEvent (.wr a (rmwWord w.toWord c b))).withSeq (.busy i w rest)) := by
  refine ⟨envTurn s, envTurn_turnOf s hl, runs_of_tick ?_ (busy_not_parked _ _ _ hg)⟩
  rw [tick_busy hl hs]
  simp [perform, afterWrite, memWrite, (envTurn_line s hl).params, hr, hf _ (envTurn_turnOf s hl)]

theorem LineStep.withDly {s e : State} (d : BitVec 8) (h : LineStep (s.withDly d) e) : LineStep s (e.withDly s.dly) := by
  obtain ⟨h1, h2, h3, h4, h5, h6, h7, h8, h9, h10, h11, h12, h13, h14, h15, h16, h17, h18⟩ := h
  exact ⟨h1, h2, h3, h4, h5, h6, rfl, h8, h9, h10, h11, h12, h13, h14, h15, h16, h17, h18⟩

theorem LineStep.withSeq {s e : State} (q : Seq) (h : LineStep (s.withSeq q) e) : LineStep s (e.withSeq s.seq) := by
  obtain ⟨h1, h2, h3, h4, h5, h6, h7, h8, h9, h10, h11, h12, h13, h14, h15, h16, h17, h18⟩ := h
  exact ⟨h1, h2, h3, h4, h5, rfl, h7, h8, h9, h10, h11, h12, h13, h14, h15, h16, h17, h18⟩

theorem TurnOf.trans {a b c : State} {n m : Nat} (h : TurnOf n a b) (k : TurnOf m b c) : TurnOf (n + m) a c :=
  ⟨h.line.trans k.line, h.only.trans h.line.params h.line.uartRegs k.only⟩

/-- A turn, then `dly` and `seq` set, then more turns: turns, but for what is set. -/
theorem TurnOf.then_set {a b c : State} {n m : Nat} {d : BitVec 8} {q : Seq} (h : TurnOf n a b)
    (k : TurnOf m ((b.withDly d).withSeq q) c) : TurnOf (n + m) a ((c.withDly a.dly).withSeq a.seq) := by
  have h1 : TurnOf m b ((c.withSeq b.seq).withDly b.dly) :=
    ⟨LineStep.withDly d (LineStep.withSeq q k.line), k.only.sched, ⟨k.only.tx.lineTx, k.only.tx.txf⟩, k.only.rxf⟩
  have h2 := h.trans h1
  simp only [h.line.seq, h.line.dly] at h2
  exact h2

theorem wait_runs {n : BitVec 8} (d : Nat) (hl : s.lineOnly) (hs : s.seq = .busy i w (.wait n :: rest))
    (hd : s.dly.toNat = d) (hg : goesOn rest = true) :
    ∃ e, TurnOf (max 1 d) s e ∧ Runs (max 1 d) s (((e.withDly 0).logEvent (.dl n)).withSeq (.busy i w rest)) := by
  induction d generalizing s with
  | zero =>
    refine ⟨envTurn s, envTurn_turnOf s hl, runs_of_tick ?_ (busy_not_parked _ _ _ hg)⟩
    rw [tick_busy hl hs]
    simp [perform, waitCycle, (envTurn_line s hl).dly, hd]
  | succ d ih =>
    by_cases hd1 : d = 0
    · subst hd1
      refine ⟨envTurn s, envTurn_turnOf s hl, runs_of_tick ?_ (busy_not_parked _ _ _ hg)⟩
      rw [tick_busy hl hs]
      simp [perform, waitCycle, (envTurn_line s hl).dly, hd]
    · have ht := envTurn_turnOf s hl
      have hstep : tick s = .next (((envTurn s).withDly (s.dly - 1)).withSeq (.busy i w (.wait n :: rest))) := by
        rw [tick_busy hl hs]
        have : ¬ s.dly.toNat ≤ 1 := by omega
        simp [perform, waitCycle, ht.line.dly, this]
      have hrun : Runs 1 s _ := runs_of_tick hstep (busy_not_parked _ _ _ rfl)
      have hdly : (s.dly - 1).toNat = d := by
        have := s.dly.isLt
        simp [BitVec.toNat_sub, hd]
        omega
      obtain ⟨e, he, hr⟩ := ih (s := ((envTurn s).withDly (s.dly - 1)).withSeq (.busy i w (.wait n :: rest)))
        (by simpa [State.lineOnly] using ht.line.lineOnly hl) rfl (by simpa using hdly)
      rw [show max 1 (d + 1) = 1 + max 1 d by omega]
      exact ⟨_, ht.then_set he, hrun.trans hr⟩

theorem delay_runs {n : BitVec 8} (hl : s.lineOnly) (hs : s.seq = .busy i w (.delay n :: rest)) (hg : goesOn rest = true) :
    ∃ e, TurnOf (1 + max 1 n.toNat) s e ∧ Runs (1 + max 1 n.toNat) s (((e.withDly 0).logEvent (.dl n)).withSeq (.busy i w rest)) := by
  have ht := envTurn_turnOf s hl
  have hstep : tick s = .next (((envTurn s).withDly n).withSeq (.busy i w (.wait n :: rest))) := by
    rw [tick_busy hl hs]
    simp [perform]
  have hrun : Runs 1 s _ := runs_of_tick hstep (busy_not_parked _ _ _ rfl)
  obtain ⟨e, he, hr⟩ := wait_runs (s := ((envTurn s).withDly n).withSeq (.busy i w (.wait n :: rest))) n.toNat
    (by simpa [State.lineOnly] using ht.line.lineOnly hl) rfl (by simp) hg
  exact ⟨_, ht.then_set he, hrun.trans hr⟩

/-- A poll that finds its bit set goes on. -/
theorem poll_runs {k : PollBit} (hl : s.lineOnly) (hs : s.seq = .busy i w (.poll k :: rest)) (hg : goesOn rest = true)
    (hk : ∀ e, TurnOf 1 s e → (readReg .muLsr e).1.bit k = true) :
    ∃ e, TurnOf 1 s e ∧ Runs 1 s (((readReg .muLsr e).2.logEvent (.rd (regAddr s.params .muLsr) (readReg .muLsr e).1.toWord)).withSeq
      (.busy i (readReg .muLsr e).1 rest)) := by
  have ht := envTurn_turnOf s hl
  refine ⟨envTurn s, ht, runs_of_tick ?_ (busy_not_parked _ _ _ hg)⟩
  rw [tick_busy hl hs]
  simp [perform, afterPoll, memRead, ht.line.params, regAt_regAddr s.params .muLsr (by simp), hk _ ht]

/-- A poll that finds its bit clear stops the run before its `Nop`. -/
theorem poll_ends {k : PollBit} (hl : s.lineOnly) (hs : s.seq = .busy i w (.poll k :: rest))
    (hk : ∀ e, TurnOf 1 s e → (readReg .muLsr e).1.bit k = false) :
    ∃ e, TurnOf 1 s e ∧ Ends 1 s (((readReg .muLsr e).2.logEvent (.rd (regAddr s.params .muLsr) (readReg .muLsr e).1.toWord)).withSeq
      (.busy i (readReg .muLsr e).1 (.nop :: .poll k :: rest))) := by
  have ht := envTurn_turnOf s hl
  refine ⟨envTurn s, ht, ends_of_tick ?_ (nop_parked _ _ _ _)⟩
  rw [tick_busy hl hs]
  simp [perform, afterPoll, memRead, ht.line.params, regAt_regAddr s.params .muLsr (by simp), hk _ ht]

/-- The last micro-operation: the context update and the response. -/
theorem finish_ends {u : Update} (hl : s.lineOnly) (hs : s.seq = .busy i w (.finish u :: rest)) (f : State → State)
    (hf : ∀ e, TurnOf 1 s e → applyUpdate u e = .ok (f e)) :
    ∃ e, TurnOf 1 s e ∧ Ends 1 s (((f e).respond (u.response w)).withSeq .idle) := by
  have ht := envTurn_turnOf s hl
  refine ⟨envTurn s, ht, ends_of_tick ?_ (idle_parked _)⟩
  rw [tick_busy hl hs]
  simp [perform, afterUpdate, hf _ ht]

end

/-! ## Taking a command -/

theorem issue_fault (i : Instr) (f : FaultCode) (s : State) (hs : s.ready) : issue i (.error f) s = .next (s.raise f) := by
  simp [issue, hs.1, hs.2]

theorem issue_runs (i : Instr) (ops : List MicroOp) (s : State) (hs : s.ready) :
    issue i (.ok ops) s = runSeq (opsCost ops) (s.withSeq (.busy i (.plain 0) ops)) := by
  simp [issue, hs.1, hs.2]

end Sys2Proof.Machine
end

