-- ==== Sys2Proof/Laws/Gpio.lean ====
section
/-! SUPPORT. Laws/Gpio.lean: everything the two internal sequences of the GPIO controller do, for every behaviour of the serial line. -/

namespace Sys2Proof.Machine

/-! ## Settled registers -/

theorem settled_append_wr (a v : Word) (tr : List Event) : settledSince a (tr ++ [.wr a v]) = false := by
  simp [settledSince, settleStep]

theorem settled_append_rd (a b w : Word) (tr : List Event) : settledSince a (tr ++ [.rd b w]) = settledSince a tr := by
  simp [settledSince, settleStep]

theorem settled_append_wr_other {a b : Word} (v : Word) (tr : List Event) (h : b ≠ a) :
    settledSince a (tr ++ [.wr b v]) = settledSince a tr := by
  simp [settledSince, settleStep, h]

theorem settled_append_dl {a : Word} (n : BitVec 8) (tr : List Event) (h : settledSince a tr = true) :
    settledSince a (tr ++ [.dl n]) = true := by
  simp only [settledSince, beq_iff_eq] at h
  simp [settledSince, settleStep, h]

/-- A write and then a settle delay. -/
theorem settled_append_wr_dl (a v : Word) (n : BitVec 8) (tr : List Event) (hn : 150 ≤ n) :
    settledSince a (tr ++ [.wr a v] ++ [.dl n]) = true := by
  simp [settledSince, settleStep, Config.settleCycles]
  exact decide_eq_true hn

theorem restaged_append_clk (pud clk v : Word) (tr : List Event) : restagedSince pud clk (tr ++ [.wr clk v]) = false := by
  simp [restagedSince, restageStep]

theorem restaged_append_dl (pud clk : Word) (n : BitVec 8) (tr : List Event) :
    restagedSince pud clk (tr ++ [.dl n]) = restagedSince pud clk tr := by
  simp [restagedSince, restageStep]

/-! A hold delay counts from the launch where its register has not been written. -/

theorem held_append_wr_other {a b : Word} (v : Word) (tr : List Event) (h : b ≠ a) :
    heldSince a (tr ++ [.wr b v]) = heldSince a tr := by
  simp [heldSince, settleStep, h]

theorem held_append_rd (a b w : Word) (tr : List Event) : heldSince a (tr ++ [.rd b w]) = heldSince a tr := by
  simp [heldSince, settleStep]

theorem settleFold_isSome (a : Word) (tr : List Event) (b : Bool) : ∃ c, tr.foldl (settleStep a) (some b) = some c := by
  induction tr generalizing b with
  | nil => exact ⟨b, rfl⟩
  | cons e tr ih =>
    have : ∃ c, settleStep a (some b) e = some c := by
      cases e <;> simp only [settleStep, Option.map_some, Option.some.injEq, exists_eq']
      split <;> exact ⟨_, rfl⟩
    obtain ⟨c, hc⟩ := this
    rw [List.foldl_cons, hc]
    exact ih c

/-- What counts from a write counts from the launch too. -/
theorem held_of_settled {a : Word} {tr : List Event} (h : settledSince a tr = true) : heldSince a tr = true := by
  have key : ∀ (tr : List Event) (acc : Option Bool) (b : Bool), (∀ c, acc = some c → c = b) →
      ∀ c, tr.foldl (settleStep a) acc = some c → tr.foldl (settleStep a) (some b) = some c := by
    intro tr
    induction tr with
    | nil => exact fun acc b hb c hc => by rw [← hb c hc]; rfl
    | cons e tr ih =>
      intro acc b hb c hc
      rw [List.foldl_cons] at hc ⊢
      have step : ∃ b', settleStep a (some b) e = some b' ∧ ∀ c, settleStep a acc e = some c → c = b' := by
        cases e with
        | rd _ _ => exact ⟨b, rfl, hb⟩
        | wr d _ =>
          by_cases hd : d = a
          · exact ⟨false, by simp [settleStep, hd], fun c h => by simpa [settleStep, hd] using h.symm⟩
          · exact ⟨b, by simp [settleStep, hd], fun c h => hb c (by simpa [settleStep, hd] using h)⟩
        | dl n =>
          refine ⟨b || decide (Config.settleCycles ≤ n), rfl, fun c h => ?_⟩
          obtain ⟨x, hx, rfl⟩ := Option.map_eq_some_iff.mp h
          rw [hb x hx]
      obtain ⟨b', h1, h2⟩ := step
      rw [h1]
      exact ih _ b' h2 c hc
  simp only [settledSince, heldSince, beq_iff_eq] at h ⊢
  exact key tr none false (fun _ h => by cases h) true h

/-- After a settle delay every hold delay has been kept. -/
theorem held_append_dl (a : Word) (n : BitVec 8) (tr : List Event) (hn : 150 ≤ n) : heldSince a (tr ++ [.dl n]) = true := by
  obtain ⟨c, hc⟩ := settleFold_isSome a tr false
  simp [heldSince, settleStep, Config.settleCycles, hc]
  exact .inr (decide_eq_true hn)

/-! ## What a stretch of micro-operations leaves alone -/

/-- Everything but the pins' registers, `dly` and `seq`: these events were added to the trace and only the serial line moved
otherwise, in `n` turns. -/
structure PinMoves (n : Nat) (s t : State) (tr : List Event) : Prop where
  params : t.params = s.params
  slots : t.slots = s.slots
  uart : t.uart = s.uart
  run : t.run = s.run
  fault : t.fault = s.fault
  trace : t.trace = s.trace ++ tr
  cmdPort : t.cmdPort = s.cmdPort
  responses : t.responses = s.responses
  badCommand : t.badCommand = s.badCommand
  uartRegs : SameUartRegs s.target t.target
  line : OnlyLine n s t
  lineOnly : s.lineOnly → t.lineOnly

theorem PinMoves.trans {a b c : State} {n m : Nat} {tr tr' : List Event} (h : PinMoves n a b tr) (k : PinMoves m b c tr') :
    PinMoves (n + m) a c (tr ++ tr') where
  params := k.params.trans h.params
  slots := k.slots.trans h.slots
  uart := k.uart.trans h.uart
  run := k.run.trans h.run
  fault := k.fault.trans h.fault
  trace := by rw [k.trace, h.trace, List.append_assoc]
  cmdPort := k.cmdPort.trans h.cmdPort
  responses := k.responses.trans h.responses
  badCommand := k.badCommand.trans h.badCommand
  uartRegs := h.uartRegs.trans k.uartRegs
  line := h.line.trans h.params h.uartRegs k.line
  lineOnly := k.lineOnly ∘ h.lineOnly

theorem TurnOf.pinMoves {s e : State} {n : Nat} (h : TurnOf n s e) : PinMoves n s e [] where
  params := h.line.params
  slots := h.line.slots
  uart := h.line.uart
  run := h.line.run
  fault := h.line.fault
  trace := by rw [h.line.trace, List.append_nil]
  cmdPort := h.line.cmdPort
  responses := h.line.responses
  badCommand := h.line.badCommand
  uartRegs := h.line.uartRegs
  line := h.only
  lineOnly := h.line.lineOnly

/-- The same with another `seq`. -/
theorem PinMoves.withSeq {n : Nat} {s t : State} {tr : List Event} (q : Seq) (h : PinMoves n s t tr) : PinMoves n s (t.withSeq q) tr :=
  ⟨h.params, h.slots, h.uart, h.run, h.fault, h.trace, h.cmdPort, h.responses, h.badCommand, h.uartRegs,
    ⟨h.line.sched, ⟨h.line.tx.lineTx, h.line.tx.txf⟩, h.line.rxf⟩, h.lineOnly⟩

theorem PinMoves.ofSeq {n : Nat} {s t : State} {tr : List Event} (q : Seq) (h : PinMoves n (s.withSeq q) t tr) : PinMoves n s t tr :=
  ⟨h.params, h.slots, h.uart, h.run, h.fault, h.trace, h.cmdPort, h.responses, h.badCommand, h.uartRegs,
    ⟨h.line.sched, ⟨h.line.tx.lineTx, h.line.tx.txf⟩, h.line.rxf⟩, h.lineOnly⟩

/-- The same with another `dly`. -/
theorem PinMoves.withDly {n : Nat} {s t : State} {tr : List Event} (d : BitVec 8) (h : PinMoves n s t tr) : PinMoves n s (t.withDly d) tr :=
  ⟨h.params, h.slots, h.uart, h.run, h.fault, h.trace, h.cmdPort, h.responses, h.badCommand, h.uartRegs,
    ⟨h.line.sched, ⟨h.line.tx.lineTx, h.line.tx.txf⟩, h.line.rxf⟩, h.lineOnly⟩

/-- One more event. -/
theorem PinMoves.logEvent {n : Nat} {s t : State} {tr : List Event} (e : Event) (h : PinMoves n s t tr) :
    PinMoves n s (t.logEvent e) (tr ++ [e]) :=
  ⟨h.params, h.slots, h.uart, h.run, h.fault, by simp [h.trace], h.cmdPort, h.responses, h.badCommand, h.uartRegs,
    ⟨h.line.sched, ⟨h.line.tx.lineTx, h.line.tx.txf⟩, h.line.rxf⟩, h.lineOnly⟩

/-- A free value was drawn. -/
theorem PinMoves.drawn {n : Nat} {s t : State} {tr : List Event} (h : PinMoves n s t tr) : PinMoves n s t.drawn tr :=
  ⟨h.params, h.slots, h.uart, h.run, h.fault, h.trace, h.cmdPort, h.responses, h.badCommand, h.uartRegs,
    ⟨h.line.sched, ⟨h.line.tx.lineTx, h.line.tx.txf⟩, h.line.rxf⟩, h.lineOnly⟩

/-- The pins' registers written. -/
theorem PinMoves.withPins {n : Nat} {s t : State} {tr : List Event} (fsel : Vector Word 6) (out : BitVec Config.pinCount) (pud : Word)
    (clk : Vector Word 2) (pull : Vector (BitVec 2) Config.pinCount) (h : PinMoves n s t tr) :
    PinMoves n s (t.withTarget { t.target with fsel := fsel, out := out, pud := pud, pudclk := clk, pull := pull }) tr :=
  ⟨h.params, h.slots, h.uart, h.run, h.fault, h.trace, h.cmdPort, h.responses, h.badCommand,
    ⟨h.uartRegs.auxenb, h.uartRegs.lcr, h.uartRegs.cntl, h.uartRegs.baud⟩, ⟨h.line.sched, ⟨h.line.tx.lineTx, h.line.tx.txf⟩, h.line.rxf⟩, h.lineOnly⟩

/-! ## The two sequences -/

/-! A hold delay is judged by the trace, the clock registers and the addresses alone. -/

theorem holdBroken_congr {s t : State} (hp : t.params = s.params) (hk : t.target.pudclk = s.target.pudclk) (ht : t.trace = s.trace)
    (p : Fin Config.pinCount) : holdBroken t p = holdBroken s p := by
  unfold holdBroken
  rw [hp, hk, ht]

/-- A write of `PUD` reaches a pin by its clock bit, the trace and the addresses alone. -/
theorem stageReaches_congr {s t : State} (hp : t.params = s.params) (hk : t.target.pudclk = s.target.pudclk) (ht : t.trace = s.trace)
    (v : Word) (p : Fin Config.pinCount) : stageReaches t v p = stageReaches s v p := by
  unfold stageReaches cleansUp
  rw [hp, hk, ht]

/-- No write of `PUD` reaches a pin whose clock bit is 0. -/
theorem stageReaches_of_bit_zero {s : State} {p : Fin Config.pinCount} (v : Word) (h : pairBit s.target.pudclk p = false) :
    stageReaches s v p = false := by simp [stageReaches, h]

/-- Every write of `PUD` that breaks a pin's hold delay reaches the pin (10_state.md R51 (a)). -/
theorem stageReaches_of_holdBroken {s : State} {p : Fin Config.pinCount} (v : Word) (h : holdBroken s p = true) :
    stageReaches s v p = true := by
  simp only [holdBroken, Bool.and_eq_true, Bool.not_eq_true'] at h
  have hs : settledSince (regAddr s.params (.pudclk (pairIndex p))) s.trace = false :=
    Bool.eq_false_iff.mpr fun hs => by simp [held_of_settled hs] at h
  simp [stageReaches, cleansUp, h.1, hs]

section
variable {s : State} {i : Instr} {w : ReadWord} {rest : List MicroOp}

/-- The target with one pin's function field changed (40_gpio.md R141). -/
def Target.withField (t : Target) (pin : BitVec 6) (code : BitVec 3) (hp : pin.toNat / 10 < 6) : Target :=
  { t with fsel := t.fsel.set (pin.toNat / 10) (rmwWord t.fsel[pin.toNat / 10] (fselField pin) (fselCode pin code)) }

/-- `FSEL_RMW(pin, code)` (40_gpio.md R141). -/
theorem fselRmw_runs (pin : BitVec 6) (code : BitVec 3) (hp : pin.toNat / 10 < 6) (hl : s.lineOnly)
    (hs : s.seq = .busy i w (fselRmw s.params pin code ++ rest)) (hg : goesOn rest = true) :
    ∃ e, PinMoves 2 s e (fselEvents s.params pin code s.target.fsel[pin.toNat / 10]) ∧ e.dly = s.dly ∧
      SamePins (s.target.withField pin code hp) e.target ∧
      Runs 2 s (e.withSeq (.busy i (.plain s.target.fsel[pin.toNat / 10]) rest)) := by
  have ha := fselAddr_eq s.params pin hp
  have hr : regAt s.params (fselAddr s.params pin) = some (.fsel ⟨pin.toNat / 10, hp⟩) := by
    rw [ha]; exact regAt_regAddr _ _ (by simp)
  obtain ⟨e1, t1, r1⟩ := memRead_runs hl hs hr rfl
  simp only [readReg, Fin.getElem_fin, t1.line.pins.fsel, ReadWord.toWord] at r1
  have hl1 := t1.line.lineOnly hl
  obtain ⟨e2, t2, r2⟩ := memModify_runs (s := (e1.logEvent (.rd (fselAddr s.params pin) s.target.fsel[pin.toNat / 10])).withSeq
      (.busy i (.plain s.target.fsel[pin.toNat / 10])
        (.memModify (fselAddr s.params pin) (fselField pin) (fselCode pin code) :: rest)))
    (r := .fsel ⟨pin.toNat / 10, hp⟩) (by simpa [State.lineOnly] using hl1) rfl (by simpa [t1.line.params] using hr) hg
    (fun e => e.withTarget { e.target with fsel := e.target.fsel.set (pin.toNat / 10) (rmwWord s.target.fsel[pin.toNat / 10] (fselField pin) (fselCode pin code)) })
    (fun e _ => by simp [writeReg, ReadWord.toWord])
  have m1 := (t1.pinMoves.logEvent (.rd (fselAddr s.params pin) s.target.fsel[pin.toNat / 10]))
  have m2 := m1.trans (t2.pinMoves.ofSeq _)
  refine ⟨_, ((m2.withPins (e2.target.fsel.set (pin.toNat / 10)
    (rmwWord s.target.fsel[pin.toNat / 10] (fselField pin) (fselCode pin code))) e2.target.out e2.target.pud e2.target.pudclk
      e2.target.pull).logEvent _), ?_, ?_, ?_⟩
  · simp [t2.line.dly, t1.line.dly]
  · obtain ⟨a1, a2, a3, a4, a5⟩ := t1.line.pins
    obtain ⟨b1, b2, b3, b4, b5⟩ := t2.line.pins
    simp only [State.withSeq_target, State.logEvent_target] at b1 b2 b3 b4 b5
    constructor <;> simp [Target.withField, b1, b2, b3, b4, b5, a1, a2, a3, a4, a5]
  · exact r1.trans r2

/-- A write of `PUD` (10_state.md R48, R51, 70_reset_and_hazards.md R253). -/
theorem stage_runs {q : Params} (v : Word) (hq : s.params = q) (hl : s.lineOnly)
    (hs : s.seq = .busy i w (.memWrite (pudAddr q) v :: rest))
    (hg : goesOn rest = true) :
    ∃ e, PinMoves 1 s e [.wr (pudAddr q) v] ∧ e.dly = s.dly ∧
      e.target.fsel = s.target.fsel ∧ e.target.out = s.target.out ∧ e.target.pud = v ∧ e.target.pudclk = s.target.pudclk ∧
      (∀ p : Fin 54, stageReaches s v p = false → e.target.pull[p] = s.target.pull[p]) ∧
      Runs 1 s (e.withSeq (.busy i w rest)) := by
  subst hq
  obtain ⟨e, t, r⟩ := memWrite_runs hl hs (regAt_regAddr _ .pud (by simp)) hg
    (fun e => e.drawn.withTarget { e.target with pud := v, pull := pullAfterStage v e }) (fun e _ => rfl)
  refine ⟨_, (t.pinMoves.drawn.withPins e.target.fsel e.target.out v e.target.pudclk (pullAfterStage v e)).logEvent _, t.line.dly,
    t.line.pins.fsel, t.line.pins.out, rfl, t.line.pins.pudclk, fun p h => ?_, r⟩
  have hb := stageReaches_congr t.line.params t.line.pins.pudclk t.line.trace v p
  show (pullAfterStage v e)[p] = _
  simp [pullAfterStage, hb, h, t.line.pins.pull]

/-- A write of `PUDCLK[n]` (10_state.md R50, R51). -/
theorem clock_runs {q : Params} (pin : BitVec 6) (v : Word) (hq : s.params = q) (hl : s.lineOnly)
    (hs : s.seq = .busy i w (.memWrite (pudclkAddr q pin) v :: rest)) (hg : goesOn rest = true) :
    ∃ e, PinMoves 1 s e [.wr (pudclkAddr q pin) v] ∧ e.dly = s.dly ∧
      e.target.fsel = s.target.fsel ∧ e.target.out = s.target.out ∧ e.target.pud = s.target.pud ∧
      e.target.pudclk = s.target.pudclk.set (pin.toNat / 32) v (pairIndex_lt pin) ∧
      (∀ p : Fin 54, holdBroken s p = false → s.target.staged ≠ 3 →
        settledSince (pudAddr q) s.trace = true →
        e.target.pull[p] = if (pinMask ⟨pin.toNat / 32, pairIndex_lt pin⟩ v).getLsbD p.val then s.target.staged else s.target.pull[p]) ∧
      (∀ p : Fin 54, holdBroken s p = false → (pinMask ⟨pin.toNat / 32, pairIndex_lt pin⟩ v).getLsbD p.val = false → e.target.pull[p] = s.target.pull[p]) ∧
      Runs 1 s (e.withSeq (.busy i w rest)) := by
  subst hq
  obtain ⟨n, hn⟩ : ∃ n : Fin 2, n = ⟨pin.toNat / 32, pairIndex_lt pin⟩ := ⟨_, rfl⟩
  have ha : pudclkAddr s.params pin = regAddr s.params (.pudclk n) := hn ▸ pudclkAddr_eq _ _
  have hv : pin.toNat / 32 = n.val := by rw [hn]
  rw [ha] at hs
  simp only [ha, hv, pudAddr_eq, Fin.eta]
  obtain ⟨e, t, r⟩ := memWrite_runs hl hs (regAt_regAddr _ (.pudclk n) (by simp)) hg
    (fun e => e.drawn.withTarget { e.target with pudclk := e.target.pudclk.set n v, pull := pullAfterClock n v e })
    (fun e _ => rfl)
  have hb := fun p => holdBroken_congr t.line.params t.line.pins.pudclk t.line.trace p
  have hc : ∀ p, s.target.staged ≠ 3 → settledSince (regAddr s.params .pud) s.trace = true →
      latchedCode e p = s.target.staged := by
    intro p h3 hset
    have hst : e.target.staged = s.target.staged := by simp [Target.staged, t.line.pins.pud]
    simp [latchedCode, hst, t.line.params, t.line.trace, hset]
    exact fun h => absurd h h3
  refine ⟨_, (t.pinMoves.drawn.withPins e.target.fsel e.target.out e.target.pud (e.target.pudclk.set n v)
      (pullAfterClock n v e)).logEvent _, t.line.dly, t.line.pins.fsel, t.line.pins.out, t.line.pins.pud,
    by simp [t.line.pins.pudclk], fun p h h3 hset => ?_, fun p h hm => ?_, r⟩
  · show (pullAfterClock n v e)[p] = _
    simp [pullAfterClock, hb, h, hc p h3 hset, t.line.pins.pull]
  · show (pullAfterClock n v e)[p] = _
    have hm' : (pinMask n v)[p.val] = false := by simpa using hm
    simp [pullAfterClock, hb, h, hm', t.line.pins.pull]

/-- A settle delay (40_gpio.md R143). -/
theorem settle_runs (hl : s.lineOnly) (hs : s.seq = .busy i w (.delay Config.settleCycles :: rest)) (hg : goesOn rest = true) :
    ∃ e, PinMoves 151 s e [.dl 150] ∧ e.dly = 0 ∧ SamePins s.target e.target ∧ Runs 151 s (e.withSeq (.busy i w rest)) := by
  obtain ⟨e, t, r⟩ := delay_runs hl hs hg
  exact ⟨_, (t.pinMoves.withDly 0).logEvent _, rfl, t.line.pins, r⟩

theorem pairBit_set_other (v : Vector Word 2) (n : Nat) (hn : n < 2) (x : Word) (p : Fin Config.pinCount) (h : p.val / 32 ≠ n) :
    pairBit (v.set n x) p = pairBit v p := by
  simp only [pairBit]
  rw [Vector.getElem_set_ne _ _ (Ne.symm h)]

/-- A clock register written 0 sets no pin's bit. -/
theorem pairBit_set_zero (v : Vector Word 2) (n : Nat) (hn : n < 2) (p : Fin Config.pinCount) (h : pairBit v p = false) :
    pairBit (v.set n 0) p = false := by
  by_cases hp : p.val / 32 = n
  · subst hp
    simp only [pairBit, Vector.getElem_set_self]
    exact BitVec.getLsbD_zero
  · rw [pairBit_set_other _ _ _ _ _ hp, h]

theorem pudAddr_ne_pudclk (q : Params) (n : Fin 2) : pudAddr q ≠ regAddr q (.pudclk n) := by
  fin_cases n <;> simp [pudAddr, regAddr, regOffset]

/-- Right after a settle delay, and after a write of `PUD` that follows it, no hold delay is broken. -/
theorem hold_kept {q : Params} {t : State} {x : Word} {tr : List Event} (hq : t.params = q)
    (ht : t.trace = tr ++ [.dl 150] ∨ t.trace = tr ++ [.dl 150] ++ [.wr (pudAddr q) x]) (p : Fin Config.pinCount) :
    holdBroken t p = false := by
  subst hq
  have hs : heldSince (regAddr t.params (.pudclk (pairIndex p))) t.trace = true := by
    rcases ht with ht | ht
    · rw [ht]; exact held_append_dl _ _ _ (by decide)
    · rw [ht, held_append_wr_other _ _ (pudAddr_ne_pudclk _ _)]
      exact held_append_dl _ _ _ (by decide)
  simp [holdBroken, hs]

theorem pairIndex_eq (pin : BitVec 6) (p : Fin Config.pinCount) (h : p.val / 32 = pin.toNat / 32) :
    (⟨pin.toNat / 32, pairIndex_lt pin⟩ : Fin 2) = pairIndex p :=
  Fin.ext (by have := pairIndex_lt pin; simp only [pairIndex, Fin.val_ofNat]; omega)

/-- The first clear of the clean-up reaches no pin of the register it cleans up, and no pin without a clock bit
(70_reset_and_hazards.md R253). -/
theorem clear_reaches_none {q : Params} {t : State} {tr : List Event} {x : Word} (pin : BitVec 6) (p : Fin Config.pinCount)
    (hq : t.params = q) (ht : t.trace = tr ++ [.wr (pudclkAddr q pin) x] ++ [.dl 150])
    (h : p.val / 32 = pin.toNat / 32 ∨ pairBit t.target.pudclk p = false) : stageReaches t 0 p = false := by
  rcases h with h | h
  · subst hq
    rw [pudclkAddr_eq, pairIndex_eq pin p h] at ht
    have h1 : settledSince (regAddr t.params (.pudclk (pairIndex p))) t.trace = true := by
      rw [ht]; exact settled_append_wr_dl _ _ _ _ (by decide)
    have h2 : restagedSince (regAddr t.params .pud) (regAddr t.params (.pudclk (pairIndex p))) t.trace = false := by
      rw [ht, restaged_append_dl, restaged_append_clk]
    simp [stageReaches, cleansUp, h1, h2]
  · exact stageReaches_of_bit_zero _ h

/-- `PULL_SEQ(pin, code)` (40_gpio.md R142): the pin has the code, and every other pin whose clock bit was 0 keeps its pull. -/
theorem pullSeq_runs {q : Params} (pin : BitVec 6) (code : BitVec 2) (hq : s.params = q) (hc : code ≠ 3) (hl : s.lineOnly)
    (hs : s.seq = .busy i w (pullSeq q pin code ++ rest)) (hg : goesOn rest = true) :
    ∃ e, PinMoves 306 s e (pullEvents q pin code) ∧ e.dly = 0 ∧
      e.target.fsel = s.target.fsel ∧ e.target.out = s.target.out ∧ e.target.pud = 0 ∧
      e.target.pudclk = s.target.pudclk.set (pin.toNat / 32) 0 (pairIndex_lt pin) ∧
      (∀ p : Fin 54, p.val = pin.toNat → e.target.pull[p] = code) ∧
      (∀ p : Fin 54, p.val ≠ pin.toNat → pairBit s.target.pudclk p = false → e.target.pull[p] = s.target.pull[p]) ∧
      Runs 306 s (e.withSeq (.busy i w rest)) := by
  obtain ⟨e1, m1, _, f1, o1, u1, c1, p1, r1⟩ := stage_runs (code.setWidth 32) hq hl hs (by rfl)
  have q1 := m1.params.trans hq
  obtain ⟨e2, m2, _, n2, r2⟩ := settle_runs (s := e1.withSeq (.busy i w (pullSeq q pin code ++ rest).tail)) (m1.lineOnly hl) rfl (by rfl)
  have m12 := m1.trans (m2.ofSeq _)
  have q2 := m12.params.trans hq
  obtain ⟨e3, m3, _, f3, o3, u3, c3, p3, _, r3⟩ := clock_runs (s := e2.withSeq (.busy i w (pullSeq q pin code ++ rest).tail.tail))
    pin (pinBit pin) q2 (m12.lineOnly hl) rfl (by rfl)
  have m13 := m12.trans (m3.ofSeq _)
  have q3 := m13.params.trans hq
  obtain ⟨e4, m4, _, n4, r4⟩ := settle_runs (s := e3.withSeq (.busy i w (pullSeq q pin code ++ rest).tail.tail.tail))
    (m13.lineOnly hl) rfl (by rfl)
  have m14 := m13.trans (m4.ofSeq _)
  have q4 := m14.params.trans hq
  obtain ⟨e5, m5, d5, f5, o5, u5, c5, p5, r5⟩ := stage_runs (s := e4.withSeq (.busy i w
      (pullSeq q pin code ++ rest).tail.tail.tail.tail)) 0 q4 (m14.lineOnly hl) rfl (by rfl)
  have m15 := m14.trans (m5.ofSeq _)
  have q5 := m15.params.trans hq
  obtain ⟨e6, m6, d6, f6, o6, u6, c6, _, p6, r6⟩ := clock_runs (s := e5.withSeq (.busy i w
      (pullSeq q pin code ++ rest).tail.tail.tail.tail.tail)) pin 0 q5 (m15.lineOnly hl) rfl hg
  have m16 := m15.trans (m6.ofSeq _)
  obtain ⟨nf2, no2, nu2, nk2, np2⟩ := n2
  obtain ⟨nf4, no4, nu4, nk4, np4⟩ := n4
  simp only [State.withSeq_target, State.withSeq_dly] at *
  have k4 : e4.target.pudclk = s.target.pudclk.set (pin.toNat / 32) (pinBit pin) (pairIndex_lt pin) := by
    rw [nk4, c3, nk2, c1]
  have hr := r1.trans (r2.trans (r3.trans (r4.trans (r5.trans r6))))
  have stage : ∀ c : BitVec 2, (c.setWidth 32).extractLsb' 0 2 = c := by decide
  have st : e2.target.staged = code := by rw [Target.staged, nu2, u1, stage]
  have b2 := hold_kept (t := e2.withSeq (.busy i w (pullSeq q pin code ++ rest).tail.tail)) (x := 0) q2
    (.inl (by rw [State.withSeq_trace, m12.trace, ← List.append_assoc]))
  have b5 := hold_kept (t := e5.withSeq (.busy i w (pullSeq q pin code ++ rest).tail.tail.tail.tail.tail)) (x := 0) q5
    (.inr (by rw [State.withSeq_trace, m15.trace, ← List.append_assoc, ← List.append_assoc]))
  have pull : ∀ p : Fin 54, p.val = pin.toNat ∨ pairBit s.target.pudclk p = false →
      e6.target.pull[p] = if p.val = pin.toNat then code else e1.target.pull[p] := by
    intro p hb
    have r5 := clear_reaches_none (t := e4.withSeq (.busy i w (pullSeq q pin code ++ rest).tail.tail.tail.tail)) (tr := e2.trace)
      (x := pinBit pin) pin p q4 (by rw [State.withSeq_trace, m14.trace, m12.trace]; simp only [List.append_assoc]) (by
        by_cases hn : p.val / 32 = pin.toNat / 32
        · exact .inl hn
        · exact .inr (by rw [State.withSeq_target, k4, pairBit_set_other _ _ _ _ _ hn]; exact hb.resolve_left fun h => hn (by rw [h])))
    have h3 := p3 p (b2 p) (by rw [st]; exact hc)
      (by rw [State.withSeq_trace, m12.trace, ← List.append_assoc]; exact settled_append_wr_dl _ _ _ _ (by decide))
    have h4 : e4.target.pull[p] = e3.target.pull[p] := by simp only [np4]
    have h2 : e2.target.pull[p] = e1.target.pull[p] := by simp only [np2]
    have h6 := p6 p (b5 p) (by rw [pinMask_zero]; exact BitVec.getLsbD_zero)
    rw [h6, p5 p r5, h4, h3, pinMask_pinBit pin p.val p.isLt, st, h2]
    simp
  exact ⟨e6, m16, by rw [d6, d5]; assumption, by rw [f6, f5, nf4, f3, nf2, f1], by rw [o6, o5, no4, o3, no2, o1],
    by rw [u6, u5], by rw [c6, c5, k4]; simp, fun p h => by rw [pull p (.inl h), if_pos h],
    fun p h hb => by rw [pull p (.inr hb), if_neg h, p1 p (stageReaches_of_bit_zero _ hb)], hr⟩

end

/-! ## Whole operations -/

theorem runSeq_of {j k n : Nat} {s t u : State} (h : Runs j s t) (h' : Ends k t u) (hn : j + k ≤ n) : runSeq n s = .next u :=
  (h.ends h') n hn

theorem context_congr {s t : State} (hp : t.params = s.params) (hs : t.slots = s.slots) (slot : BitVec 8) :
    t.context slot = s.context slot := by simp [State.context, hp, hs]

/-- The last micro-operation of an operation that leaves the UART alone. -/
theorem finish_moves {n : Nat} {s0 s : State} {i w u rest} {tr : List Event} (hl : s.lineOnly) (hs : s.seq = .busy i w (.finish u :: rest))
    (m : PinMoves n s0 s tr)
    (f : State → State)
    (hf : ∀ e, PinMoves (n + 1) s0 e tr → applyUpdate u e = .ok (f e)) :
    ∃ e, PinMoves (n + 1) s0 e tr ∧ e.dly = s.dly ∧ SamePins s.target e.target ∧ Ends 1 s (((f e).respond (u.response w)).withSeq .idle) := by
  have ht := envTurn_turnOf s hl
  have mm := m.trans ht.pinMoves
  rw [List.append_nil] at mm
  refine ⟨envTurn s, mm, ht.line.dly, ht.line.pins, ends_of_tick ?_ (idle_parked _)⟩
  rw [tick_busy hl hs]
  simp [perform, afterUpdate, hf _ mm]

end Sys2Proof.Machine
end

