-- ==== Sys2Proof/Laws/PerInstr.lean ====
section
/-! SUPPORT. Laws/PerInstr.lean: one law for each operation: the top byte of its command word is its opcode (30_encoding.md R117,
R121). -/

namespace Sys2Proof.Laws.OpcodeByte

/-- The opcode column of 30_encoding.md R121. -/
def opcode : Instr → BitVec 8
  | .gpioNew _ _ _ _ => 0x10
  | .gpioOn _ => 0x11
  | .gpioOff _ => 0x12
  | .gpioPullUp _ => 0x13
  | .gpioPullDown _ => 0x14
  | .gpioPullNeither _ => 0x15
  | .gpioDrop _ => 0x16
  | .uartNew _ => 0x20
  | .uartSendc _ => 0x21
  | .uartReadc => 0x22
  | .uartSendStr _ => 0x23

/-- Bits 31:24 of the command word are the opcode. -/
def Statement (i : Instr) : Prop := ∃ w ext, encode i = w :: ext ∧ w.extractLsb' 24 8 = opcode i

theorem encodeG_opcode (op slot : BitVec 8) : (encodeG op slot).extractLsb' 24 8 = op := by
  unfold encodeG
  rw [extract_append_high _ _ 24 (by decide), extract_append_high _ _ _ (by decide)]
  exact extract_all op

theorem gpioNew (slot : BitVec 8) (pin : BitVec 6) (mode : BitVec 3) (pull : BitVec 2) : Statement (.gpioNew slot pin mode pull) := by
  refine ⟨_, _, rfl, ?_⟩
  rw [extract_append_high _ _ 24 (by decide)]
  repeat rw [extract_append_high _ _ _ (by decide)]
  exact extract_all _

theorem gpioOn (slot : BitVec 8) : Statement (.gpioOn slot) := ⟨_, _, rfl, encodeG_opcode _ _⟩
theorem gpioOff (slot : BitVec 8) : Statement (.gpioOff slot) := ⟨_, _, rfl, encodeG_opcode _ _⟩
theorem gpioPullUp (slot : BitVec 8) : Statement (.gpioPullUp slot) := ⟨_, _, rfl, encodeG_opcode _ _⟩
theorem gpioPullDown (slot : BitVec 8) : Statement (.gpioPullDown slot) := ⟨_, _, rfl, encodeG_opcode _ _⟩
theorem gpioPullNeither (slot : BitVec 8) : Statement (.gpioPullNeither slot) := ⟨_, _, rfl, encodeG_opcode _ _⟩
theorem gpioDrop (slot : BitVec 8) : Statement (.gpioDrop slot) := ⟨_, _, rfl, encodeG_opcode _ _⟩
theorem uartNew (baud : Word) : Statement (.uartNew baud) := ⟨_, _, rfl, rfl⟩

theorem uartSendc (byte : Byte) : Statement (.uartSendc byte) := by
  refine ⟨_, _, rfl, ?_⟩
  rw [extract_append_high _ _ 24 (by decide)]
  rfl

theorem uartReadc : Statement .uartReadc := ⟨_, _, rfl, by decide⟩

theorem uartSendStr (text : List Byte) : Statement (.uartSendStr text) := by
  refine ⟨_, _, rfl, ?_⟩
  rw [extract_append_high _ _ 24 (by decide)]
  rfl

end Sys2Proof.Laws.OpcodeByte
end

