-- ==== Sys2Proof/Laws/Target.lean ====
section
/-! SUPPORT. Laws/Target.lean: everything an access of the register target, a context update and a micro-operation can change. -/

namespace Sys2Proof.Machine

/-- A read changes `RXF` and the count of draws, and nothing else. -/
theorem readReg_frame (r : Reg) (s : State) :
    (readReg r s).2 = { s with target := { s.target with rxf := (readReg r s).2.target.rxf }, draws := (readReg r s).2.draws } := by
  cases r with
  | muIo =>
    simp only [readReg]
    split
    · split <;> rfl
    · rfl
  | muLsr => simp only [readReg]; split <;> rfl
  | _ => rfl

/-- Only a read of `MU_IO` changes a register. -/
theorem readReg_target {r : Reg} (h : r ≠ .muIo) (s : State) : (readReg r s).2.target = s.target := by
  cases r with
  | muIo => exact absurd rfl h
  | muLsr => simp only [readReg]; split <;> rfl
  | _ => rfl

/-- A write changes the target and the count of draws, and nothing else. -/
theorem writeReg_frame {r : Reg} {v : Word} {s t : State} (h : writeReg r v s = .ok t) :
    t = { s with target := t.target, draws := t.draws } := by
  cases r with
  | muIir =>
    simp only [writeReg] at h
    split at h
    · split at h
      · cases h; rfl
      · cases h
    · cases h; rfl
  | muLsr => cases h
  | _ => cases h; rfl

/-- A write of a register other than `MU_LSR` is accepted, if it is not another value than the clear code for `MU_IIR`. -/
theorem writeReg_ok {r : Reg} {v : Word} (s : State) (h : r ≠ .muLsr) (h' : r = .muIir → v = s.params.fifoClearCode) :
    ∃ t, writeReg r v s = .ok t := by
  cases r with
  | muLsr => exact absurd rfl h
  | muIir =>
    simp only [writeReg, h' rfl, beq_self_eq_true, if_true]
    split <;> exact ⟨_, rfl⟩
  | _ => exact ⟨_, rfl⟩

theorem memRead_ok {a : Word} {s t : State} {w : ReadWord} (h : memRead a s = .ok (w, t)) :
    ∃ r, regAt s.params a = some r ∧ w = (readReg r s).1 ∧ t = (readReg r s).2.logEvent (.rd a w.toWord) := by
  unfold memRead at h
  split at h
  · cases h
  · rename_i r hr
    cases h
    exact ⟨r, hr, rfl, rfl⟩

theorem memWrite_ok {a v : Word} {s t : State} (h : memWrite a v s = .ok t) :
    ∃ r u, regAt s.params a = some r ∧ writeReg r v s = .ok u ∧ t = u.logEvent (.wr a v) := by
  unfold memWrite at h
  split at h
  · cases h
  · rename_i r hr
    split at h
    · rename_i u hu
      cases h
      exact ⟨r, u, hr, hu, rfl⟩
    · cases h

/-- A context is there exactly in a valid slot below `NSLOT`. -/
theorem context_eq_some {slot : BitVec 8} {s : State} {c : GpioContext} :
    s.context slot = some c ↔ slot.toNat < s.params.nslot ∧ s.slots[slot.toNat]? = some c ∧ c.valid = true := by
  unfold State.context
  constructor
  · intro h
    split at h
    · cases h
    · split at h
      · split at h
        · cases h
          exact ⟨by omega, by assumption, by assumption⟩
        · cases h
      · cases h
  · rintro ⟨h1, h2, h3⟩
    simp [Nat.not_le.mpr h1, h2, h3]

/-- A context update changes contexts and nothing else. -/
theorem applyUpdate_frame {u : Update} {s t : State} (h : applyUpdate u s = .ok t) :
    t = { s with slots := t.slots, uart := t.uart } := by
  have key : ∀ {slot f}, s.updateContext slot f = .ok t → t = { s with slots := t.slots, uart := t.uart } := by
    intro slot f h
    unfold State.updateContext at h
    split at h
    · cases h; rfl
    · cases h
  cases u with
  | newContext slot pin mode pull =>
    simp only [applyUpdate] at h
    split at h
    · cases h; rfl
    · cases h
  | setState slot on => exact key h
  | setPull slot code => exact key h
  | drop slot => exact key h
  | newUart baud => cases h; rfl
  | sent => cases h; rfl
  | received => cases h; rfl

/-- No micro-operation changes the parameters, the run state, the fault register, the host's words or the environment's schedule. -/
structure Untouched (s t : State) : Prop where
  params : t.params = s.params
  run : t.run = s.run
  fault : t.fault = s.fault
  lineTx : t.lineTx = s.lineTx
  cmdPort : t.cmdPort = s.cmdPort
  badCommand : t.badCommand = s.badCommand
  sched : t.sched = s.sched

theorem Untouched.refl (s : State) : Untouched s s := ⟨rfl, rfl, rfl, rfl, rfl, rfl, rfl⟩

theorem memRead_untouched {a : Word} {s t : State} {w : ReadWord} (h : memRead a s = .ok (w, t)) : Untouched s t := by
  obtain ⟨r, _, _, rfl⟩ := memRead_ok h
  rw [readReg_frame]
  exact ⟨rfl, rfl, rfl, rfl, rfl, rfl, rfl⟩

theorem memWrite_untouched {a v : Word} {s t : State} (h : memWrite a v s = .ok t) : Untouched s t := by
  obtain ⟨r, u, _, hu, rfl⟩ := memWrite_ok h
  rw [writeReg_frame hu]
  exact ⟨rfl, rfl, rfl, rfl, rfl, rfl, rfl⟩

theorem perform_untouched {i : Instr} {w : ReadWord} {rest : List MicroOp} {op : MicroOp} {s t : State}
    (h : perform i w rest op s = .next t) : Untouched s t := by
  cases op with
  | memRead a =>
    simp only [perform, afterRead] at h
    split at h
    · rename_i hm
      cases h
      have u := memRead_untouched hm
      exact ⟨u.1, u.2, u.3, u.4, u.5, u.6, u.7⟩
    · cases h
  | memWrite a v =>
    simp only [perform, afterWrite] at h
    split at h
    · rename_i hm
      cases h
      have u := memWrite_untouched hm
      exact ⟨u.1, u.2, u.3, u.4, u.5, u.6, u.7⟩
    · cases h
  | memModify a c b =>
    simp only [perform, afterWrite] at h
    split at h
    · rename_i hm
      cases h
      have u := memWrite_untouched hm
      exact ⟨u.1, u.2, u.3, u.4, u.5, u.6, u.7⟩
    · cases h
  | delay n => cases h; exact ⟨rfl, rfl, rfl, rfl, rfl, rfl, rfl⟩
  | wait n =>
    simp only [perform, waitCycle] at h
    split at h <;> cases h <;> exact ⟨rfl, rfl, rfl, rfl, rfl, rfl, rfl⟩
  | poll k =>
    simp only [perform, afterPoll] at h
    split at h
    · rename_i hm
      cases h
      have u := memRead_untouched hm
      exact ⟨u.1, u.2, u.3, u.4, u.5, u.6, u.7⟩
    · cases h
  | nop => cases h; exact ⟨rfl, rfl, rfl, rfl, rfl, rfl, rfl⟩
  | finish u =>
    simp only [perform, afterUpdate] at h
    split at h
    · rename_i hm
      cases h
      have e := applyUpdate_frame hm
      constructor <;> rw [e] <;> rfl
    · cases h

end Sys2Proof.Machine
end

