-- ==== Sys2Proof/Laws/Uart.lean ====
section
/-! SUPPORT. Laws/Uart.lean: what a run of sends and a receive do, for every behaviour of the serial line. -/

namespace Sys2Proof.Machine

/-- Everything but the queues and `seq`: these events were added to the trace, and the line and the queues moved as sending these
bytes in `n` turns moves them. -/
structure SendMoves (n : Nat) (bytes : List Byte) (s t : State) (tr : List Event) : Prop where
  params : t.params = s.params
  slots : t.slots = s.slots
  uart : t.uart = s.uart
  run : t.run = s.run
  fault : t.fault = s.fault
  dly : t.dly = s.dly
  trace : t.trace = s.trace ++ tr
  cmdPort : t.cmdPort = s.cmdPort
  responses : t.responses = s.responses
  badCommand : t.badCommand = s.badCommand
  pins : SamePins s.target t.target
  uartRegs : SameUartRegs s.target t.target
  line : Sends n bytes s t
  lineOnly : s.lineOnly → t.lineOnly

theorem SendMoves.trans {a b c : State} {n m : Nat} {bs cs : List Byte} {tr tr' : List Event} (h : SendMoves n bs a b tr)
    (k : SendMoves m cs b c tr') : SendMoves (n + m) (bs ++ cs) a c (tr ++ tr') where
  params := k.params.trans h.params
  slots := k.slots.trans h.slots
  uart := k.uart.trans h.uart
  run := k.run.trans h.run
  fault := k.fault.trans h.fault
  dly := k.dly.trans h.dly
  trace := by rw [k.trace, h.trace, List.append_assoc]
  cmdPort := k.cmdPort.trans h.cmdPort
  responses := k.responses.trans h.responses
  badCommand := k.badCommand.trans h.badCommand
  pins := h.pins.trans k.pins
  uartRegs := h.uartRegs.trans k.uartRegs
  line := h.line.trans h.params h.uartRegs k.line
  lineOnly := k.lineOnly ∘ h.lineOnly

/-- The line went on and nothing was sent. -/
theorem TurnOf.sendMoves {n : Nat} {s t : State} (h : TurnOf n s t) : SendMoves n [] s t [] where
  params := h.line.params
  slots := h.line.slots
  uart := h.line.uart
  run := h.line.run
  fault := h.line.fault
  dly := h.line.dly
  trace := by rw [h.line.trace, List.append_nil]
  cmdPort := h.line.cmdPort
  responses := h.line.responses
  badCommand := h.line.badCommand
  pins := h.line.pins
  uartRegs := h.line.uartRegs
  line := h.only.sends
  lineOnly := h.line.lineOnly

/-- The same with another `seq`. -/
theorem SendMoves.ofSeq {n : Nat} {bs : List Byte} {s t : State} {tr : List Event} (q : Seq)
    (h : SendMoves n bs (s.withSeq q) t tr) : SendMoves n bs s t tr :=
  ⟨h.params, h.slots, h.uart, h.run, h.fault, h.dly, h.trace, h.cmdPort, h.responses, h.badCommand,
    ⟨h.pins.fsel, h.pins.out, h.pins.pud, h.pins.pudclk, h.pins.pull⟩,
    ⟨h.uartRegs.auxenb, h.uartRegs.lcr, h.uartRegs.cntl, h.uartRegs.baud⟩,
    ⟨h.line.sched, h.line.sent, h.line.least, h.line.most, h.line.rxf⟩, h.lineOnly⟩

/-- A transmitter that is ready has room (10_state.md R56). -/
theorem room_of_txReady {p : Params} {t : Target} (hw : p.wf = true) (h : txReady p t = true) : t.txf.length < p.fifoDepth := by
  have hd : 1 ≤ p.fifoDepth := by
    simp [Params.wf, Params.depthWf] at hw
    omega
  unfold txReady at h
  split at h
  · simpa using h
  · rw [List.isEmpty_iff.mp h]
    exact hd

/-- The line only makes room. -/
theorem txReady_of_turn {n : Nat} {s e : State} (h : TurnOf n s e) (hr : txReady s.params s.target = true) :
    txReady e.params e.target = true := by
  unfold txReady at hr ⊢
  rw [h.line.params, h.only.tx.txf]
  split
  · rename_i heq
    simp only [heq, decide_eq_true_eq, List.length_drop] at hr ⊢
    omega
  · rename_i heq
    simp only [heq, List.isEmpty_iff] at hr ⊢
    rw [hr, List.drop_nil]

theorem lowByte_zext32 (b : Byte) : lowByte (zext32 b) = b := by
  apply BitVec.eq_of_getLsbD_eq
  intro i hi
  simp [lowByte, zext32, hi]
  omega

section
variable {s : State} {i : Instr} {w : ReadWord} {rest : List MicroOp}

theorem enabled_of_line {e : State} (h : LineStep s e) (he : s.target.enabled = true) : e.target.enabled = true := by
  unfold Target.enabled at he ⊢
  rw [h.uartRegs.auxenb]
  exact he

/-- One byte, counted from the poll's own turn, which finds the transmitter ready (41_uart.md R187). -/
theorem sendByte_runs {p : Params} {b : Byte} (hp : s.params = p) (hl : s.lineOnly) (hw : p.wf = true)
    (he : s.target.enabled = true) (hs : s.seq = .busy i w (sendByte p b ++ rest)) (hg : goesOn rest = true)
    (hr : txReady p (envTurn s).target = true) :
    ∃ (u : State) (v : Word) (r : ReadWord),
      SendMoves 1 [b] (envTurn s) u [.rd (regAddr p .muLsr) v, .wr (regAddr p .muIo) (zext32 b)] ∧
      v.getLsbD 5 = true ∧ u.target.txf.length ≤ (envTurn s).target.txf.length + 1 ∧ Runs 2 s (u.withSeq (.busy i r rest)) := by
  subst hp
  have t1 := envTurn_turnOf s hl
  have he1 := enabled_of_line t1.line he
  obtain ⟨e1, hd⟩ : ∃ e, e = envTurn s := ⟨_, rfl⟩
  rw [← hd] at t1 he1 hr ⊢
  obtain ⟨r, hrd⟩ : ∃ r, r = lineStatus s.params e1.target (Config.drawWord e1.draws) := ⟨_, rfl⟩
  have hbit : r.bit .txEmpty = true := by rw [hrd]; exact hr
  have hv : r.toWord.getLsbD 5 = true := (ReadWord.bit_eq .txEmpty r).symm.trans hbit
  obtain ⟨q, hq⟩ : ∃ q, q = Seq.busy i r (.memWrite (regAddr s.params .muIo) (zext32 b) :: rest) := ⟨_, rfl⟩
  have step1 : tick s = .next ((e1.drawn.logEvent (.rd (regAddr s.params .muLsr) r.toWord)).withSeq q) := by
    rw [tick_busy hl hs, ← hd]
    simp [perform, afterPoll, memRead, t1.line.params, regAt_regAddr s.params .muLsr (by simp), readReg, he1, ← hrd, hbit, hq]
  have run1 := runs_of_tick step1 (by subst hq; exact busy_not_parked _ _ _ rfl)
  have hroom := room_of_txReady hw hr
  obtain ⟨e2, t2, run2⟩ := memWrite_runs (s := (e1.drawn.logEvent (.rd (regAddr s.params .muLsr) r.toWord)).withSeq q) (i := i) (w := r)
    (rest := rest) (a := regAddr s.params .muIo) (v := zext32 b) (r := .muIo) (t1.line.lineOnly hl) hq
    (by simpa [t1.line.params] using regAt_regAddr s.params .muIo (by simp)) hg
    (fun e => e.drawn.withTarget { e.target with txf := e.target.txf ++ [b] })
    (fun e t => by
      have he2 : e.target.enabled = true := enabled_of_line t.line he1
      have hl2 : e.target.txf.length < e.params.fifoDepth := by
        have := t.only.tx.txf
        rw [this, t.line.params, List.length_drop]
        show e1.target.txf.length - _ < e1.params.fifoDepth
        rw [t1.line.params]
        omega
      simp [writeReg, txfWritten, he2, hl2, lowByte_zext32])
  obtain ⟨c1, c2, c3, c4, c5⟩ := t2.line.pins
  obtain ⟨d1, d2, d3, d4⟩ := t2.line.uartRegs
  refine ⟨_, r.toWord, r, ?_, hv, ?_, run1.trans run2⟩
  · refine ⟨t2.line.params, t2.line.slots, t2.line.uart, t2.line.run, t2.line.fault, t2.line.dly, ?_, t2.line.cmdPort, t2.line.responses,
      t2.line.badCommand, ⟨c1, c2, c3, c4, c5⟩, ⟨d1, d2, d3, d4⟩, ?_, fun h => t2.line.lineOnly h⟩
    · simp [t2.line.trace]
    · have k := t2.only.sends
      refine ⟨k.sched, ?_, k.least, k.most, k.rxf⟩
      have := k.sent
      simp only [List.append_nil] at this
      show e2.lineTx ++ (e2.target.txf ++ [b]) = _
      rw [← List.append_assoc, this]
      rfl
  · show (e2.target.txf ++ [b]).length ≤ _
    have := t2.only.tx.txf
    rw [List.length_append, this, List.length_drop]
    show e1.target.txf.length - _ + 1 ≤ _
    omega

/-- One text, counted from its first poll's own turn, from which on there is room for all of it (41_uart.md R189). -/
theorem sendText_runs {p : Params} (text : List Byte) (hp : s.params = p) (hl : s.lineOnly) (hw : p.wf = true)
    (hn : p.txStatus = .notFull) (he : s.target.enabled = true) (ht : text ≠ [])
    (hs : s.seq = .busy i w (text.flatMap (sendByte p) ++ rest)) (hg : goesOn rest = true)
    (hr : (envTurn s).target.txf.length + text.length ≤ p.fifoDepth) :
    ∃ (u : State) (polls : List Word) (r : ReadWord),
      SendMoves (2 * text.length - 1) text (envTurn s) u (sendEvents p polls text) ∧ polls.length = text.length ∧
      (∀ v ∈ polls, BitVec.getLsbD v 5 = true) ∧ Runs (2 * text.length) s (u.withSeq (.busy i r rest)) := by
  induction text generalizing s w with
  | nil => exact absurd rfl ht
  | cons b text ih =>
    rw [List.flatMap_cons, List.append_assoc] at hs
    have hgo : goesOn (text.flatMap (sendByte p) ++ rest) = true := by
      cases text with
      | nil => exact hg
      | cons c text => rfl
    obtain ⟨u, v, r, m, hv, hlen, hrun⟩ := sendByte_runs hp hl hw he hs hgo
      (by simp only [txReady, hn, decide_eq_true_eq]; simp only [List.length_cons] at hr; omega)
    cases text with
    | nil => exact ⟨u, [v], r, by simpa [sendEvents] using m, rfl, by simpa using hv, hrun⟩
    | cons c text =>
      obtain ⟨q, hq⟩ : ∃ q, q = u.withSeq (.busy i r ((c :: text).flatMap (sendByte p) ++ rest)) := ⟨_, rfl⟩
      have hqp : q.params = p := by rw [hq]; exact (m.params.trans (envTurn_line s hl).params).trans hp
      have hql : q.lineOnly := by rw [hq]; exact m.lineOnly ((envTurn_line s hl).lineOnly hl)
      have hqe : q.target.enabled = true := by
        have he1 := enabled_of_line (envTurn_line s hl) he
        unfold Target.enabled at he1 ⊢
        rw [hq, State.withSeq_target, m.uartRegs.auxenb]
        exact he1
      have t2 := envTurn_turnOf q hql
      have hqr : (envTurn q).target.txf.length + (c :: text).length ≤ p.fifoDepth := by
        rw [t2.only.tx.txf, List.length_drop, hq, State.withSeq_target]
        simp only [List.length_cons] at hr ⊢
        omega
      obtain ⟨u', polls, r', m', hpl, hvs, hrun'⟩ := ih hqp hql hqe (by simp) (by rw [hq]; rfl) hqr
      refine ⟨u', v :: polls, r', ?_, by simp [hpl], by simpa using ⟨hv, hvs⟩, ?_⟩
      · have k := (t2.sendMoves.trans m')
        rw [hq] at k
        have k2 := m.trans (k.ofSeq _)
        rw [show 1 + (1 + (2 * (c :: text).length - 1)) = 2 * (b :: c :: text).length - 1 by simp only [List.length_cons]; omega] at k2
        simpa [sendEvents] using k2
      · have k := hrun.trans (hq ▸ hrun')
        rw [show 2 + 2 * (c :: text).length = 2 * (b :: c :: text).length by simp only [List.length_cons]; omega] at k
        exact k

/-- Less room is asked for. -/
theorem Hears.less {depth : Nat} {bs q r : List Byte} (h : Hears depth bs q r) : Hears (depth - 1) bs q r :=
  ⟨h.silent, fun l => h.room (by omega), h.kept, h.longer, h.sub⟩

/-- The head of `RXF` stays where it is unless an overrun of a one-byte queue replaces it (20_memory.md R102). -/
theorem head_of_turn {n : Nat} {s e : State} {b : Byte} {later : List Byte} (h : TurnOf n s e) (hx : s.target.rxf = b :: later)
    (hd : 2 ≤ s.params.fifoDepth ∨ s.sched = []) : ∃ q, e.target.rxf = b :: q := by
  rcases hd with hd | hq
  · exact List.head?_eq_some_iff.mp (h.line.rxfHead hd b (by rw [hx]; rfl))
  · exact ⟨later, by rw [(h.quiet hq).1, hx]⟩

/-- A receive, counted from the poll's own turn, which finds a byte (41_uart.md R188). What is left of `RXF` is what the line leaves of
any earlier queue (`q`, after the bytes `bs`) without its head. -/
theorem readc_runs {p : Params} {b : Byte} {later : List Byte} (hp : s.params = p) (hl : s.lineOnly) (he : s.target.enabled = true)
    (hs : s.seq = .busy i w [.poll .rxReady, .memRead (regAddr p .muIo), .finish .received])
    (hx : (envTurn s).target.rxf = b :: later) (hd : 2 ≤ p.fifoDepth ∨ (envTurn s).sched = []) :
    ∃ (t : State) (v v' : Word), Ends 3 s t ∧ v.getLsbD 0 = true ∧ v'.extractLsb' 0 8 = b ∧ t.seq = .idle ∧
      t.params = p ∧ t.slots = s.slots ∧ t.uart = s.uart ∧ t.run = s.run ∧ t.fault = s.fault ∧ t.dly = s.dly ∧
      t.trace = s.trace ++ [.rd (regAddr p .muLsr) v, .rd (regAddr p .muIo) v'] ∧ t.cmdPort = s.cmdPort ∧
      t.responses = s.responses ++ [.value (zext32 b)] ∧ t.badCommand = s.badCommand ∧
      SamePins s.target t.target ∧ SameUartRegs s.target t.target ∧
      t.sched = (envTurn s).sched.drop 2 ∧ Drained ((envTurn s).drained 2) (envTurn s) t ∧
      ∀ bs q, Hears p.fifoDepth bs (b :: q) (envTurn s).target.rxf →
        Hears (p.fifoDepth - 1) (bs ++ (envTurn s).heard 2) q t.target.rxf := by
  subst hp
  have t1 := envTurn_turnOf s hl
  have he1 := enabled_of_line t1.line he
  obtain ⟨e1, hd1⟩ : ∃ e, e = envTurn s := ⟨_, rfl⟩
  rw [← hd1] at t1 he1 hx hd ⊢
  obtain ⟨r, hrd⟩ : ∃ r, r = lineStatus s.params e1.target (Config.drawWord e1.draws) := ⟨_, rfl⟩
  have hbit : r.bit .rxReady = true := by rw [hrd]; simp [lineStatus, ReadWord.bit, rxReady, hx]
  have hv : r.toWord.getLsbD 0 = true := (ReadWord.bit_eq .rxReady r).symm.trans hbit
  -- the poll
  obtain ⟨s1, hs1⟩ : ∃ s1, s1 = (e1.drawn.logEvent (.rd (regAddr s.params .muLsr) r.toWord)).withSeq
      (.busy i r [.memRead (regAddr s.params .muIo), .finish .received]) := ⟨_, rfl⟩
  have step1 : tick s = .next s1 := by
    rw [tick_busy hl hs, ← hd1, hs1]
    simp [perform, afterPoll, memRead, t1.line.params, regAt_regAddr s.params .muLsr (by simp), readReg, he1, ← hrd, hbit]
  have run1 := runs_of_tick step1 (by rw [hs1]; exact busy_not_parked _ _ _ rfl)
  have p1 : s1.params = s.params := by rw [hs1]; exact t1.line.params
  -- the read
  have hl1 : s1.lineOnly := by rw [hs1]; exact t1.line.lineOnly hl
  obtain ⟨e2, t2, run2⟩ := memRead_runs (s := s1) (a := regAddr s.params .muIo) (r := .muIo) hl1 (by rw [hs1]; rfl)
    (by rw [p1]; exact regAt_regAddr _ .muIo (by simp)) rfl
  obtain ⟨later2, hx2⟩ := head_of_turn t2 (b := b) (later := later) (by rw [hs1]; exact hx) (by rw [p1, hs1]; exact hd)
  have he2 : e2.target.enabled = true := enabled_of_line t2.line (by rw [hs1]; exact he1)
  obtain ⟨d, hdr⟩ : ∃ d, d = ReadWord.data ((Config.drawWord e2.draws).extractLsb' 8 24) b := ⟨_, rfl⟩
  have hrr : readReg .muIo e2 = (d, e2.drawn.withTarget { e2.target with rxf := later2 }) := by
    simp [readReg, he2, hx2, hdr]
  have hlow : d.toWord.extractLsb' 0 8 = b := (ReadWord.low_eq d).symm.trans (by rw [hdr]; rfl)
  rw [hrr] at run2
  -- the response
  obtain ⟨s2, hs2⟩ : ∃ s2, s2 = ((e2.drawn.withTarget { e2.target with rxf := later2 }).logEvent
    (.rd (regAddr s.params .muIo) d.toWord)).withSeq (.busy i d [.finish .received]) := ⟨_, rfl⟩
  rw [← hs2] at run2
  have hl2 : s2.lineOnly := by rw [hs2]; exact t2.line.lineOnly hl1
  obtain ⟨e3, t3, en⟩ := finish_ends (s := s2) (u := .received) hl2 (by rw [hs2]; rfl) id (fun e _ => rfl)
  have o2 : OnlyLine 1 e1 e2 := by
    have := t2.only
    rw [hs1] at this
    exact ⟨this.sched, ⟨this.tx.lineTx, this.tx.txf⟩, this.rxf⟩
  have u2 : SameUartRegs e1.target e2.target := by
    have := t2.line.uartRegs
    rw [hs1] at this
    exact ⟨this.auxenb, this.lcr, this.cntl, this.baud⟩
  have l2 := t2.line
  have l3 := t3.line
  have o3 := t3.only
  rw [hs1] at l2
  have hd3 : s2.drained 1 = e2.drained 1 := by rw [hs2]; rfl
  have hh3 : s2.heard 1 = e2.heard 1 := by rw [hs2]; rfl
  have tx3 := o3.tx
  have rx3 := o3.rxf
  have sc3 := o3.sched
  rw [hd3] at tx3
  rw [hh3, hs2] at rx3
  rw [hs2] at l3 sc3 tx3
  have q2 := l2.params.trans t1.line.params
  obtain ⟨f1, f2, f3, f4, f5⟩ := (t1.line.pins.trans l2.pins)
  obtain ⟨g1, g2, g3, g4, g5⟩ := l3.pins
  obtain ⟨h1, h2, h3, h4⟩ := (t1.line.uartRegs.trans l2.uartRegs)
  obtain ⟨k1, k2, k3, k4⟩ := l3.uartRegs
  refine ⟨_, r.toWord, d.toWord, (run1.trans run2).ends en, hv, hlow, rfl, l3.params.trans q2,
    l3.slots.trans (l2.slots.trans t1.line.slots), l3.uart.trans (l2.uart.trans t1.line.uart),
    l3.run.trans (l2.run.trans t1.line.run), l3.fault.trans (l2.fault.trans t1.line.fault),
    l3.dly.trans (l2.dly.trans t1.line.dly), ?_, l3.cmdPort.trans (l2.cmdPort.trans t1.line.cmdPort), ?_,
    l3.badCommand.trans (l2.badCommand.trans t1.line.badCommand),
    ⟨g1.trans f1, g2.trans f2, g3.trans f3, g4.trans f4, g5.trans f5⟩, ⟨k1.trans h1, k2.trans h2, k3.trans h3, k4.trans h4⟩, ?_, ?_, ?_⟩
  · show e3.trace = _
    rw [l3.trace]
    simp [l2.trace, t1.line.trace]
  · show e3.responses ++ [.value (zext32 d.low)] = _
    rw [l3.responses, hdr]
    exact congrArg (· ++ _) (l2.responses.trans t1.line.responses)
  · show e3.sched = _
    rw [sc3]
    show e2.sched.drop 1 = _
    rw [o2.sched, List.drop_drop]
  · rw [drained_congr u2 1 1 o2.sched]
    have := o2.tx.trans (c := e3) ⟨tx3.lineTx, tx3.txf⟩
    exact ⟨this.lineTx, this.txf⟩
  · intro bs q h
    have hh := h.trans (t1.line.params ▸ o2.rxf)
    rw [hx2] at hh
    rw [heard_congr u2 1 1 o2.sched, ← List.append_assoc]
    have hp2 : e2.params.fifoDepth = s.params.fifoDepth := by rw [show e2.params = s.params from q2]
    exact hh.tail.trans (hp2 ▸ rx3.less)

end

end Sys2Proof.Machine
end

