-- ==== Sys2Proof/Tests/Slice0.lean ====
section
/-! SUPPORT. Slice0.lean: the model's own tests, their expected results from the vectors of 95_test_vectors.md (named in each comment) or
computed by hand from the rules, and a witness for every obligation that has hypotheses. -/

open Sys2Proof Sys2Proof.Machine

namespace Sys2Proof.Tests

/-! ## Helpers -/

/-- What `f` reads in the next state. -/
def after {α : Type} (o : Host.Outcome State Fault Refusal) (f : State → α) : Option α :=
  match o with
  | .next t => some (f t)
  | .fault _ => none
  | .refused _ => none

theorem next_of_after {α : Type} {o : Host.Outcome State Fault Refusal} {f : State → α} {a : α} (h : after o f = some a) :
    ∃ t, o = .next t ∧ f t = a := by
  cases o with
  | next t => exact ⟨t, rfl, by simpa [after] using h⟩
  | fault e => simp [after] at h
  | refused e => simp [after] at h

/-- The state after reset with one GPIO context. -/
def led (slot : BitVec 8) (c : GpioContext) : State := State.reset.setContext slot c

/-- An output context without a pull. -/
def pinContext (pin : BitVec 6) : GpioContext := { valid := true, pin := pin, mode := 1, pull := 0, state := false }

/-- A target whose mini-UART is configured for 115200, with these queues. -/
def uartTarget (txf rxf : List Byte) : Target :=
  { Target.zero with auxenb := 1, cntl := 3, lcr := 3, baud := 270, txf := txf, rxf := rxf }

/-- A constructed transceiver with these queues. -/
def serial (txf rxf : List Byte) : State :=
  { State.reset with
    uart := { valid := true, baud := 115200, tx := uartPin Params.default 14, rx := uartPin Params.default 15 },
    target := uartTarget txf rxf }

/-- The same with a line that steps. -/
def lively (txf rxf : List Byte) : State := { serial txf rxf with sched := [[.rxArrive 0x31], [.txDrain, .rxArrive 0x32], [.txDrain]] }

/-- The same in the poll of a send. -/
def sending (b : Byte) (txf : List Byte) : State :=
  { serial txf [] with seq := .busy (.uartSendc b) (.plain 0) (.nop :: sendByte Params.default b ++ [.finish .sent]) }

/-- The same in the poll of a receive. -/
def receiving (rxf : List Byte) : State :=
  { serial [] rxf with
    seq := .busy .uartReadc (.plain 0) [.nop, .poll .rxReady, .memRead (regAddr Params.default .muIo), .finish .received] }

/-- With these words on the command port. -/
def fed (ws : List Word) : State := { State.reset with cmdPort := ws }

/-! ## WellFormed: each check refuses an ill-formed term -/

theorem wf_of_length (n : Nat) : (Instr.uartSendStr (List.replicate n 0)).wf = decide (n < 65536) := by simp [Instr.wf]
theorem test_wf_refuses_long_text : (Instr.uartSendStr (List.replicate 65536 0)).wf = false :=
  (wf_of_length 65536).trans (by decide +kernel)
theorem test_wf_accepts_longest_text : (Instr.uartSendStr (List.replicate 65535 0)).wf = true :=
  (wf_of_length 65535).trans (by decide +kernel)
theorem test_wf_refuses_unaligned_base : Params.baseWf { Params.default with periphBase := 0x3F000002 } = false := by decide
theorem test_wf_refuses_wrapping_base : Params.baseWf { Params.default with periphBase := 0xFFE00000 } = false := by decide
theorem test_wf_refuses_tx_pin : Params.pinsWf { Params.default with txPin := 54 } = false := by decide
theorem test_wf_refuses_rx_pin : Params.pinsWf { Params.default with rxPin := 63 } = false := by decide
theorem test_wf_refuses_unaligned_iir : Params.iirWf { Params.default with iirOffset := 0x215049 } = false := by decide
theorem test_wf_refuses_taken_iir : Params.iirWf { Params.default with iirOffset := 0x215054 } = false := by decide
theorem test_wf_refuses_no_fifo : Params.depthWf { Params.default with fifoDepth := 0 } = false := by decide
theorem test_wf_refuses_no_slot : Params.nslotWf { Params.default with nslot := 0 } = false := by decide
theorem test_wf_refuses_slots : Params.nslotWf { Params.default with nslot := 257 } = false := by decide
theorem test_wf_refuses_no_clock : Params.clockWf { Params.default with clockHz := 0 } = false := by decide
theorem test_wf_refuses_wide_clock : Params.clockWf { Params.default with clockHz := 4294967296 } = false := by decide
theorem test_wf_default : Params.default.wf = true := by decide

/-! ## Decoding: words written out from the formats of 30_encoding.md R118 and from 95_test_vectors.md 2.3, 2.5, 2.6 -/

-- opcode 0x10, slot 0x01, 00, pull 01, 0, mode 000, 00, pin 110101
theorem test_decode_gpioNew : decode [0b00010000000000010001000000110101] = .command (.gpioNew 1 53 0 1) [] := by decide
theorem test_decode_gpioNew_fields : decode [0x1002242F] = .command (.gpioNew 2 47 4 2) [] := by decide
theorem test_decode_gpioNew_slot : decode [0x10FF0000] = .command (.gpioNew 255 0 0 0) [] := by decide
theorem test_decode_gpioOn : decode [0b00010001000000010000000000000000] = .command (.gpioOn 1) [] := by decide
theorem test_decode_gpioOff : decode [0b00010010000000010000000000000000] = .command (.gpioOff 1) [] := by decide
theorem test_decode_gpioPullUp : decode [0b00010011000000010000000000000000] = .command (.gpioPullUp 1) [] := by decide
theorem test_decode_gpioPullDown : decode [0b00010100000000010000000000000000] = .command (.gpioPullDown 1) [] := by decide
theorem test_decode_gpioPullNeither : decode [0b00010101000000000000000000000000] = .command (.gpioPullNeither 0) [] := by decide
theorem test_decode_gpioDrop : decode [0b00010110000000100000000000000000] = .command (.gpioDrop 2) [] := by decide
theorem test_decode_uartNew : decode [0b00100000000000000000000000000000, 0x0001C200, 7] = .command (.uartNew 115200) [7] := by decide
theorem test_decode_uartSendc : decode [0b00100001000000000000000001000001] = .command (.uartSendc 0x41) [] := by decide
theorem test_decode_uartReadc : decode [0b00100010000000000000000000000000] = .command .uartReadc [] := by decide
-- "Hello"
theorem test_decode_uartSendStr :
    decode [0b00100011000000000000000000000101, 0x6C6C6548, 0x0000006F]
      = .command (.uartSendStr [0x48, 0x65, 0x6C, 0x6C, 0x6F]) [] := by decide
theorem test_decode_uartSendStr_ignores_rest : decode [0x23000002, 0xFFFF4241] = .command (.uartSendStr [0x41, 0x42]) [] := by decide
theorem test_decode_uartSendStr_waits : decode [0x2300FFFF, 0] = .incomplete := by decide +kernel
theorem test_decode_illegal :
    [0x10008115, 0x10000915, 0x10000195, 0x11000001, 0x1103FFFF, 0x17000000, 0x00000000, 0x01000000, 0x02000000, 0x20000001,
      0x21000141, 0x22000001, 0x23010002, (0xFFFFFFFF : Word)].all (fun w => decode [w, 5] == .illegal w [5]) = true := by decide +kernel
theorem test_encode_gpioNew : encode (.gpioNew 0 21 1 0) = [0x10000115] := by decide
theorem test_encode_uartSendStr : encode (.uartSendStr [0x48, 0x65, 0x6C, 0x6C, 0x6F]) = [0x23000005, 0x6C6C6548, 0x0000006F] := by
  decide
theorem test_decodeTableWord : decodeTableWord 64 0x0001C20020000000 = some (.uartNew 115200) := by decide

/-! ## The assembler (30_encoding.md R128, 95_test_vectors.md 2.3, 2.5, P1) -/

theorem test_assemble_gpioNew :
    (Asm.assemble ModeNames.default "gpio.new  s1, 53, alt5, up ; mode 2".toList).map encode = some [0x10011235] := by decide +kernel
theorem test_assemble_sendStr :
    (Asm.assemble ModeNames.default "uart.send_str \"A\\n\"".toList).map encode = some [0x23000002, 0x00000A41] := by decide +kernel
/-- The model's choices (log 19): no spelling of a double quote in a text. -/
theorem test_assemble_refuses_inner_quote :
    (Asm.assemble ModeNames.default "uart.send_str \"A\"B\"".toList, Asm.assemble ModeNames.default "uart.send_str \"A\\\"\"".toList)
      = (none, none) := by decide +kernel
theorem test_assemble_refuses_pull : Asm.assemble ModeNames.default "gpio.new s0, 21, 1, 3".toList = none := by decide +kernel

/-! ## One step of each operation -/

-- P4, events 1 to 8
theorem test_gpioNew_top_pin :
    after (exec (.gpioNew 1 53 0 1)
        { State.reset with target := { Target.zero with fsel := Target.zero.fsel.set 5 0x12345678 } }) State.trace
      = some [.rd 0x3F200014 0x12345678, .wr 0x3F200014 0x12345078, .wr 0x3F200094 1, .dl 150, .wr 0x3F20009C 0x00200000,
          .dl 150, .wr 0x3F200094 0, .wr 0x3F20009C 0] := by decide +kernel
-- 2.3, third row: the end state
theorem test_gpioNew_end :
    after (exec (.gpioNew 2 47 4 2) State.reset) (fun t => (t.slots[2]?, t.target.fsel[4], t.target.pull[47], t.target.pull[46], t.dly))
      = some (some { valid := true, pin := 47, mode := 4, pull := 2, state := false }, 0x00800000, 2, 0, 0) := by decide +kernel
-- 2.3: G[1] = {1, 31, 1, 0, 0}
theorem test_gpioOn_bit31 :
    after (exec (.gpioOn 1) (led 1 (pinContext 31))) (fun t => (t.trace, t.target.out, t.slots[1]?.map (·.state)))
      = some ([.wr 0x3F20001C 0x80000000], 0x80000000, some true) := by decide +kernel
-- 2.3: G[1] = {1, 32, 1, 0, 0}
theorem test_gpioOff_pin32 :
    after (exec (.gpioOff 1) { led 1 (pinContext 32) with target := { Target.zero with out := 0x3FFFFFFFFFFFFF } })
        (fun t => (t.trace, t.target.out)) = some ([.wr 0x3F20002C 1], 0x3FFFFEFFFFFFFF) := by decide +kernel
-- 2.3: gpio.pull_up s0
theorem test_gpioPullUp :
    after (exec (.gpioPullUp 0) (led 0 (pinContext 21))) (fun t => (t.trace, t.target.pull[21], t.slots[0]?.map (·.pull)))
      = some ([.wr 0x3F200094 1, .dl 150, .wr 0x3F200098 0x00200000, .dl 150, .wr 0x3F200094 0, .wr 0x3F200098 0], 1, some 1) := by
  decide +kernel
-- 40_gpio.md R142 with every clock bit 1 at launch (10_state.md R51 (a)): the code on the pin, and its register cleared
theorem test_gpioPullUp_clocked_launch :
    after (exec (.gpioPullUp 0) { led 0 (pinContext 21) with target := { Target.zero with pudclk := Vector.replicate 2 0xFFFFFFFF } })
        (fun t => (t.target.pull[21], t.target.pudclk[0], t.target.pudclk[1])) = some (1, 0, 0xFFFFFFFF) := by decide +kernel
-- P4, events 9 to 14
theorem test_gpioPullDown :
    after (exec (.gpioPullDown 1) (led 1 (pinContext 53))) (fun t => (t.trace, t.target.pull[53], t.target.pull[21], t.slots[1]?.map (·.pull)))
      = some ([.wr 0x3F200094 2, .dl 150, .wr 0x3F20009C 0x00200000, .dl 150, .wr 0x3F200094 0, .wr 0x3F20009C 0], 2, 0, some 2) := by
  decide +kernel
-- 2.3: gpio.pull_neither s0
theorem test_gpioPullNeither :
    after (exec (.gpioPullNeither 0)
        { led 0 { pinContext 21 with pull := 2 } with target := { Target.zero with pull := Target.zero.pull.set 21 2 } })
        (fun t => (t.trace.length, t.target.pull[21], t.slots[0]?.map (·.pull))) = some (6, 0, some 0) := by decide +kernel
-- 2.3: gpio.drop s0
theorem test_gpioDrop :
    after (exec (.gpioDrop 0) (led 0 (pinContext 21))) (fun t => (t.trace, t.slots[0]?.map (·.valid), t.responses))
      = some ([], some false, [.done]) := by decide +kernel
-- P2, events 1 to 23
theorem test_uartNew_trace :
    after (exec (.uartNew 115200) { State.reset with target := { Target.zero with auxenb := 2 } }) State.trace
      = some [.rd 0x3F215004 2, .wr 0x3F215004 3, .wr 0x3F215060 0, .wr 0x3F21504C 3, .wr 0x3F215068 0x10E,
          .rd 0x3F200004 0, .wr 0x3F200004 0x2000, .wr 0x3F200094 0, .dl 150, .wr 0x3F200098 0x4000, .dl 150, .wr 0x3F200094 0,
          .wr 0x3F200098 0, .rd 0x3F200004 0x2000, .wr 0x3F200004 0x12000, .wr 0x3F200094 0, .dl 150, .wr 0x3F200098 0x8000,
          .dl 150, .wr 0x3F200094 0, .wr 0x3F200098 0, .wr 0x3F215060 3, .wr 0x3F215048 6] := by decide +kernel
-- P2, the end state
theorem test_uartNew_end :
    after (exec (.uartNew 115200) { State.reset with target := { Target.zero with txf := [1, 2], rxf := [3] } })
        (fun t => (t.uart, t.target.baud, t.target.txf, t.target.rxf))
      = some ({ valid := true, baud := 115200, tx := { valid := true, pin := 14, mode := 2, pull := 0, state := false },
                rx := { valid := true, pin := 15, mode := 2, pull := 0, state := false } }, 270, [], []) := by decide +kernel
-- 40_gpio.md R143: four writes, two delays of one load and 150 counts, the context's update
theorem test_gpioPullUp_turns :
    after (exec (.gpioPullUp 0) { led 0 (pinContext 21) with sched := List.replicate 310 [] }) (fun t => t.sched.length) = some 3 := by
  decide +kernel
/-- A construction whose line steps before the FIFO clear, after it and once the operation is over. -/
def constructing : State :=
  { State.reset with
    target := uartTarget [1, 2] [3],
    sched := [.txDrain] :: List.replicate 621 [] ++ [[.rxArrive 4], [.rxArrive 5, .txDrain], [.rxArrive 6]] }
-- 41_uart.md R185, step 7: only the byte that arrived after the clear is left
theorem test_uartNew_arrivals :
    after (exec (.uartNew 115200) constructing) (fun t => (t.lineTx, t.target.txf, t.target.rxf, t.sched.length))
      = some ([1], [], [5], 1) := by decide +kernel
-- 2.5: uart.sendc 0xFF
theorem test_uartSendc :
    after (exec (.uartSendc 0xFF) (serial [] [])) (fun t => (t.target.txf, t.trace.getLast?, t.responses))
      = some ([0xFF], some (.wr 0x3F215040 0x000000FF), [.done]) := by decide +kernel
-- P6, event 3: no room, one poll and no response
theorem test_uartSendc_waits :
    after (exec (.uartSendc 0x42) { serial [0x41] [] with params := { Params.default with fifoDepth := 1 } })
        (fun t => (t.target.txf, t.trace.length, t.responses, t.run)) = some ([0x41], 1, [], true) := by decide +kernel
-- three turns of the line: a byte in; a byte out and a byte in; a byte out
theorem test_uartSendc_lively :
    after (exec (.uartSendc 0x42) (lively [1] [2])) (fun t => (t.lineTx, t.target.txf, t.target.rxf, t.sched))
      = some ([1, 0x42], [], [2, 0x31, 0x32], []) := by decide +kernel
-- 2.5: RXF = [0x80, 0x01]
theorem test_uartReadc :
    after (exec .uartReadc (serial [] [0x80, 0x01])) (fun t => (t.target.rxf, t.trace.length, t.responses))
      = some ([0x01], 2, [.value 0x00000080]) := by decide +kernel
-- P3: two polls fail, then the byte is there
theorem test_uartReadc_echo :
    after (step { receiving [] with sched := [[], [.rxArrive 0x58]] }) (fun t => (t.target.rxf, t.trace.length, t.responses))
      = some ([], 2, [.value 0x58]) := by decide +kernel
-- 2.5: uart.send_str "A\n"
theorem test_uartSendStr :
    after (exec (.uartSendStr [0x41, 0x0A]) (serial [] [])) (fun t => (t.target.txf, t.trace.length, t.responses))
      = some ([0x41, 0x0A], 4, [.done]) := by decide +kernel
-- P6: FIFO_DEPTH = 1, the line drains before the third poll
theorem test_uartSendStr_full :
    after (exec (.uartSendStr [0x41, 0x42])
        { serial [] [] with params := { Params.default with fifoDepth := 1 }, sched := [[], [], [.txDrain]] })
        (fun t => (t.lineTx, t.target.txf, t.responses)) = some ([0x41], [0x42], [.done]) := by decide +kernel

/-! ## Faults and their priority (95_test_vectors.md 2.7) -/

theorem test_faults :
    [([0x10000136], 3), ([0x1000013F], 3), ([0x10003115], 4), ([0x10040115], 2), ([0x10043136], 2), ([0x10003136], 3),
      ([0x11000000], 2), ([0x16020000], 2), ([0x21000041], 5), ([0x22000000], 5), ([0x23000000], 5), ([0x20000000, 0], 7),
      ([0x17000000], (1 : BitVec 8))].all (fun x : List Word × BitVec 8 =>
        after (step (fed x.1)) (fun t => (t.fault, t.run, t.responses, t.trace, t.target == Target.zero))
          == some (x.2, false, [.fault x.2], [], true)) = true := by decide +kernel
theorem test_uartExists_first :
    after (step { serial [] [] with cmdPort := [0x20000000, 0] }) State.fault = some 6 := by decide +kernel

/-! ## The register target (95_test_vectors.md 2.8) -/

theorem test_set_all_high_pins :
    (memWrite 0x3F200020 0xFFFFFFFF State.reset).toOption.map (·.target.out) = some 0x3FFFFF00000000 := by decide +kernel
theorem test_clr_keeps_zero_bits :
    (memWrite 0x3F200028 0xFFDFFFFF { State.reset with target := { Target.zero with out := 0x3FFFFFFFFFFFFF } }).toOption.map (·.target.out)
      = some 0x3FFFFF00200000 := by decide +kernel
-- stage, settle, clock: several clock bits latch several pins
theorem test_clock_two_pins :
    (memWrite 0x3F200098 0x18 { State.reset with
        target := { Target.zero with pud := 1 }, trace := [.wr 0x3F200094 1, .dl 150] }).toOption.map
      (fun t => (t.target.pull[3], t.target.pull[4], t.target.pull[5])) = some (1, 1, 0) := by decide +kernel
theorem test_settled : settledSince 0x3F200094 [.wr 0x3F200094 1, .dl 150] = true := by decide
theorem test_not_settled : settledSince 0x3F200094 [.wr 0x3F200094 1, .dl 149] = false := by decide
/-- Pin 3 clocked with pull-up, its hold delay passed: what is left of the pull sequence is the clean-up. -/
def clocked : State :=
  { State.reset with
    target := { Target.zero with pud := 1, pudclk := #v[8, 0], pull := Target.zero.pull.set 3 1 }
    trace := [.wr 0x3F200094 1, .dl 150, .wr 0x3F200098 8, .dl 150] }
-- 95_test_vectors.md 2.8: the first clear keeps the code
theorem test_clear_keeps : (memWrite 0x3F200094 0 clocked).toOption.map (fun t => t.target.pull[3]) = some 1 := by decide +kernel
-- 70_reset_and_hazards.md R253, R73: PUD written again, or staged anew, under the clock bit; a bit that is 1 at launch
theorem test_stage_reaches :
    stageReaches (clocked.logEvent (.wr 0x3F200094 0)) 0 3 = true ∧ stageReaches clocked 1 3 = true ∧
      stageReaches { clocked with trace := [.dl 150] } 0 3 = true ∧ stageReaches clocked 1 4 = false := by decide
-- a clock bit that is 1 at launch: a write of PUDCLK breaks its hold, but not once any settle delay has passed
theorem test_held_launch : (heldSince 0x3F200098 [], heldSince 0x3F200098 [.wr 0x3F200094 1, .dl 150]) = (false, true) := by decide
theorem test_held_write : heldSince 0x3F200098 [.wr 0x3F200094 1, .dl 150, .wr 0x3F200098 8, .dl 149] = false := by decide
theorem test_lsr_write_refused : memWrite 0x3F215054 0 State.reset = .error (.lineStatusWrite 0) := by decide +kernel
theorem test_gap_refused : memWrite 0x3F200018 0 State.reset = .error (.unmappedAddress 0x3F200018) := by decide +kernel
theorem test_fifo_clear :
    (memWrite 0x3F215048 6 (serial [1, 2] [3])).toOption.map (fun t => (t.target.txf, t.target.rxf)) = some ([], []) := by decide +kernel
theorem test_drain : (serial [1, 2] []).txDrain.lineTx = [1] := by decide
theorem test_no_drain_when_disabled :
    State.txDrain { serial [1] [] with target := { uartTarget [1] [] with cntl := 0 } } =
      { serial [1] [] with target := { uartTarget [1] [] with cntl := 0 } } := by decide
-- 2.4
theorem test_divisor : [115200, 9600, 300, 1, 15625000, 15625001, 31250000].map (computeDivisor 250000000)
    = [270, 3254, 104165, 31249999, 1, 0, 0] := by decide
-- 2.1
theorem test_addresses :
    [0, 9, 31, 32, 49, 53].map (fun p => (fselAddr Params.default p, setAddr Params.default p, pinBit p))
      = [(0x3F200000, 0x3F20001C, 0x1), (0x3F200000, 0x3F20001C, 0x200), (0x3F20000C, 0x3F20001C, 0x80000000),
         (0x3F20000C, 0x3F200020, 0x1), (0x3F200010, 0x3F200020, 0x20000), (0x3F200014, 0x3F200020, 0x200000)] := by decide
-- 2.2
theorem test_rmw : rmwWord 0xDEADBEEF (fselField 9) (fselCode 9 5) = 0xEEADBEEF := by decide

/-! ## Witnesses: for each obligation with hypotheses, a concrete state and operands that meet all of them, for each clause -/

theorem lineOnly_of {s : State} (h : (s.sched.all fun es => es.all fun e => !e.isReset) = true) : s.lineOnly := by
  intro es hes e he
  have := List.all_eq_true.mp (List.all_eq_true.mp h es hes) e he
  simpa using this

theorem ready_led (slot : BitVec 8) (c : GpioContext) : (led slot c).ready := ⟨rfl, rfl⟩
theorem ready_serial (txf rxf : List Byte) : (serial txf rxf).ready := ⟨rfl, rfl⟩
theorem ready_lively (txf rxf : List Byte) : (lively txf rxf).ready := ⟨rfl, rfl⟩
theorem ready_fed (ws : List Word) : (fed ws).ready := ⟨rfl, rfl⟩
theorem lineOnly_led (slot : BitVec 8) (c : GpioContext) : (led slot c).lineOnly := lineOnly_of rfl
theorem lineOnly_serial (txf rxf : List Byte) : (serial txf rxf).lineOnly := lineOnly_of rfl
theorem lineOnly_lively (txf rxf : List Byte) : (lively txf rxf).lineOnly := lineOnly_of rfl

theorem test_witness_DecodeReadsWhatEncodeWrites :
    (Instr.gpioNew 255 63 7 3).wf = true ∧ (Instr.uartSendStr []).wf = true ∧ (Instr.uartSendStr (List.replicate 65535 0)).wf = true :=
  ⟨rfl, rfl, test_wf_accepts_longest_text⟩
theorem test_witness_IllegalExactlyWhenNoRowMatches :
    (∀ r ∈ opcodeMap, r.selects 0x10008115 = false) ∧ (∃ r ∈ opcodeMap, r.selects 0x2300FFFF = true) := by decide
theorem test_witness_DecodedCommandTakesItsWords :
    decode [0x23000005, 0x6C6C6548, 0x0000006F, 0x11000000]
      = .command (.uartSendStr [0x48, 0x65, 0x6C, 0x6C, 0x6F]) [0x11000000] := by decide
theorem test_witness_CommandLengths :
    (∀ baud, Instr.gpioOn 0 ≠ .uartNew baud) ∧ (∀ text, Instr.gpioOn 0 ≠ .uartSendStr text) := by simp
theorem test_witness_TextBytesLieLittleEndian :
    ((0 : Nat) < 65536 ∧ ([] : List Word).length = textWords 0) ∧ ((4 : Nat) < 65536 ∧ [(0x44434241 : Word)].length = textWords 4) ∧
      ((5 : Nat) < 65536 ∧ [(0x6C6C6548 : Word), 0xFFFFFF6F].length = textWords 5) := by decide
theorem test_witness_TextBytes_longest : (65535 : Nat) < 65536 ∧ (List.replicate 16384 (0 : Word)).length = textWords 65535 := by
  rw [List.length_replicate]
  decide +kernel
theorem test_witness_StepRunsTheDecodedCommand :
    (Instr.uartNew 115200).wf = true ∧ (fed [0x20000000, 0x0001C200, 7]).ready ∧
      (fed [0x20000000, 0x0001C200, 7]).cmdPort = encode (.uartNew 115200) ++ [7] := ⟨rfl, ready_fed _, rfl⟩
theorem test_witness_IllegalCommandHalts :
    (fed [0x20000001, 0x0001C200]).ready ∧ (fed [0x20000001, 0x0001C200]).cmdPort = 0x20000001 :: [0x0001C200] ∧
      ∀ r ∈ opcodeMap, r.selects 0x20000001 = false := ⟨ready_fed _, rfl, by decide⟩
theorem test_witness_IncompleteCommandIsWaitedFor :
    (fed [0x20000000]).ready ∧ (fed [0x20000000]).lineOnly ∧ decode (fed [0x20000000]).cmdPort = .incomplete ∧
      (fed []).ready ∧ (fed []).lineOnly ∧ decode (fed []).cmdPort = .incomplete ∧ (fed []).sched = [] ∧
      ((lively [1] []).ready ∧ (lively [1] []).lineOnly ∧ decode (lively [1] []).cmdPort = .incomplete ∧
        (lively [1] []).sched = [.rxArrive 0x31] :: [[.txDrain, .rxArrive 0x32], [.txDrain]]) :=
  ⟨ready_fed _, lineOnly_of rfl, by decide, ready_fed _, lineOnly_of rfl, rfl, rfl, ready_lively _ _, lineOnly_lively _ _, rfl, rfl⟩
theorem test_witness_HaltedSequencerIsFrozen :
    (((lively [1] []).raise .badPin).run = false ∧ ((lively [1] []).raise .badPin).lineOnly ∧
      ((lively [1] []).raise .badPin).sched = [.rxArrive 0x31] :: [[.txDrain, .rxArrive 0x32], [.txDrain]]) ∧
    ((serial [1] []).raise .badPin).sched = [] := ⟨⟨rfl, lineOnly_of rfl, rfl⟩, rfl⟩
theorem test_witness_GpioNewChecksItsOperands :
    State.reset.ready ∧ State.reset.params.nslot ≤ (4 : BitVec 8).toNat ∧
      ((3 : BitVec 8).toNat < State.reset.params.nslot ∧ 53 < (54 : BitVec 6).toNat) ∧
      ((3 : BitVec 8).toNat < State.reset.params.nslot ∧ (53 : BitVec 6).toNat ≤ 53 ∧ (3 : BitVec 2) = 3) :=
  ⟨⟨rfl, rfl⟩, by decide, by decide, by decide⟩
theorem test_witness_BadSlotIsRaised :
    State.reset.ready ∧ State.reset.params.nslot ≤ (4 : BitVec 8).toNat ∧
      (∃ c, State.reset.slots[(3 : BitVec 8).toNat]? = some c ∧ c.valid = false) := ⟨⟨rfl, rfl⟩, by decide, .absent, rfl, rfl⟩
theorem test_witness_UartMustBeConstructedOnce :
    (State.reset.ready ∧ State.reset.uart.valid = false) ∧ ((serial [] []).ready ∧ (serial [] []).uart.valid = true) :=
  ⟨⟨⟨rfl, rfl⟩, rfl⟩, ready_serial _ _, rfl⟩
theorem test_witness_BadBaudIsRaised :
    State.reset.ready ∧ State.reset.uart.valid = false ∧ State.reset.params.clockHz < 8 * (31250001 : Word).toNat ∧
      ((31250000 : Word) ≠ 0 ∧ 8 * (31250000 : Word).toNat ≤ State.reset.params.clockHz) := ⟨⟨rfl, rfl⟩, rfl, by decide, by decide⟩
theorem test_witness_GpioNewConstructs :
    (53 : BitVec 6).toNat ≤ 53 ∧ (lively [1] [2]).ready ∧ (lively [1] [2]).lineOnly ∧
      (3 : BitVec 8).toNat < (lively [1] [2]).params.nslot ∧ (lively [1] [2]).slots.length = (lively [1] [2]).params.nslot ∧
      (2 : BitVec 2) ≠ 3 ∧ (53 : Fin 54).val = (53 : BitVec 6).toNat ∧
      ((52 : Fin 54).val ≠ (53 : BitVec 6).toNat ∧ pairBit (lively [1] [2]).target.pudclk 52 = false) :=
  ⟨by decide, ready_lively _ _, lineOnly_lively _ _, by decide, rfl, by decide, by decide, by decide, by decide⟩
theorem test_witness_GpioOnSetsOneLatch :
    (led 3 (pinContext 31)).ready ∧ (led 3 (pinContext 31)).lineOnly ∧ (led 3 (pinContext 31)).context 3 = some (pinContext 31) :=
  ⟨ready_led _ _, lineOnly_led _ _, by decide⟩
theorem test_witness_GpioOffClearsOneLatch :
    (led 0 (pinContext 32)).ready ∧ (led 0 (pinContext 32)).lineOnly ∧ (led 0 (pinContext 32)).context 0 = some (pinContext 32) :=
  ⟨ready_led _ _, lineOnly_led _ _, by decide⟩
theorem test_witness_PullOperationsLatchTheirCode :
    (led 1 (pinContext 53)).ready ∧ (led 1 (pinContext 53)).lineOnly ∧ (led 1 (pinContext 53)).context 1 = some (pinContext 53) ∧
      (53 : Fin 54).val = (pinContext 53).pin.toNat ∧ ((0 : Fin 54).val ≠ (pinContext 53).pin.toNat ∧ pairBit (led 1 (pinContext 53)).target.pudclk 0 = false) :=
  ⟨ready_led _ _, lineOnly_led _ _, by decide, by decide, by decide, by decide⟩
theorem test_witness_GpioDropTouchesNoRegister :
    (led 2 (pinContext 0)).ready ∧ (led 2 (pinContext 0)).lineOnly ∧ (led 2 (pinContext 0)).context 2 = some (pinContext 0) :=
  ⟨ready_led _ _, lineOnly_led _ _, by decide⟩
theorem test_witness_OnThenOffLeavesOtherPins :
    (led 2 (pinContext 53)).ready ∧ (led 2 (pinContext 53)).lineOnly ∧ (led 2 (pinContext 53)).context 2 = some (pinContext 53) ∧
      (2 : BitVec 8).toNat < (led 2 (pinContext 53)).slots.length := ⟨ready_led _ _, lineOnly_led _ _, by decide, by decide⟩
theorem test_witness_DivisorIsTheFloor :
    badBaud 250000000 31250000 = false ∧ badBaud 8 1 = false ∧ Params.default.wf = true ∧
      badBaud Params.default.clockHz (1 : Word).toNat = false := by decide
theorem test_witness_UartNewConstructs :
    State.reset.params.txPin.toNat ≤ 53 ∧ State.reset.params.rxPin.toNat ≤ 53 ∧ State.reset.ready ∧ State.reset.lineOnly ∧
      State.reset.params.wf = true ∧ State.reset.uart.valid = false ∧
      badBaud State.reset.params.clockHz (31250000 : Word).toNat = false ∧
      ((14 : Fin 54).val = State.reset.params.txPin.toNat ∧ (15 : Fin 54).val = State.reset.params.rxPin.toNat) ∧
      ((16 : Fin 54).val ≠ State.reset.params.txPin.toNat ∧ (16 : Fin 54).val ≠ State.reset.params.rxPin.toNat ∧
        pairBit State.reset.target.pudclk 16 = false) :=
  ⟨by decide, by decide, ⟨rfl, rfl⟩, lineOnly_of rfl, by decide, rfl, by decide, by decide, by decide⟩
-- a byte arrives after the clear, and there is room for it
theorem test_witness_UartNewConstructs_arrivals :
    constructing.ready ∧ constructing.lineOnly ∧ constructing.params.wf = true ∧ constructing.uart.valid = false ∧
      ((constructing.sched.drop 623).take 1).flatten.filterMap EnvStep.arrival = [5] ∧
      ([] : List Byte).length + [(5 : Byte)].length ≤ constructing.params.fifoDepth ∧
      ((State.reset.sched.drop 623).take 1).flatten.filterMap EnvStep.arrival = [] :=
  ⟨⟨rfl, rfl⟩, lineOnly_of (by decide +kernel), by decide, rfl, by decide +kernel, by decide, rfl⟩
-- what the line is said to do where nothing arrives, and where what arrives fills the queue
theorem test_witness_OnlyLine :
    (serial [1] [2]).heard 3 = [] ∧ (serial [1] [2]).drained 3 = 0 ∧
      (lively [1] [1, 2, 3, 4, 5, 6]).heard 2 = [0x31, 0x32] ∧ (lively [1] [1, 2, 3, 4, 5, 6]).drained 2 = 1 ∧
      (lively [1] [1, 2, 3, 4, 5, 6]).target.rxf.length + ((lively [1] [1, 2, 3, 4, 5, 6]).heard 2).length
        ≤ (lively [1] [1, 2, 3, 4, 5, 6]).params.fifoDepth := by decide
-- one place left in the FIFO, and a line that steps
theorem test_witness_SendcSendsOneByte :
    (lively [1, 2, 3, 4, 5, 6, 7] []).ready ∧ (lively [1, 2, 3, 4, 5, 6, 7] []).lineOnly ∧
      (lively [1, 2, 3, 4, 5, 6, 7] []).params.wf = true ∧ (lively [1, 2, 3, 4, 5, 6, 7] []).uart.valid = true ∧
      (lively [1, 2, 3, 4, 5, 6, 7] []).target.enabled = true ∧
      txReady (lively [1, 2, 3, 4, 5, 6, 7] []).params (lively [1, 2, 3, 4, 5, 6, 7] []).target = true :=
  ⟨ready_lively _ _, lineOnly_lively _ _, by decide, rfl, by decide, by decide⟩
theorem test_witness_ReadcReturnsTheOldestByte :
    (lively [] [0x80, 1]).ready ∧ (lively [] [0x80, 1]).lineOnly ∧ (lively [] [0x80, 1]).params.wf = true ∧
      (lively [] [0x80, 1]).uart.valid = true ∧ (lively [] [0x80, 1]).target.enabled = true ∧
      (lively [] [0x80, 1]).target.rxf = 0x80 :: [1] ∧ 2 ≤ (lively [] [0x80, 1]).params.fifoDepth :=
  ⟨ready_lively _ _, lineOnly_lively _ _, by decide, rfl, by decide, rfl, by decide⟩
-- the whole FIFO filled by one text
theorem test_witness_SendStrSendsTheWholeText :
    (lively [] []).ready ∧ (lively [] []).lineOnly ∧ (lively [] []).params.wf = true ∧ (lively [] []).params.txStatus = .notFull ∧
      (lively [] []).uart.valid = true ∧ (lively [] []).target.enabled = true ∧
      (lively [] []).target.txf.length + [(1 : Byte), 2, 3, 4, 5, 6, 7, 8].length ≤ (lively [] []).params.fifoDepth :=
  ⟨ready_lively _ _, lineOnly_lively _ _, by decide, rfl, rfl, by decide, by decide⟩
theorem test_witness_SendStrOfNothing :
    (lively [1] [2]).ready ∧ (lively [1] [2]).lineOnly ∧ (lively [1] [2]).uart.valid = true := ⟨ready_lively _ _, lineOnly_lively _ _, rfl⟩
theorem test_witness_SendStrIsSendcForEachByte :
    (serial [] []).ready ∧ (serial [] []).sched = [] ∧ (serial [] []).uart.valid = true ∧
      ∃ t, sendEach [0x41, 0x42] (serial [] []) = .next t ∧ t.seq = .idle :=
  ⟨ready_serial _ _, rfl, rfl, next_of_after (f := State.seq) (by decide +kernel)⟩
-- no room for the first byte; and room for two of the three bytes of a text
theorem test_witness_SendBlocksWithoutRoom :
    (((∃ b, Instr.uartSendc 0x41 = .uartSendc b) ∧ ([] : List Byte) = []) ∧
      (∃ b later, Instr.uartSendStr [0x41] = .uartSendStr ([] ++ b :: later)) ∧
      (serial [1, 2, 3, 4, 5, 6, 7, 8] []).ready ∧ (serial [1, 2, 3, 4, 5, 6, 7, 8] []).sched = [] ∧
      (serial [1, 2, 3, 4, 5, 6, 7, 8] []).uart.valid = true ∧ (serial [1, 2, 3, 4, 5, 6, 7, 8] []).target.enabled = true ∧
      txReady (serial [1, 2, 3, 4, 5, 6, 7, 8] []).params (serial [1, 2, 3, 4, 5, 6, 7, 8] []).target = false) ∧
    ((∃ b later, Instr.uartSendStr [0x41, 0x42, 0x43] = .uartSendStr ([0x41, 0x42] ++ b :: later)) ∧
      (serial [1, 2, 3, 4, 5, 6] []).ready ∧ (serial [1, 2, 3, 4, 5, 6] []).sched = [] ∧
      (serial [1, 2, 3, 4, 5, 6] []).uart.valid = true ∧ (serial [1, 2, 3, 4, 5, 6] []).target.enabled = true ∧
      1 ≤ (serial [1, 2, 3, 4, 5, 6] []).params.fifoDepth ∧
      (∀ n < [(0x41 : Byte), 0x42].length, txReady (serial [1, 2, 3, 4, 5, 6] []).params
        { (serial [1, 2, 3, 4, 5, 6] []).target with txf := (serial [1, 2, 3, 4, 5, 6] []).target.txf ++ [0x41, 0x42].take n } = true) ∧
      txReady (serial [1, 2, 3, 4, 5, 6] []).params
        { (serial [1, 2, 3, 4, 5, 6] []).target with txf := (serial [1, 2, 3, 4, 5, 6] []).target.txf ++ [0x41, 0x42] } = false) :=
  ⟨⟨⟨⟨_, rfl⟩, rfl⟩, ⟨_, _, rfl⟩, ready_serial _ _, rfl, rfl, by decide, by decide⟩,
    ⟨_, _, rfl⟩, ready_serial _ _, rfl, rfl, by decide, by decide, by decide, by decide⟩
theorem test_witness_ReadBlocksWithoutData :
    (serial [1] []).ready ∧ (serial [1] []).sched = [] ∧ (serial [1] []).uart.valid = true ∧ (serial [1] []).target.enabled = true ∧
      (serial [1] []).target.rxf = [] := ⟨ready_serial _ _, rfl, rfl, by decide, rfl⟩
/-- A send that waits at a full FIFO, of which the line takes a byte in its turn before the next poll. -/
def sendingFull : State := { sending 0x41 [1, 2, 3, 4, 5, 6, 7, 8] with sched := [[], [.txDrain], [.rxArrive 7]] }
/-- A receive that waits at an empty FIFO, into which a byte comes before the next poll. -/
def receivingNone : State := { receiving [] with sched := [[], [.rxArrive 0x58], [.rxArrive 0x59]] }
/-- A text that waits at a full FIFO before its last bytes, of which the line takes two bytes before the next poll. -/
def resending (text remaining : List Byte) : State :=
  { serial [1, 2, 3, 4, 5, 6, 7, 8] [] with
    sched := [[.txDrain], [.txDrain]],
    seq := .busy (.uartSendStr text) (.plain 0) (.nop :: remaining.flatMap (sendByte Params.default) ++ [.finish .sent]) }
theorem test_witness_BlockedOperationsGoOn :
    (sendingFull.run = true ∧ sendingFull.lineOnly ∧ sendingFull.params.wf = true ∧ sendingFull.target.enabled = true ∧
      sendingFull.seq = .busy (.uartSendc 0x41) (.plain 0) (.nop :: sendByte sendingFull.params 0x41 ++ [.finish .sent]) ∧
      txReady sendingFull.params sendingFull.target = false ∧
      txReady sendingFull.params (envTurn (envTurn sendingFull)).target = true) ∧
    (receivingNone.run = true ∧ receivingNone.lineOnly ∧ receivingNone.params.wf = true ∧ receivingNone.target.enabled = true ∧
      receivingNone.seq
        = .busy .uartReadc (.plain 0) [.nop, .poll .rxReady, .memRead (regAddr receivingNone.params .muIo), .finish .received] ∧
      receivingNone.target.rxf = [] ∧ (envTurn (envTurn receivingNone)).target.rxf = 0x58 :: [] ∧
      2 ≤ receivingNone.params.fifoDepth) :=
  ⟨⟨rfl, lineOnly_of rfl, by decide, by decide, rfl, by decide, by decide⟩,
    rfl, lineOnly_of rfl, by decide, by decide, rfl, rfl, by decide, by decide⟩
theorem test_witness_BlockedOperationsGoOn_text :
    (resending [0x40, 0x41, 0x42] [0x41, 0x42]).run = true ∧ (resending [0x40, 0x41, 0x42] [0x41, 0x42]).lineOnly ∧
      (resending [0x40, 0x41, 0x42] [0x41, 0x42]).params.wf = true ∧
      (resending [0x40, 0x41, 0x42] [0x41, 0x42]).params.txStatus = .notFull ∧
      (resending [0x40, 0x41, 0x42] [0x41, 0x42]).target.enabled = true ∧ [(0x41 : Byte), 0x42] ≠ [] ∧
      (resending [0x40, 0x41, 0x42] [0x41, 0x42]).seq = .busy (.uartSendStr [0x40, 0x41, 0x42]) (.plain 0)
        (.nop :: [(0x41 : Byte), 0x42].flatMap (sendByte (resending [0x40, 0x41, 0x42] [0x41, 0x42]).params) ++ [.finish .sent]) ∧
      (envTurn (envTurn (resending [0x40, 0x41, 0x42] [0x41, 0x42]))).target.txf.length + [(0x41 : Byte), 0x42].length
        ≤ (resending [0x40, 0x41, 0x42] [0x41, 0x42]).params.fifoDepth :=
  ⟨rfl, lineOnly_of rfl, by decide, rfl, by decide, by decide, rfl, by decide⟩
-- room for two of the three bytes that remain
theorem test_witness_BlockedOperationsGoOn_waitsAgain :
    let s := resending [0x41, 0x42, 0x43] ([0x41, 0x42] ++ 0x43 :: [])
    s.run = true ∧ s.lineOnly ∧ s.params.wf = true ∧ s.target.enabled = true ∧
      s.seq = .busy (.uartSendStr [0x41, 0x42, 0x43]) (.plain 0)
        (.nop :: ([(0x41 : Byte), 0x42] ++ 0x43 :: []).flatMap (sendByte s.params) ++ [.finish .sent]) ∧
      (envTurn (envTurn s)).sched = [] ∧
      (∀ n < [(0x41 : Byte), 0x42].length, txReady s.params { (envTurn (envTurn s)).target with
        txf := (envTurn (envTurn s)).target.txf ++ [0x41, 0x42].take n } = true) ∧
      txReady s.params { (envTurn (envTurn s)).target with txf := (envTurn (envTurn s)).target.txf ++ [0x41, 0x42] } = false :=
  ⟨rfl, lineOnly_of rfl, by decide, by decide, rfl, by decide, by decide, by decide⟩
theorem test_witness_WritesStoreTheWholeWord : (serial [1] [2]).target.enabled = true := by decide
-- the clause about a write of SET before, at the top pin and at the word boundary
theorem test_witness_SetWriteSetsLatches : (21 < 32 ∧ 32 * (1 : Fin 2).val + 21 ≤ 53) ∧ (31 < 54 ∧ 31 / 32 ≠ (1 : Fin 2).val) := by decide
theorem test_witness_ClrWriteClearsLatches :
    ∃ s, memWrite (regAddr State.reset.params (.set 1)) 0x00200000 State.reset = .ok s ∧
      ((31 : Nat) < 54 ∧ 31 / 32 ≠ (1 : Fin 2).val) ∧ ((52 : Nat) < 54 ∧ (0x00200000 : Word).getLsbD (52 % 32) = false) :=
  ⟨_, rfl, by decide, by decide⟩
theorem test_witness_LineStatusTellsTheQueues :
    (serial [] []).target.enabled = true ∧ (serial [] []).params.txStatus = .notFull ∧
      Params.txStatus { Params.default with txStatus := .fifoEmpty } = .fifoEmpty := ⟨by decide, rfl, rfl⟩
theorem test_witness_DataReadPops :
    ((serial [] [0x58]).target.enabled = true ∧ (serial [] [0x58]).target.rxf = 0x58 :: []) ∧
      ((serial [] []).target.enabled = true ∧ (serial [] []).target.rxf = []) ∧
      (State.reset.target.enabled = false ∧ State.reset.params.wf = true ∧
        Reg.muIir ∈ [Reg.muIo, .muIir, .muLcr, .muLsr, .muCntl, .muBaud]) :=
  ⟨⟨by decide, rfl⟩, ⟨by decide, rfl⟩, by decide, by decide, by decide⟩
theorem test_witness_DataWritePushes :
    ((serial [1, 2, 3, 4, 5, 6, 7] []).target.enabled = true ∧
      (serial [1, 2, 3, 4, 5, 6, 7] []).target.txf.length < (serial [1, 2, 3, 4, 5, 6, 7] []).params.fifoDepth) ∧
    ((serial [1, 2, 3, 4, 5, 6, 7, 8] []).target.enabled = true ∧
      (serial [1, 2, 3, 4, 5, 6, 7, 8] []).params.fifoDepth ≤ (serial [1, 2, 3, 4, 5, 6, 7, 8] []).target.txf.length) ∧
    (State.reset.target.enabled = false ∧ State.reset.params.wf = true) := by decide
theorem test_witness_FifoClearEmptiesBoth :
    (serial [1] [2]).params.wf = true ∧ (serial [1] [2]).target.enabled = true ∧ (6 : Word) = (serial [1] [2]).params.fifoClearCode ∧
      (7 : Word) ≠ (serial [1] [2]).params.fifoClearCode := by decide
theorem test_witness_TraceTestsSayWhatFollowsTheLastWrite :
    settledSince 0x3F200094 [.wr 0x3F200094 1, .wr 0x3F200094 2, .dl 150, .rd 0x3F200000 0, .wr 0x3F200098 8] = true ∧
      settledSince 0x3F200098 [.wr 0x3F200094 1, .dl 150] = false ∧ heldSince 0x3F200098 [.wr 0x3F200094 1, .dl 150] = true ∧
      (0x3F200094 : Word) ≠ 0x3F200098 ∧ restagedSince 0x3F200094 0x3F200098 [.wr 0x3F200098 8, .wr 0x3F200094 0, .dl 150] = true := by decide
/-- Pull-up staged for the set-up delay, no clock bit set. -/
def staged : State := { State.reset with target := { Target.zero with pud := 1 }, trace := [.wr 0x3F200094 1, .dl 150] }
theorem test_witness_ClockWriteLatchesStagedCode :
    holdBroken staged 53 = false ∧
      ((53 : Fin 54).val / 32 = (1 : Fin 2).val ∧ (0x00200000 : Word).getLsbD ((53 : Fin 54).val % 32) = true ∧
        staged.target.pud.extractLsb' 0 2 ≠ 3 ∧ settledSince (regAddr staged.params .pud) staged.trace = true) ∧
      ((21 : Fin 54).val / 32 ≠ (1 : Fin 2).val) ∧ (0x00200000 : Word).getLsbD ((52 : Fin 54).val % 32) = false ∧
      ({ staged with target := { staged.target with pud := 3 } } : State).target.pud.extractLsb' 0 2 = 3 ∧
      settledSince (regAddr staged.params .pud) [.wr 0x3F200094 1, .dl 149] = false ∧
      holdBroken { clocked with trace := [.wr 0x3F200098 8] } 3 = true := by decide
theorem test_witness_StageWriteReachesClockedPins :
    pairBit clocked.target.pudclk 4 = false ∧
      ((0 : Word).extractLsb' 0 2 = 0 ∧ settledSince (regAddr clocked.params (.pudclk (pairIndex 3))) clocked.trace = true ∧
        restagedSince (regAddr clocked.params .pud) (regAddr clocked.params (.pudclk (pairIndex 3))) clocked.trace = false) ∧
      pairBit clocked.target.pudclk 3 = true ∧ (1 : Word).extractLsb' 0 2 ≠ 0 := by decide
theorem test_witness_UndescribedReadsChangeNothing :
    State.reset.params.wf = true ∧
      Reg.muIir ∈ [Reg.set 0, .set 1, .clr 0, .clr 1, .pud, .pudclk 0, .pudclk 1, .muIir, .muLcr, .muCntl, .muBaud] := by decide
theorem test_witness_OnlyMappedAddressesAnswer :
    (∀ r, regAddr State.reset.params r ≠ 0x3F200018) ∧ (∃ r, regAddr State.reset.params r = 0x3F215068) := by
  refine ⟨fun r => ?_, .muBaud, by decide⟩
  cases r with
  | fsel n => revert n; decide
  | set n => revert n; decide
  | clr n => revert n; decide
  | pudclk n => revert n; decide
  | _ => decide
theorem test_witness_AddressesDifferAndOnlyMuIirMayWrap :
    Params.default.wf = true ∧ Params.default.iirOffset.toNat ≤ 0x21506C ∧ regAddr Params.default .pud = regAddr Params.default .pud ∧ (53 : BitVec 6).toNat ≤ 53 := by decide
-- the highest base the parameters allow
theorem test_witness_highest_base : Params.wf { Params.default with periphBase := 0xFFDEAF90 } = true := by decide
theorem test_witness_TxDrainMovesTheHead :
    ((serial [1, 2] []).target.auxenb.getLsbD 0 = true ∧ (serial [1, 2] []).target.cntl.getLsbD 1 = true ∧
      (serial [1, 2] []).target.txf = 1 :: [2]) ∧
    (State.reset.target.auxenb.getLsbD 0 = false ∧ State.reset.target.cntl.getLsbD 1 = false ∧ State.reset.target.txf = []) := by decide
theorem test_witness_RxArriveAppends :
    ((serial [] [1]).target.auxenb.getLsbD 0 = true ∧ (serial [] [1]).target.cntl.getLsbD 0 = true ∧
      (serial [] [1]).target.rxf.length < (serial [] [1]).params.fifoDepth) ∧
    ((serial [] [1, 2, 3, 4, 5, 6, 7, 8]).target.auxenb.getLsbD 0 = true ∧
      (serial [] [1, 2, 3, 4, 5, 6, 7, 8]).target.cntl.getLsbD 0 = true ∧
      (serial [] [1, 2, 3, 4, 5, 6, 7, 8]).params.fifoDepth ≤ (serial [] [1, 2, 3, 4, 5, 6, 7, 8]).target.rxf.length) ∧
    State.reset.target.cntl.getLsbD 0 = false := by decide
/-- A context to drop and a reset in the way. -/
def doomed : State := { led 0 (pinContext 21) with sched := [.reset (uartTarget [1] [2])] :: [[.txDrain]] }
theorem test_witness_ScheduledResetIsTaken :
    doomed.sched = [.reset (uartTarget [1] [2])] :: [[.txDrain]] ∧ doomed.ready ∧ decode doomed.cmdPort = .incomplete ∧
      (∀ f, exec (.gpioDrop 0) doomed ≠ .next (doomed.raise f)) ∧
      ((doomed.raise .badPin).run = false ∧ (doomed.raise .badPin).sched = [.reset (uartTarget [1] [2])] :: [[.txDrain]]) ∧
      ((doomed.withSeq (.busy (.gpioDrop 0) (.plain 0) [.finish (.drop 0)])).run = true ∧
        (doomed.withSeq (.busy (.gpioDrop 0) (.plain 0) [.finish (.drop 0)])).sched
          = [.reset (uartTarget [1] [2])] :: [[.txDrain]]) := by
  refine ⟨rfl, ⟨rfl, rfl⟩, rfl, fun f h => ?_, ⟨rfl, rfl⟩, rfl, rfl⟩
  have hr : after (exec (.gpioDrop 0) doomed) State.run = some true := by decide +kernel
  rw [h] at hr
  simp [after, State.raise] at hr
/-- A send that waits, with a full FIFO and a line that will drain it and a reset later. -/
def waiting : State := { sending 0x41 [1, 2, 3, 4, 5, 6, 7, 8] with sched := [[], [.txDrain], [.reset Target.zero]], draws := 5 }
theorem test_witness_EveryStepKeepsTheInvariant : waiting.Inv ∧ ∃ t, step waiting = .next t := by
  refine ⟨by constructor <;> decide, ?_⟩
  obtain ⟨t, h, _⟩ := next_of_after (o := step waiting) (f := State.run) (a := true) (by decide +kernel)
  exact ⟨t, h⟩
theorem test_witness_NoStepStops : (lively [1] [2]).Inv := by constructor <;> decide
theorem busy_rest {s : State} {p : Instr → ReadWord → List MicroOp → Prop} {i : Instr} {w : ReadWord} {rest : List MicroOp}
    (h : s.seq = .busy i w rest) (hp : p i w rest) : ∀ i w rest, s.seq = .busy i w rest → p i w rest := by
  intro j v r hr
  rw [h] at hr
  cases hr
  exact hp
theorem test_witness_EveryStepKeepsThePollDiscipline : waiting.Disciplined ∧ ∃ t, step waiting = .next t :=
  ⟨⟨by decide, by decide, busy_rest (p := fun _ _ rest => guarded waiting.params none rest = true) rfl (by decide)⟩,
    test_witness_EveryStepKeepsTheInvariant.2⟩
theorem test_witness_EveryStepKeepsTheUartConfigured : waiting.UartKept ∧ ∃ t, step waiting = .next t :=
  ⟨⟨by decide, fun _ => ⟨by decide, by decide, by decide, by decide⟩,
    busy_rest (p := fun _ _ rest => waiting.uart.valid = true ∧ ∀ op ∈ rest, op.keepsUart waiting.params = true) rfl (by decide)⟩,
    test_witness_EveryStepKeepsTheInvariant.2⟩
theorem test_witness_EveryOperationLeavesThePullMachineryClean :
    (led 0 (pinContext 21)).ready ∧ (led 0 (pinContext 21)).lineOnly ∧ (led 0 (pinContext 21)).params.wf = true ∧
      (led 0 (pinContext 21)).target.pullClean ∧ ∃ t, exec (.gpioPullUp 0) (led 0 (pinContext 21)) = .next t := by
  refine ⟨ready_led _ _, lineOnly_led _ _, by decide, ⟨by decide, rfl, rfl⟩, ?_⟩
  obtain ⟨t, h, _⟩ := next_of_after (o := exec (.gpioPullUp 0) (led 0 (pinContext 21))) (f := State.run) (a := true) (by decide +kernel)
  exact ⟨t, h⟩
theorem test_witness_NoStepChangesTheParameters : ∃ t, step (fed [0x10000115]) = .next t := by
  obtain ⟨t, h, _⟩ := next_of_after (o := step (fed [0x10000115])) (f := State.run) (a := true) (by decide +kernel)
  exact ⟨t, h⟩
theorem test_witness_OnlyNewAndDropChangeValid :
    (led 0 (pinContext 21)).lineOnly ∧ (led 0 (pinContext 21)).ready ∧
      (∀ slot pin mode pull, Instr.gpioOn 0 ≠ .gpioNew slot pin mode pull) ∧ (∀ slot, Instr.gpioOn 0 ≠ .gpioDrop slot) ∧
      ∃ t, exec (.gpioOn 0) (led 0 (pinContext 21)) = .next t := by
  refine ⟨lineOnly_led _ _, ready_led _ _, by simp, by simp, ?_⟩
  obtain ⟨t, h, _⟩ := next_of_after (o := exec (.gpioOn 0) (led 0 (pinContext 21))) (f := State.run) (a := true) (by decide +kernel)
  exact ⟨t, h⟩
theorem test_witness_StateFieldIsNeverRead :
    SameHandles (led 0 (pinContext 21)).slots (led 0 { valid := true, pin := 21, mode := 7, pull := 2, state := true }).slots ∧
      ∃ t, exec (.gpioOn 0) (led 0 (pinContext 21)) = .next t :=
  ⟨by unfold SameHandles; decide, test_witness_OnlyNewAndDropChangeValid.2.2.2.2⟩

end Sys2Proof.Tests
end

section
/-! The address map as natural numbers (20_memory.md R88, R90, R93; 00_scope.md R12). Every address is `PERIPH_BASE` plus an offset; legal
parameters leave the sum below 2^32 as long as the offset is at most `0x21506C`, which only `IIR_OFFSET` can exceed. -/

namespace Sys2Proof.Machine

/-! ## What legal parameters say of addresses -/

theorem periphBase_of_wf {p : Params} (hp : p.wf = true) :
    p.periphBase.toNat % 4 = 0 ∧ 0x21506C + p.periphBase.toNat < 2 ^ 32 := by
  simp only [Params.wf, Bool.and_eq_true] at hp
  obtain ⟨⟨⟨⟨⟨hbase, -⟩, -⟩, -⟩, -⟩, -⟩ := hp
  simpa [Params.baseWf] using hbase

theorem iirOffset_mod_four {p : Params} (hp : p.wf = true) : p.iirOffset.toNat % 4 = 0 := by
  simp only [Params.wf, Bool.and_eq_true] at hp
  obtain ⟨⟨⟨⟨-, hiir⟩, -⟩, -⟩, -⟩ := hp
  simp only [Params.iirWf, Bool.and_eq_true, beq_iff_eq] at hiir
  exact hiir.1

/-! ## Offsets -/

theorem fixedOffsets_aligned_and_bounded : ∀ o ∈ Params.fixedOffsets, o.toNat % 4 = 0 ∧ o.toNat ≤ 0x21506C := by
  simp [Params.fixedOffsets]

theorem regOffset_mod_four {p : Params} (hp : p.wf = true) (r : Reg) : (regOffset p r).toNat % 4 = 0 := by
  by_cases h : r = .muIir
  · subst h
    exact iirOffset_mod_four hp
  · exact (fixedOffsets_aligned_and_bounded _ (regOffset_mem_fixed p r h)).1

theorem regOffset_le {p : Params} {r : Reg} (hr : r = .muIir → p.iirOffset.toNat ≤ 0x21506C) :
    (regOffset p r).toNat ≤ 0x21506C := by
  by_cases h : r = .muIir
  · subst h
    exact hr rfl
  · exact (fixedOffsets_aligned_and_bounded _ (regOffset_mem_fixed p r h)).2

/-- The offset of register `k` of a bank whose first offset is `base`. -/
theorem bankOffset_toNat (base : Word) {k : Nat} (hbase : base.toNat ≤ 0x21506C) (hk : k < 6) :
    (base + 4 * BitVec.ofNat 32 k).toNat = base.toNat + 4 * k := by
  rw [BitVec.toNat_add, BitVec.toNat_mul, BitVec.toNat_ofNat, show (4 : Word).toNat = 4 from rfl]
  omega

theorem regOffset_fsel_toNat (p : Params) (n : Fin 6) : (regOffset p (.fsel n)).toNat = 0x200000 + 4 * n.val :=
  bankOffset_toNat 0x200000 (by decide) n.isLt

theorem regOffset_set_toNat (p : Params) (n : Fin 2) : (regOffset p (.set n)).toNat = 0x20001C + 4 * n.val :=
  bankOffset_toNat 0x20001C (by decide) (by omega)

theorem regOffset_clr_toNat (p : Params) (n : Fin 2) : (regOffset p (.clr n)).toNat = 0x200028 + 4 * n.val :=
  bankOffset_toNat 0x200028 (by decide) (by omega)

theorem regOffset_pudclk_toNat (p : Params) (n : Fin 2) : (regOffset p (.pudclk n)).toNat = 0x200098 + 4 * n.val :=
  bankOffset_toNat 0x200098 (by decide) (by omega)

/-! ## Addresses -/

/-- An alignment of 4 outlives the wrap at 2^32, so this needs no bound on `IIR_OFFSET`. -/
theorem regAddr_mod_four {p : Params} (hp : p.wf = true) (r : Reg) : (regAddr p r).toNat % 4 = 0 := by
  have hbase := (periphBase_of_wf hp).1
  have hoff := regOffset_mod_four hp r
  rw [regAddr, BitVec.toNat_add]
  omega

/-- The address does not wrap. -/
theorem regAddr_toNat {p : Params} (hp : p.wf = true) {r : Reg} (hr : r = .muIir → p.iirOffset.toNat ≤ 0x21506C) :
    (regAddr p r).toNat = p.periphBase.toNat + (regOffset p r).toNat := by
  have hbase := (periphBase_of_wf hp).2
  have hoff := regOffset_le hr
  rw [regAddr, BitVec.toNat_add_of_lt (by omega), Nat.add_comm]

theorem fselAddr_toNat {p : Params} (hp : p.wf = true) {pin : BitVec 6} (hpin : pin.toNat ≤ 53) :
    (fselAddr p pin).toNat = p.periphBase.toNat + 0x200000 + 4 * (pin.toNat / 10) := by
  rw [fselAddr_eq p pin (by omega), regAddr_toNat hp (by simp), regOffset_fsel_toNat, Nat.add_assoc]

theorem setAddr_toNat {p : Params} (hp : p.wf = true) (pin : BitVec 6) :
    (setAddr p pin).toNat = p.periphBase.toNat + 0x20001C + 4 * (pin.toNat / 32) := by
  rw [setAddr_eq, regAddr_toNat hp (by simp), regOffset_set_toNat, Nat.add_assoc]

theorem clrAddr_toNat {p : Params} (hp : p.wf = true) (pin : BitVec 6) :
    (clrAddr p pin).toNat = p.periphBase.toNat + 0x200028 + 4 * (pin.toNat / 32) := by
  rw [clrAddr_eq, regAddr_toNat hp (by simp), regOffset_clr_toNat, Nat.add_assoc]

theorem pudclkAddr_toNat {p : Params} (hp : p.wf = true) (pin : BitVec 6) :
    (pudclkAddr p pin).toNat = p.periphBase.toNat + 0x200098 + 4 * (pin.toNat / 32) := by
  rw [pudclkAddr_eq, regAddr_toNat hp (by simp), regOffset_pudclk_toNat, Nat.add_assoc]

theorem pudAddr_toNat {p : Params} (hp : p.wf = true) : (pudAddr p).toNat = p.periphBase.toNat + 0x200094 := by
  rw [pudAddr_eq, regAddr_toNat hp (by simp)]
  rfl

theorem pinBit_toNat (pin : BitVec 6) : (pinBit pin).toNat = 2 ^ (pin.toNat % 32) := by
  have hlt : 2 ^ (pin.toNat % 32) < 2 ^ 32 := Nat.pow_lt_pow_right (by decide) (Nat.mod_lt _ (by decide))
  rw [pinBit, BitVec.toNat_shiftLeft, BitVec.toNat_ofNat, Nat.mod_eq_of_lt (show 1 < 2 ^ 32 by decide), Nat.one_shiftLeft, Nat.mod_eq_of_lt hlt]

/-- Settles O46. -/
theorem addressesDifferAndOnlyMuIirMayWrap : Obligations.AddressesDifferAndOnlyMuIirMayWrap := by
  refine ⟨fun p r r' hp h => regAddr_injective hp h, fun p r hp => regAddr_mod_four hp r,
    fun p r hp hr => regAddr_toNat hp hr, fun p pin hp hpin => ?_⟩
  exact ⟨fselAddr_toNat hp hpin, setAddr_toNat hp pin, clrAddr_toNat hp pin, pudclkAddr_toNat hp pin, pudAddr_toNat hp,
    pinBit_toNat pin⟩

end Sys2Proof.Machine
end

section
/-! What a step can do, from the environment's turn up to the step: whatever the environment and every tick keep, a step keeps. The
parameters are kept by all of them, a reset included (00_scope.md R7, R8). -/

namespace Sys2Proof.Machine

/-! ## From a tick to a run -/

/-- The induction over the ticks of a run: what every tick keeps, a run keeps. -/
theorem runSeq_keeps {P : State → Prop} (keep : ∀ a b, P a → tick a = .next b → P b) {n : Nat} {s t : State} (hs : P s)
    (h : runSeq n s = .next t) : P t := by
  induction n generalizing s with
  | zero =>
    cases h
    exact hs
  | succ n ih =>
    rw [runSeq] at h
    split at h
    · rename_i u hu
      have hPu : P u := keep s u hs hu
      split at h
      · cases h
        exact hPu
      · exact ih hPu h
    · cases h
    · cases h

/-! ## What a command and a step can do -/

/-- A command is not taken, or raises the fault of its checks, or its micro-operations run. -/
theorem issue_cases {i : Instr} {plan : Plan} {s t : State} (h : issue i plan s = .next t) :
    t = s ∨ (∃ f, plan = .error f ∧ t = s.raise f) ∨
      ∃ ops, plan = .ok ops ∧ runSeq (opsCost ops) (s.withSeq (.busy i (.plain 0) ops)) = .next t := by
  unfold issue at h
  split at h
  · cases plan with
    | error f =>
      cases h
      exact .inr (.inl ⟨f, rfl, rfl⟩)
    | ok ops => exact .inr (.inr ⟨ops, rfl, h⟩)
  · cases h
    exact .inl rfl
  · cases h
    exact .inl rfl

/-- Every operation is its checks and its micro-operations, and nothing besides. -/
theorem exec_eq_issue (i : Instr) (s : State) : ∃ plan, exec i s = issue i plan s := by
  cases i <;> exact ⟨_, rfl⟩

/-- A step is a turn of the environment alone, goes on with an operation, takes a command, or refuses an illegal word. -/
theorem step_cases {s t : State} (h : step s = .next t) :
    t = envTurn s ∨ resume s = .next t ∨
      (∃ i rest, decode s.cmdPort = .command i rest ∧ exec i (s.withCmdPort rest) = .next t) ∨
      ∃ w rest, decode s.cmdPort = .illegal w rest ∧
        t = ((s.withCmdPort rest).noteBadCommand w).raise .illegalCommand := by
  unfold step at h
  split at h
  · cases h
    exact .inl rfl
  · exact .inr (.inl h)
  · split at h
    · rename_i i rest hd
      exact .inr (.inr (.inl ⟨i, rest, hd, h⟩))
    · rename_i w rest hd
      cases h
      exact .inr (.inr (.inr ⟨w, rest, hd, rfl⟩))
    · cases h
      exact .inl rfl

/-! ## The parameters -/

theorem envStep_params (s : State) (e : EnvStep) : (envStep s e).params = s.params := by
  cases e with
  | txDrain => exact (txDrain_line s).params
  | rxArrive b => exact (rxArrive_line b s).params
  | reset launch => exact s.resetEvent_params launch

theorem foldl_envStep_params (es : List EnvStep) (s : State) : (es.foldl envStep s).params = s.params := by
  induction es generalizing s with
  | nil => rfl
  | cons e es ih => rw [List.foldl_cons, ih, envStep_params]

theorem envTurn_params (s : State) : (envTurn s).params = s.params := by
  unfold envTurn
  split
  · rfl
  · rw [foldl_envStep_params, State.withSched_params]

theorem sequencerStep_params {s t : State} (h : sequencerStep s = .next t) : t.params = s.params := by
  unfold sequencerStep at h
  split at h
  · cases h
    rfl
  · cases h
    rfl
  · exact (perform_untouched h).params

theorem tick_params {s t : State} (h : tick s = .next t) : t.params = s.params :=
  (sequencerStep_params h).trans (envTurn_params s)

theorem runSeq_params {n : Nat} {s t : State} (h : runSeq n s = .next t) : t.params = s.params :=
  runSeq_keeps (P := fun u => u.params = s.params) (fun _ _ ha hab => (tick_params hab).trans ha) rfl h

theorem exec_params {i : Instr} {s t : State} (h : exec i s = .next t) : t.params = s.params := by
  obtain ⟨plan, hplan⟩ := exec_eq_issue i s
  obtain rfl | ⟨f, -, rfl⟩ | ⟨ops, -, hrun⟩ := issue_cases (hplan ▸ h)
  · rfl
  · exact s.raise_params f
  · exact (runSeq_params hrun).trans (s.withSeq_params _)

/-- Settles O58. -/
theorem noStepChangesTheParameters : Obligations.NoStepChangesTheParameters := by
  intro s t h
  obtain rfl | hrun | ⟨i, rest, -, hexec⟩ | ⟨w, rest, -, rfl⟩ := step_cases h
  · exact envTurn_params s
  · exact runSeq_params hrun
  · exact (exec_params hexec).trans (s.withCmdPort_params rest)
  · rfl

end Sys2Proof.Machine
end

section
/-! What a command plans and what a micro-operation does: one inversion lemma for the checks of an operation (`planOf_ok`) and one for a
micro-operation (`performed_of_perform`), from which the invariants of the machine are derived. -/

namespace Sys2Proof.Machine

/-! ## The checks of an operation -/

/-- What the checks of each operation answer (60_exceptions.md R217, R218): `exec_eq_issue_planOf` ties it to `exec`. -/
def planOf (s : State) : Instr → Plan
  | .gpioNew slot pin mode pull =>
    if s.params.nslot ≤ slot.toNat then .error .badSlot
    else if Config.pinMax < pin.toNat then .error .badPin
    else if pull = 3 then .error .badPull
    else .ok (fselRmw s.params pin mode ++ pullSeq s.params pin pull ++ [.finish (.newContext slot pin mode pull)])
  | .gpioOn slot =>
    onContext slot (fun pin => [.memWrite (setAddr s.params pin) (pinBit pin), .finish (.setState slot true)]) s
  | .gpioOff slot =>
    onContext slot (fun pin => [.memWrite (clrAddr s.params pin) (pinBit pin), .finish (.setState slot false)]) s
  | .gpioPullUp slot => repull slot 1 s
  | .gpioPullDown slot => repull slot 2 s
  | .gpioPullNeither slot => repull slot 0 s
  | .gpioDrop slot => onContext slot (fun _ => [.finish (.drop slot)]) s
  | .uartNew baud =>
    if s.uart.valid then .error .uartExists
    else if badBaud s.params.clockHz baud.toNat then .error .badBaud
    else .ok (uartSetup s.params (divisorWord s.params baud) ++ uartPinSetup s.params s.params.txPin
      ++ uartPinSetup s.params s.params.rxPin ++ uartStart s.params ++ [.finish (.newUart baud)])
  | .uartSendc byte => onUart (sendByte s.params byte ++ [.finish .sent]) s
  | .uartReadc => onUart [.poll .rxReady, .memRead (regAddr s.params .muIo), .finish .received] s
  | .uartSendStr text => onUart (text.flatMap (sendByte s.params) ++ [.finish .sent]) s

theorem exec_eq_issue_planOf (i : Instr) (s : State) : exec i s = issue i (planOf s i) s := by
  cases i <;> rfl

/-- The micro-operations of each operation, with what its checks have found. -/
inductive Planned (s : State) : Instr → List MicroOp → Prop
  | gpioNew {slot pin mode pull} (hslot : slot.toNat < s.params.nslot) (hpin : pin.toNat ≤ 53) (hpull : pull ≠ 3) :
      Planned s (.gpioNew slot pin mode pull)
        (fselRmw s.params pin mode ++ pullSeq s.params pin pull ++ [.finish (.newContext slot pin mode pull)])
  | gpioOn {slot c} (hc : s.context slot = some c) :
      Planned s (.gpioOn slot) [.memWrite (setAddr s.params c.pin) (pinBit c.pin), .finish (.setState slot true)]
  | gpioOff {slot c} (hc : s.context slot = some c) :
      Planned s (.gpioOff slot) [.memWrite (clrAddr s.params c.pin) (pinBit c.pin), .finish (.setState slot false)]
  | repull {i slot c code} (hi : (i, code) ∈ [(Instr.gpioPullUp slot, 1), (.gpioPullDown slot, 2), (.gpioPullNeither slot, 0)])
      (hc : s.context slot = some c) :
      Planned s i (pullSeq s.params c.pin code ++ [.finish (.setPull slot code)])
  | gpioDrop {slot c} (hc : s.context slot = some c) : Planned s (.gpioDrop slot) [.finish (.drop slot)]
  | uartNew {baud} (hbaud : badBaud s.params.clockHz baud.toNat = false) :
      Planned s (.uartNew baud)
        (uartSetup s.params (divisorWord s.params baud) ++ uartPinSetup s.params s.params.txPin
          ++ uartPinSetup s.params s.params.rxPin ++ uartStart s.params ++ [.finish (.newUart baud)])
  | uartSendc {byte} : Planned s (.uartSendc byte) (sendByte s.params byte ++ [.finish .sent])
  | uartReadc : Planned s .uartReadc [.poll .rxReady, .memRead (regAddr s.params .muIo), .finish .received]
  | uartSendStr {text} : Planned s (.uartSendStr text) (text.flatMap (sendByte s.params) ++ [.finish .sent])

theorem onContext_ok {slot : BitVec 8} {f : BitVec 6 → List MicroOp} {s : State} {ops : List MicroOp}
    (h : onContext slot f s = .ok ops) : ∃ c, s.context slot = some c ∧ ops = f c.pin := by
  unfold onContext at h
  split at h
  · cases h
  · rename_i c hc
    cases h
    exact ⟨c, hc, rfl⟩

theorem onUart_ok {f ops : List MicroOp} {s : State} (h : onUart f s = .ok ops) : ops = f := by
  unfold onUart at h
  split at h
  · cases h
    rfl
  · cases h

theorem planOf_ok {s : State} {i : Instr} {ops : List MicroOp} (h : planOf s i = .ok ops) : Planned s i ops := by
  cases i with
  | gpioNew slot pin mode pull =>
    simp only [planOf] at h
    split_ifs at h with hslot hpin hpull
    cases h
    exact .gpioNew (Nat.lt_of_not_le hslot) (Nat.le_of_not_lt hpin) hpull
  | gpioOn slot =>
    rw [planOf] at h
    obtain ⟨c, hc, rfl⟩ := onContext_ok h
    exact .gpioOn hc
  | gpioOff slot =>
    rw [planOf] at h
    obtain ⟨c, hc, rfl⟩ := onContext_ok h
    exact .gpioOff hc
  | gpioPullUp slot =>
    rw [planOf] at h
    obtain ⟨c, hc, rfl⟩ := onContext_ok h
    exact .repull (by simp) hc
  | gpioPullDown slot =>
    rw [planOf] at h
    obtain ⟨c, hc, rfl⟩ := onContext_ok h
    exact .repull (by simp) hc
  | gpioPullNeither slot =>
    rw [planOf] at h
    obtain ⟨c, hc, rfl⟩ := onContext_ok h
    exact .repull (by simp) hc
  | gpioDrop slot =>
    rw [planOf] at h
    obtain ⟨c, hc, rfl⟩ := onContext_ok h
    exact .gpioDrop hc
  | uartNew baud =>
    simp only [planOf] at h
    split_ifs at h with hvalid hbaud
    cases h
    exact .uartNew (Bool.eq_false_iff.mpr hbaud)
  | uartSendc byte =>
    obtain rfl := onUart_ok h
    exact .uartSendc
  | uartReadc =>
    obtain rfl := onUart_ok h
    exact .uartReadc
  | uartSendStr text =>
    obtain rfl := onUart_ok h
    exact .uartSendStr

/-- What an operation answers: nothing happens, a ready machine takes a fault, or a ready machine runs the micro-operations planned. -/
theorem exec_cases {i : Instr} {s t : State} (h : exec i s = .next t) :
    t = s ∨ s.ready ∧ ((∃ f, t = s.raise f) ∨
      ∃ ops, Planned s i ops ∧ runSeq (opsCost ops) (s.withSeq (.busy i (.plain 0) ops)) = .next t) := by
  rw [exec_eq_issue_planOf] at h
  by_cases hr : s.ready
  · cases hp : planOf s i with
    | error f =>
      rw [hp, issue_fault _ _ _ hr] at h
      cases h
      exact .inr ⟨hr, .inl ⟨f, rfl⟩⟩
    | ok ops =>
      rw [hp, issue_runs _ _ _ hr] at h
      exact .inr ⟨hr, .inr ⟨ops, planOf_ok hp, h⟩⟩
  · unfold issue at h
    split at h
    · rename_i hrun hseq
      exact absurd ⟨hrun, hseq⟩ hr
    · cases h
      exact .inl rfl
    · cases h
      exact .inl rfl

/-! ## One micro-operation -/

/-- A micro-operation of the operation `i`, `w` the word it read last and `rest` what comes after, takes `s` to a next state. -/
inductive Performed (i : Instr) (w : ReadWord) (rest : List MicroOp) (s : State) : MicroOp → State → Prop
  | memRead {a v t} (h : Machine.memRead a s = .ok (v, t)) : Performed i w rest s (.memRead a) (t.withSeq (.busy i v rest))
  | memWrite {a v t} (h : Machine.memWrite a v s = .ok t) : Performed i w rest s (.memWrite a v) (t.withSeq (.busy i w rest))
  | memModify {a clear bits t} (h : Machine.memWrite a (rmwWord w.toWord clear bits) s = .ok t) :
      Performed i w rest s (.memModify a clear bits) (t.withSeq (.busy i w rest))
  | delay {n} : Performed i w rest s (.delay n) ((s.withDly n).withSeq (.busy i w (.wait n :: rest)))
  | waitOver {n} (h : s.dly.toNat ≤ 1) :
      Performed i w rest s (.wait n) (((s.withDly 0).logEvent (.dl n)).withSeq (.busy i w rest))
  | waitOn {n} (h : 1 < s.dly.toNat) :
      Performed i w rest s (.wait n) ((s.withDly (s.dly - 1)).withSeq (.busy i w (.wait n :: rest)))
  | pollSet {k v t} (h : Machine.memRead (regAddr s.params .muLsr) s = .ok (v, t)) (hk : v.bit k = true) :
      Performed i w rest s (.poll k) (t.withSeq (.busy i v rest))
  | pollClear {k v t} (h : Machine.memRead (regAddr s.params .muLsr) s = .ok (v, t)) (hk : v.bit k = false) :
      Performed i w rest s (.poll k) (t.withSeq (.busy i v (.nop :: .poll k :: rest)))
  | nop : Performed i w rest s .nop (s.withSeq (.busy i w rest))
  | finish {u t} (h : applyUpdate u s = .ok t) : Performed i w rest s (.finish u) ((t.respond (u.response w)).withSeq .idle)

theorem performed_of_perform {i : Instr} {w : ReadWord} {rest : List MicroOp} {op : MicroOp} {s t : State}
    (h : perform i w rest op s = .next t) : Performed i w rest s op t := by
  cases op with
  | memRead a =>
    simp only [perform, afterRead] at h
    split at h
    · cases h
      exact .memRead ‹_›
    · cases h
  | memWrite a v =>
    simp only [perform, afterWrite] at h
    split at h
    · cases h
      exact .memWrite ‹_›
    · cases h
  | memModify a clear bits =>
    simp only [perform, afterWrite] at h
    split at h
    · cases h
      exact .memModify ‹_›
    · cases h
  | delay n =>
    cases h
    exact .delay
  | wait n =>
    simp only [perform, waitCycle] at h
    split at h
    · cases h
      exact .waitOver ‹_›
    · cases h
      exact .waitOn (by omega)
  | poll k =>
    simp only [perform, afterPoll] at h
    split at h
    · cases h
      split
      · exact .pollSet ‹_› ‹_›
      · exact .pollClear ‹_› (Bool.eq_false_iff.mpr ‹_›)
    · cases h
  | nop =>
    cases h
    exact .nop
  | finish u =>
    simp only [perform, afterUpdate] at h
    split at h
    · cases h
      exact .finish ‹_›
    · cases h

theorem perform_of_performed {i : Instr} {w : ReadWord} {rest : List MicroOp} {op : MicroOp} {s t : State}
    (h : Performed i w rest s op t) : perform i w rest op s = .next t := by
  cases h with
  | memRead hm => simp only [perform, afterRead, hm]
  | memWrite hm => simp only [perform, afterWrite, hm]
  | memModify hm => simp only [perform, afterWrite, hm]
  | delay => rfl
  | waitOver hd => simp only [perform, waitCycle, if_pos hd]
  | waitOn hd => simp only [perform, waitCycle, if_neg (Nat.not_le.mpr hd)]
  | pollSet hm hk => simp only [perform, afterPoll, hm, hk, if_true]
  | pollClear hm hk => simp only [perform, afterPoll, hm, hk, Bool.false_eq_true, if_false]
  | nop => rfl
  | finish hu => simp only [perform, afterUpdate, hu]

/-- A sequencer step does nothing, ends an operation that has nothing left to do, or performs the first micro-operation. -/
theorem sequencerStep_cases {s t : State} (h : sequencerStep s = .next t) :
    (s.seq = .idle ∧ t = s) ∨ (∃ i w, s.seq = .busy i w [] ∧ t = s.withSeq .idle) ∨
      ∃ i w op rest, s.seq = .busy i w (op :: rest) ∧ perform i w rest op s = .next t := by
  unfold sequencerStep at h
  split at h
  · cases h
    exact .inl ⟨‹_›, rfl⟩
  · cases h
    exact .inr (.inl ⟨_, _, ‹_›, rfl⟩)
  · exact .inr (.inr ⟨_, _, _, _, ‹_›, h⟩)

/-- What remains after a micro-operation is what remained before it, a delay that goes on, or a poll once more. -/
theorem perform_remaining {K : MicroOp → Prop} {i : Instr} {w : ReadWord} {rest : List MicroOp} {op : MicroOp} {s t : State}
    (h : perform i w rest op s = .next t) (nop : K .nop) (wait : ∀ n, K (.wait n)) (all : ∀ o ∈ op :: rest, K o) :
    t.seq = .idle ∨ ∃ w' rest', t.seq = .busy i w' rest' ∧ ∀ o ∈ rest', K o := by
  obtain ⟨hop, hrest⟩ := List.forall_mem_cons.mp all
  cases performed_of_perform h with
  | delay => exact .inr ⟨_, _, rfl, List.forall_mem_cons.mpr ⟨wait _, hrest⟩⟩
  | waitOn _ => exact .inr ⟨_, _, rfl, List.forall_mem_cons.mpr ⟨wait _, hrest⟩⟩
  | pollClear _ _ => exact .inr ⟨_, _, rfl, List.forall_mem_cons.mpr ⟨nop, List.forall_mem_cons.mpr ⟨hop, hrest⟩⟩⟩
  | finish _ => exact .inl rfl
  | _ => exact .inr ⟨_, _, rfl, hrest⟩

/-! ## What an access leaves alone -/

/-- The parameters, the contexts and the delay counter are as they were. -/
structure SameContexts (s t : State) : Prop where
  params : t.params = s.params
  slots : t.slots = s.slots
  uart : t.uart = s.uart
  dly : t.dly = s.dly

theorem memRead_sameContexts {a : Word} {s t : State} {w : ReadWord} (h : memRead a s = .ok (w, t)) : SameContexts s t := by
  obtain ⟨r, -, -, rfl⟩ := memRead_ok h
  rw [readReg_frame]
  exact ⟨rfl, rfl, rfl, rfl⟩

theorem memWrite_sameContexts {a v : Word} {s t : State} (h : memWrite a v s = .ok t) : SameContexts s t := by
  obtain ⟨r, u, -, hu, rfl⟩ := memWrite_ok h
  rw [writeReg_frame hu]
  exact ⟨rfl, rfl, rfl, rfl⟩

/-- Only the last micro-operation of an operation changes contexts. -/
theorem perform_slots_uart {i : Instr} {w : ReadWord} {rest : List MicroOp} {op : MicroOp} {s t : State}
    (h : perform i w rest op s = .next t) (hop : ∀ u, op ≠ .finish u) : t.slots = s.slots ∧ t.uart = s.uart := by
  cases performed_of_perform h with
  | memRead hm | pollSet hm | pollClear hm =>
    have same := memRead_sameContexts hm
    exact ⟨same.slots, same.uart⟩
  | memWrite hm | memModify hm =>
    have same := memWrite_sameContexts hm
    exact ⟨same.slots, same.uart⟩
  | finish _ => exact absurd rfl (hop _)
  | _ => exact ⟨rfl, rfl⟩

end Sys2Proof.Machine
end

section
/-! The invariant of the machine (10_state.md R21, R22, R25, R26, R30, R61; 20_memory.md R96, R97): the environment keeps it, a
micro-operation keeps it, taking a command establishes the legal `seq` it asks for, and so a step keeps it. -/

namespace Sys2Proof.Machine

/-! ## What a legal micro-operation and a legal `seq` look at -/

theorem depth_pos_of_wf {p : Params} (hp : p.wf = true) : 1 ≤ p.fifoDepth := by
  simp only [Params.wf, Params.depthWf, Bool.and_eq_true, decide_eq_true_eq] at hp
  omega

theorem pins_le_of_wf {p : Params} (hp : p.wf = true) : p.txPin.toNat ≤ 53 ∧ p.rxPin.toNat ≤ 53 := by
  simp only [Params.wf, Params.pinsWf, Bool.and_eq_true, decide_eq_true_eq] at hp
  omega

theorem Update.ok_congr {s t : State} (hp : t.params = s.params) (hs : t.slots = s.slots) (u : Update) : u.ok t = u.ok s := by
  cases u <;> simp only [Update.ok, context_congr hp hs, hp]

theorem MicroOp.ok_congr {s t : State} (hp : t.params = s.params) (hs : t.slots = s.slots) (op : MicroOp) :
    op.ok t = op.ok s := by
  cases op with
  | finish u => exact Update.ok_congr hp hs u
  | memRead a => simp only [MicroOp.ok, hp]
  | memWrite a v => simp only [MicroOp.ok, hp]
  | memModify a c b => simp only [MicroOp.ok, hp]
  | _ => rfl

/-- A delay is counting. -/
def waitsFirst : List MicroOp → Prop
  | .wait _ :: _ => True
  | _ => False

theorem seqOk_idle {s : State} (hs : s.seq = .idle) : s.seqOk = true ↔ s.dly = 0 := by
  simp [State.seqOk, hs]

theorem seqOk_busy {s : State} {i : Instr} {w : ReadWord} {rest : List MicroOp} (hs : s.seq = .busy i w rest) :
    s.seqOk = true ↔ (∀ op ∈ rest, op.ok s = true) ∧ (waitsFirst rest ∨ s.dly = 0) := by
  unfold State.seqOk
  rw [hs]
  match rest with
  | [] => simp [waitsFirst]
  | op :: later => cases op <;> simp [waitsFirst]

theorem seqOk_congr {s t : State} (hp : t.params = s.params) (hs : t.slots = s.slots) (hq : t.seq = s.seq) (hd : t.dly = s.dly) :
    t.seqOk = s.seqOk := by
  cases hseq : s.seq with
  | idle => rw [Bool.eq_iff_iff, seqOk_idle hseq, seqOk_idle (hq.trans hseq), hd]
  | busy i w rest =>
    rw [Bool.eq_iff_iff, seqOk_busy hseq, seqOk_busy (hq.trans hseq), hd]
    simp only [MicroOp.ok_congr hp hs]

/-- What the invariant looks at beside the queues. -/
theorem State.Inv.congr {s t : State} (hi : s.Inv) (same : SameContexts s t) (run : t.run = s.run) (fault : t.fault = s.fault)
    (seq : t.seq = s.seq) (txf : t.target.txf.length ≤ s.params.fifoDepth) (rxf : t.target.rxf.length ≤ s.params.fifoDepth) :
    t.Inv where
  params := by rw [same.params]; exact hi.params
  slots := by rw [same.params, same.slots]; exact hi.slots
  contexts := by rw [same.slots]; exact hi.contexts
  uart := by rw [same.params, same.uart]; exact hi.uart
  txf := by rw [same.params]; exact txf
  rxf := by rw [same.params]; exact rxf
  halt := by rw [run, fault]; exact hi.halt
  halted := by rw [run, seq]; exact hi.halted
  seq := by rw [seqOk_congr same.params same.slots seq same.dly]; exact hi.seq

/-! ## The environment -/

theorem LineStep.keeps_inv {s t : State} (h : LineStep s t) (hi : s.Inv) : t.Inv :=
  hi.congr ⟨h.params, h.slots, h.uart, h.dly⟩ h.run h.fault h.seq (h.shrink.trans hi.txf)
    (h.params ▸ h.rxfBound hi.rxf (depth_pos_of_wf hi.params))

/-- A reset establishes all of the invariant but the parameters (10_state.md R70, R71). -/
theorem resetEvent_inv {s : State} (launch : Target) (hp : s.params.wf = true) : (s.resetEvent launch).Inv where
  params := hp
  slots := by simp
  contexts c hc := by
    rw [State.resetEvent_slots] at hc
    rw [List.eq_of_mem_replicate hc]
    rfl
  uart := rfl
  txf := by simp [Target.cut]
  rxf := by simp [Target.cut]
  halt := by simp
  halted _ := rfl
  seq := (seqOk_idle rfl).mpr rfl

theorem envStep_inv {s : State} (e : EnvStep) (hi : s.Inv) : (envStep s e).Inv := by
  cases e with
  | txDrain => exact (txDrain_line s).keeps_inv hi
  | rxArrive b => exact (rxArrive_line b s).keeps_inv hi
  | reset launch => exact resetEvent_inv launch hi.params

theorem foldl_envStep_inv (es : List EnvStep) {s : State} (hi : s.Inv) : (es.foldl envStep s).Inv := by
  induction es generalizing s with
  | nil => exact hi
  | cons e es ih => exact ih (envStep_inv e hi)

theorem envTurn_inv {s : State} (hi : s.Inv) : (envTurn s).Inv := by
  unfold envTurn
  split
  · exact hi
  · exact foldl_envStep_inv _ (hi.congr ⟨rfl, rfl, rfl, rfl⟩ rfl rfl rfl hi.txf hi.rxf)

/-! ## The queues -/

theorem readReg_rxf_length_le (r : Reg) (s : State) : (readReg r s).2.target.rxf.length ≤ s.target.rxf.length := by
  by_cases h : r = .muIo
  · subst h
    simp only [readReg]
    split
    · split
      · rename_i heq
        simp [heq]
      · rfl
    · simp only [State.withTarget_target]
      split
      · exact Nat.le_refl _
      · simp
  · rw [readReg_target h]

theorem txfWritten_length_le {s : State} (b : Byte) (hd : 1 ≤ s.params.fifoDepth) (h : s.target.txf.length ≤ s.params.fifoDepth) :
    (txfWritten s b).length ≤ s.params.fifoDepth := by
  unfold txfWritten State.drawQueue
  split_ifs with he hroom hbit
  · simpa using hroom
  · exact h
  · simp only [List.length_append, List.length_dropLast, List.length_singleton]
    omega
  · simp

/-- A write leaves both queues within the FIFO's depth (10_state.md R53, R60, R61, R64). -/
theorem writeReg_queues {r : Reg} {v : Word} {s t : State} (hw : writeReg r v s = .ok t) (hd : 1 ≤ s.params.fifoDepth)
    (htx : s.target.txf.length ≤ s.params.fifoDepth) (hrx : s.target.rxf.length ≤ s.params.fifoDepth) :
    t.target.txf.length ≤ s.params.fifoDepth ∧ t.target.rxf.length ≤ s.params.fifoDepth := by
  cases r with
  | muIo =>
    cases hw
    exact ⟨txfWritten_length_le _ hd htx, hrx⟩
  | muIir =>
    simp only [writeReg] at hw
    split_ifs at hw <;> cases hw <;> simp [State.drawQueue]
  | muLsr => cases hw
  | _ =>
    cases hw
    exact ⟨htx, hrx⟩

theorem memRead_queues {a : Word} {s t : State} {w : ReadWord} (h : memRead a s = .ok (w, t)) :
    t.target.txf.length ≤ s.target.txf.length ∧ t.target.rxf.length ≤ s.target.rxf.length := by
  obtain ⟨r, -, -, rfl⟩ := memRead_ok h
  refine ⟨?_, readReg_rxf_length_le r s⟩
  rw [readReg_frame]
  exact Nat.le_refl _

theorem memWrite_queues {a v : Word} {s t : State} (h : memWrite a v s = .ok t) (hi : s.Inv) :
    t.target.txf.length ≤ s.params.fifoDepth ∧ t.target.rxf.length ≤ s.params.fifoDepth := by
  obtain ⟨r, u, -, hu, rfl⟩ := memWrite_ok h
  rw [State.logEvent_target]
  exact writeReg_queues hu (depth_pos_of_wf hi.params) hi.txf hi.rxf

section
variable {i : Instr} {w : ReadWord} {rest : List MicroOp} {op : MicroOp} {s t : State}

theorem perform_queues (h : perform i w rest op s = .next t) (hi : s.Inv) :
    t.target.txf.length ≤ s.params.fifoDepth ∧ t.target.rxf.length ≤ s.params.fifoDepth := by
  cases performed_of_perform h with
  | memRead hm | pollSet hm | pollClear hm =>
    obtain ⟨htx, hrx⟩ := memRead_queues hm
    exact ⟨htx.trans hi.txf, hrx.trans hi.rxf⟩
  | memWrite hm | memModify hm =>
    rw [State.withSeq_target]
    exact memWrite_queues hm hi
  | finish hu =>
    rw [applyUpdate_frame hu]
    exact ⟨hi.txf, hi.rxf⟩
  | _ => exact ⟨hi.txf, hi.rxf⟩

/-! ## The contexts -/

/-- The part of the invariant that speaks of the contexts and of `U`. -/
structure ContextsOk (s : State) : Prop where
  slots : s.slots.length = s.params.nslot
  contexts : ∀ c ∈ s.slots, c.ok = true
  uart : s.uart.ok s.params = true

theorem State.Inv.contextsOk (hi : s.Inv) : ContextsOk s := ⟨hi.slots, hi.contexts, hi.uart⟩

theorem setContext_contextsOk {slot : BitVec 8} {c : GpioContext} (hs : ContextsOk s) (hc : c.ok = true) :
    ContextsOk (s.setContext slot c) where
  slots := by rw [State.setContext_slots, List.length_set]; exact hs.slots
  contexts d hd := by
    obtain hd | rfl := List.mem_or_eq_of_mem_set hd
    · exact hs.contexts d hd
    · exact hc
  uart := hs.uart

/-- An update of a context that is there, by a function that keeps contexts legal. -/
theorem updateContext_contextsOk {slot : BitVec 8} {f : GpioContext → GpioContext} (hs : ContextsOk s)
    (hf : ∀ c, c.ok = true → (f c).ok = true) (h : s.updateContext slot f = .ok t) : ContextsOk t := by
  unfold State.updateContext at h
  split at h
  · rename_i c hc
    cases h
    obtain ⟨-, hmem, -⟩ := context_eq_some.mp hc
    exact setContext_contextsOk hs (hf c (hs.contexts c (List.mem_of_getElem? hmem)))
  · cases h

theorem applyUpdate_contextsOk {u : Update} (hs : ContextsOk s) (hu : u.ok s = true) (h : applyUpdate u s = .ok t) :
    ContextsOk t := by
  cases u with
  | newContext slot pin mode pull =>
    simp only [Update.ok, Bool.and_eq_true] at hu
    obtain ⟨⟨-, hpin⟩, hpull⟩ := hu
    simp only [applyUpdate] at h
    split at h
    · cases h
      exact setContext_contextsOk hs (by rw [GpioContext.ok, hpin, hpull]; rfl)
    · cases h
  | setState slot on => exact updateContext_contextsOk hs (f := fun c => { c with state := on }) (fun c hc => hc) h
  | setPull slot code =>
    simp only [Update.ok, Bool.and_eq_true] at hu
    refine updateContext_contextsOk hs (fun c hc => ?_) h
    simp only [GpioContext.ok, Bool.or_eq_true, Bool.and_eq_true] at hc ⊢
    exact hc.imp_right fun ⟨hpin, _⟩ => ⟨hpin, hu.2⟩
  | drop slot => exact updateContext_contextsOk hs (fun c _ => rfl) h
  | newUart baud =>
    cases h
    simp only [Update.ok] at hu
    exact ⟨hs.slots, hs.contexts, by simp [UartContext.ok, hu]⟩
  | sent =>
    cases h
    exact hs
  | received =>
    cases h
    exact hs

theorem perform_contextsOk (h : perform i w rest op s = .next t) (hi : s.Inv) (hop : op.ok s = true) : ContextsOk t := by
  by_cases hu : ∃ u, op = .finish u
  · obtain ⟨u, rfl⟩ := hu
    cases performed_of_perform h with
    | finish hu =>
      have ok := applyUpdate_contextsOk hi.contextsOk hop hu
      exact ⟨ok.slots, ok.contexts, ok.uart⟩
  · have params := (perform_untouched h).params
    obtain ⟨slots, uart⟩ := perform_slots_uart h fun u hop => hu ⟨u, hop⟩
    exact ⟨by rw [slots, params]; exact hi.slots, by rw [slots]; exact hi.contexts, by rw [uart, params]; exact hi.uart⟩

/-! ## The sequencer's place in an operation -/

/-- A micro-operation leaves `dly` 0 outside a delay (10_state.md R30). -/
theorem perform_dly (h : perform i w rest op s = .next t) (hd : waitsFirst (op :: rest) ∨ s.dly = 0) :
    t.dly = 0 ∨ ∃ w' n later, t.seq = .busy i w' (.wait n :: later) := by
  cases performed_of_perform h with
  | memRead hm | pollSet hm | pollClear hm => exact .inl ((memRead_sameContexts hm).dly.trans (hd.resolve_left id))
  | memWrite hm | memModify hm => exact .inl ((memWrite_sameContexts hm).dly.trans (hd.resolve_left id))
  | delay => exact .inr ⟨_, _, _, rfl⟩
  | waitOver _ => exact .inl rfl
  | waitOn _ => exact .inr ⟨_, _, _, rfl⟩
  | nop => exact .inl (hd.resolve_left id)
  | finish hu =>
    rw [applyUpdate_frame hu]
    exact .inl (hd.resolve_left id)

theorem perform_seqOk (h : perform i w rest op s = .next t) (hs : s.seq = .busy i w (op :: rest)) (hok : s.seqOk = true) :
    t.seqOk = true := by
  obtain ⟨hall, hd⟩ := (seqOk_busy hs).mp hok
  have hdly := perform_dly h hd
  by_cases hu : ∃ u, op = .finish u
  · obtain ⟨u, rfl⟩ := hu
    cases performed_of_perform h with
    | finish hu =>
      refine (seqOk_idle rfl).mpr (hdly.resolve_right fun ⟨_, _, _, hseq⟩ => ?_)
      cases hseq
  · have params := (perform_untouched h).params
    obtain ⟨slots, -⟩ := perform_slots_uart h fun u hop => hu ⟨u, hop⟩
    obtain hseq | ⟨w', rest', hseq, hrest⟩ := perform_remaining (K := fun o => o.ok s = true) h rfl (fun _ => rfl) hall
    · exact (seqOk_idle hseq).mpr (hdly.resolve_right fun ⟨_, _, _, hwait⟩ => by rw [hseq] at hwait; cases hwait)
    · refine (seqOk_busy hseq).mpr ⟨fun o ho => (MicroOp.ok_congr params slots o).trans (hrest o ho), ?_⟩
      obtain hd | ⟨_, n, later, hwait⟩ := hdly
      · exact .inr hd
      · rw [hseq] at hwait
        cases hwait
        exact .inl trivial

/-- A sequencer that is in an operation is not halted. -/
theorem State.Inv.run_of_busy (hi : s.Inv) (hs : s.seq = .busy i w rest) : s.run = true :=
  Bool.of_not_eq_false fun hrun => by cases (hi.halted hrun).symm.trans hs

theorem perform_inv (h : perform i w rest op s = .next t) (hs : s.seq = .busy i w (op :: rest)) (hi : s.Inv) : t.Inv := by
  have same := perform_untouched h
  have contexts := perform_contextsOk h hi (((seqOk_busy hs).mp hi.seq).1 op List.mem_cons_self)
  obtain ⟨txf, rxf⟩ := perform_queues h hi
  exact {
    params := by rw [same.params]; exact hi.params
    slots := contexts.slots
    contexts := contexts.contexts
    uart := contexts.uart
    txf := by rw [same.params]; exact txf
    rxf := by rw [same.params]; exact rxf
    halt := by rw [same.run, same.fault]; exact hi.halt
    halted := fun hrun => by rw [same.run, hi.run_of_busy hs] at hrun; cases hrun
    seq := perform_seqOk h hs hi.seq }

/-- An operation with nothing left to do. -/
theorem withSeq_idle_inv (hi : s.Inv) (hs : s.seq = .busy i w []) : (s.withSeq .idle).Inv :=
  ⟨hi.params, hi.slots, hi.contexts, hi.uart, hi.txf, hi.rxf, hi.halt, fun _ => rfl,
    (seqOk_idle rfl).mpr (((seqOk_busy hs).mp hi.seq).2.resolve_left id)⟩

end

theorem tick_inv {s t : State} (hi : s.Inv) (h : tick s = .next t) : t.Inv := by
  have he := envTurn_inv hi
  obtain ⟨-, rfl⟩ | ⟨i, w, hs, rfl⟩ | ⟨i, w, op, rest, hs, hperform⟩ := sequencerStep_cases h
  · exact he
  · exact withSeq_idle_inv he hs
  · exact perform_inv hperform hs he

/-! ## The micro-operations that are planned are legal -/

section
variable {s : State}

theorem memRead_ok_regAddr {r : Reg} (hr : r ≠ .muIir) : (MicroOp.memRead (regAddr s.params r)).ok s = true := by
  simp [MicroOp.ok, regAt_regAddr s.params r hr]

theorem memWrite_ok_regAddr {r : Reg} (v : Word) (hr : r ≠ .muIir) (hl : r ≠ .muLsr) :
    (MicroOp.memWrite (regAddr s.params r) v).ok s = true := by
  simp only [MicroOp.ok, regAt_regAddr s.params r hr]

theorem memModify_ok_regAddr {r : Reg} (c b : Word) (hr : r ≠ .muIir) (hl : r ≠ .muLsr) :
    (MicroOp.memModify (regAddr s.params r) c b).ok s = true := by
  simp only [MicroOp.ok, regAt_regAddr s.params r hr]

theorem delay_ok (n : BitVec 8) : (MicroOp.delay n).ok s = true := rfl

theorem poll_ok (k : PollBit) : (MicroOp.poll k).ok s = true := rfl

theorem memWrite_ok_clearCode (hp : s.params.wf = true) :
    (MicroOp.memWrite (regAddr s.params .muIir) s.params.fifoClearCode).ok s = true := by
  simp [MicroOp.ok, regAt_regAddr_of_wf hp]

theorem fselRmw_ok {pin : BitVec 6} (code : BitVec 3) (hpin : pin.toNat ≤ 53) : ∀ op ∈ fselRmw s.params pin code, op.ok s = true := by
  have ha := fselAddr_eq s.params pin (by omega)
  simp [fselRmw, ha, memRead_ok_regAddr, memModify_ok_regAddr]

theorem pullSeq_ok (pin : BitVec 6) (code : BitVec 2) : ∀ op ∈ pullSeq s.params pin code, op.ok s = true := by
  simp [pullSeq, pudAddr_eq, pudclkAddr_eq, memWrite_ok_regAddr, delay_ok]

theorem uartSetup_ok (d : Word) : ∀ op ∈ uartSetup s.params d, op.ok s = true := by
  simp [uartSetup, memRead_ok_regAddr, memWrite_ok_regAddr, memModify_ok_regAddr]

theorem uartPinSetup_ok {pin : BitVec 6} (hpin : pin.toNat ≤ 53) : ∀ op ∈ uartPinSetup s.params pin, op.ok s = true :=
  List.forall_mem_append.mpr ⟨fselRmw_ok _ hpin, pullSeq_ok _ _⟩

theorem uartStart_ok (hp : s.params.wf = true) : ∀ op ∈ uartStart s.params, op.ok s = true := by
  simp [uartStart, memWrite_ok_regAddr, memWrite_ok_clearCode hp]

theorem sendByte_ok (b : Byte) : ∀ op ∈ sendByte s.params b, op.ok s = true := by
  simp [sendByte, memWrite_ok_regAddr, poll_ok]

/-- Micro-operations that are legal, and then a context update that is. -/
theorem ok_append_finish {ops : List MicroOp} {u : Update} (hops : ∀ op ∈ ops, op.ok s = true) (hu : u.ok s = true) :
    ∀ op ∈ ops ++ [.finish u], op.ok s = true :=
  List.forall_mem_append.mpr ⟨hops, by simpa [MicroOp.ok] using hu⟩

theorem planned_ok {i : Instr} {ops : List MicroOp} (h : Planned s i ops) (hp : s.params.wf = true) : ∀ op ∈ ops, op.ok s = true := by
  obtain ⟨htx, hrx⟩ := pins_le_of_wf hp
  cases h with
  | gpioNew hslot hpin hpull =>
    exact ok_append_finish (List.forall_mem_append.mpr ⟨fselRmw_ok _ hpin, pullSeq_ok _ _⟩)
      (by rw [Update.ok, bne_iff_ne.mpr hpull]; simp [hslot, hpin])
  | gpioOn hc =>
    exact ok_append_finish (ops := [_]) (by simp [setAddr_eq, memWrite_ok_regAddr]) (by simp [Update.ok, hc])
  | gpioOff hc =>
    exact ok_append_finish (ops := [_]) (by simp [clrAddr_eq, memWrite_ok_regAddr]) (by simp [Update.ok, hc])
  | @repull _ _ _ code hi hc =>
    have hcode : code ≠ 3 := by
      simp only [List.mem_cons, Prod.mk.injEq, List.not_mem_nil, or_false] at hi
      obtain ⟨-, rfl⟩ | ⟨-, rfl⟩ | ⟨-, rfl⟩ := hi <;> decide
    exact ok_append_finish (pullSeq_ok _ _) (by rw [Update.ok, bne_iff_ne.mpr hcode, hc]; rfl)
  | gpioDrop hc => exact ok_append_finish (ops := []) (by simp) (by simp [Update.ok, hc])
  | uartNew hbaud =>
    refine ok_append_finish ?_ (by simp [Update.ok, hbaud])
    simp only [List.forall_mem_append]
    exact ⟨⟨⟨uartSetup_ok _, uartPinSetup_ok htx⟩, uartPinSetup_ok hrx⟩, uartStart_ok hp⟩
  | uartSendc => exact ok_append_finish (sendByte_ok _) rfl
  | uartReadc => exact ok_append_finish (ops := [_, _]) (by simp [memRead_ok_regAddr, poll_ok]) rfl
  | uartSendStr =>
    refine ok_append_finish (fun op hop => ?_) rfl
    obtain ⟨b, -, hb⟩ := List.mem_flatMap.mp hop
    exact sendByte_ok b op hb

/-! ## A step -/

/-- Taking a fault at an idle sequencer: halted, with a code that is not 0 (60_exceptions.md R210, R219). -/
theorem raise_inv (f : FaultCode) (hi : s.Inv) (hs : s.seq = .idle) : (s.raise f).Inv where
  params := hi.params
  slots := hi.slots
  contexts := hi.contexts
  uart := hi.uart
  txf := hi.txf
  rxf := hi.rxf
  halt := by cases f <;> simp [FaultCode.code]
  halted _ := rfl
  seq := (seqOk_idle rfl).mpr ((seqOk_idle hs).mp hi.seq)

/-- Starting micro-operations that are legal. -/
theorem start_inv {i : Instr} {ops : List MicroOp} (hi : s.Inv) (hr : s.ready) (hops : ∀ op ∈ ops, op.ok s = true) :
    (s.withSeq (.busy i (.plain 0) ops)).Inv := by
  refine ⟨hi.params, hi.slots, hi.contexts, hi.uart, hi.txf, hi.rxf, hi.halt, fun hrun => ?_, ?_⟩
  · cases hr.1.symm.trans hrun
  · exact (seqOk_busy rfl).mpr ⟨fun op hop => (MicroOp.ok_congr (s := s) rfl rfl op).trans (hops op hop),
      .inr ((seqOk_idle hr.2).mp hi.seq)⟩

theorem exec_inv {i : Instr} {t : State} (hi : s.Inv) (h : exec i s = .next t) : t.Inv := by
  obtain rfl | ⟨hr, ⟨f, rfl⟩ | ⟨ops, hplan, hrun⟩⟩ := exec_cases h
  · exact hi
  · exact raise_inv f hi hr.2
  · exact runSeq_keeps (fun _ _ => tick_inv) (start_inv hi hr (planned_ok hplan hi.params)) hrun

theorem withCmdPort_inv (ws : List Word) (hi : s.Inv) : (s.withCmdPort ws).Inv :=
  hi.congr ⟨rfl, rfl, rfl, rfl⟩ rfl rfl rfl hi.txf hi.rxf

end

/-- Settles O52: whatever a step does, it does it through ticks, which keep the invariant, from a state that meets it. -/
theorem everyStepKeepsTheInvariant : Obligations.EveryStepKeepsTheInvariant := by
  intro s t hi h
  unfold step at h
  split at h
  · cases h
    exact envTurn_inv hi
  · exact runSeq_keeps (fun _ _ => tick_inv) hi h
  · rename_i hseq
    split at h
    · exact exec_inv (withCmdPort_inv _ hi) h
    · cases h
      exact raise_inv _ ((withCmdPort_inv _ hi).congr ⟨rfl, rfl, rfl, rfl⟩ rfl rfl rfl hi.txf hi.rxf) hseq
    · cases h
      exact envTurn_inv hi

/-! ## Reset -/

theorem resetWith_slots (p : Params) (launch : Target) : (State.resetWith p launch).slots = List.replicate p.nslot .absent := rfl

/-- Settles O49. -/
theorem resetStateOfTheSequencer : Obligations.ResetStateOfTheSequencer := by
  refine ⟨fun p launch => ⟨rfl, rfl, rfl, rfl, ?_, fun c hc => ?_, rfl⟩, _, _, rfl⟩
  · rw [resetWith_slots, List.length_replicate]
  · rw [resetWith_slots] at hc
    rw [List.eq_of_mem_replicate hc]
    rfl

/-- The state after reset is what a reset leaves. -/
theorem reset_eq_resetEvent : State.reset = State.reset.resetEvent Target.zero := rfl

theorem reset_disciplined : State.reset.Disciplined where
  params := by decide
  trace := rfl
  rest _ _ _ h := by cases h

theorem reset_uartKept : State.reset.UartKept where
  params := by decide
  configured h := by cases h
  rest _ _ _ h := by cases h

/-- Settles O56. -/
theorem resetMeetsTheInvariants : Obligations.ResetMeetsTheInvariants :=
  ⟨reset_eq_resetEvent ▸ resetEvent_inv Target.zero (by decide), reset_disciplined, reset_uartKept⟩

end Sys2Proof.Machine
end

section
/-! The register target (10_state.md R42 to R64): an access of a register's own address is that register's rule and an event, and each
statement about a register is then its rule read out. -/

namespace Sys2Proof.Machine

/-! ## An access of a register -/

section
variable {r : Reg} {v : Word} {s t : State}

/-- Only the address of `MU_IIR` needs legal parameters to be that register's own. -/
theorem regAt_own {p : Params} (hr : r = .muIir → p.wf = true) : regAt p (regAddr p r) = some r := by
  by_cases h : r = .muIir
  · exact regAt_regAddr_of_wf (hr h) r
  · exact regAt_regAddr p r h

theorem memRead_regAddr (hr : r = .muIir → s.params.wf = true) :
    memRead (regAddr s.params r) s
      = .ok ((readReg r s).1, (readReg r s).2.logEvent (.rd (regAddr s.params r) (readReg r s).1.toWord)) := by
  simp only [memRead, regAt_own hr]

theorem memWrite_regAddr (hr : r = .muIir → s.params.wf = true) (h : writeReg r v s = .ok t) :
    memWrite (regAddr s.params r) v s = .ok (t.logEvent (.wr (regAddr s.params r) v)) := by
  simp only [memWrite, regAt_own hr, h]

theorem memWrite_regAddr_error {e : Refusal} (hr : r = .muIir → s.params.wf = true) (h : writeReg r v s = .error e) :
    memWrite (regAddr s.params r) v s = .error e := by
  simp only [memWrite, regAt_own hr, h]

end

/-! ## Output latches (10_state.md R44, R46) -/

/-- A pin's bit of the mask of a word written to register `n` of a pair. -/
theorem pinMask_getLsbD (n : Fin 2) (v : Word) {q : Nat} (hq : q < 54) :
    (pinMask n v).getLsbD q = (decide (q / 32 = n.val) && v.getLsbD (q % 32)) := by
  have hn := n.isLt
  simp only [pinMask, BitVec.getLsbD_shiftLeft, BitVec.getLsbD_setWidth, Config.pinCount]
  obtain hlt | h | hgt := Nat.lt_trichotomy (q / 32) n.val
  · simp [Nat.ne_of_lt hlt, show q < 32 * n.val by omega]
  · have hm : q - 32 * n.val = q % 32 := by omega
    simp [h, hm, hq, show ¬ q < 32 * n.val by omega, show q % 32 < 54 by omega]
  · have hv : v.getLsbD (q - 32 * n.val) = false := BitVec.getLsbD_of_ge v _ (by omega)
    simp [Nat.ne_of_gt hgt, hv]

/-- The mask of register `n` at the pin of its bit `i`. -/
theorem pinMask_getLsbD_bit (n : Fin 2) (v : Word) {i : Nat} (hi : i < 32) (hp : 32 * n.val + i ≤ 53) :
    (pinMask n v).getLsbD (32 * n.val + i) = v.getLsbD i := by
  have hdiv : (32 * n.val + i) / 32 = n.val := by omega
  have hmod : (32 * n.val + i) % 32 = i := by omega
  rw [pinMask_getLsbD n v (by omega), hdiv, hmod, decide_eq_true rfl, Bool.true_and]

/-- The mask selects no pin of the other register, and none whose bit is 0. -/
theorem pinMask_getLsbD_unselected (n : Fin 2) (v : Word) {q : Nat} (hq : q < 54) (h : q / 32 ≠ n.val ∨ v.getLsbD (q % 32) = false) :
    (pinMask n v).getLsbD q = false := by
  rw [pinMask_getLsbD n v hq]
  obtain h | h := h <;> simp [h]

/-- The latches after a write of `SET[n]`. -/
theorem setLatches_getLsbD (n : Fin 2) (v : Word) (out : BitVec Config.pinCount) (q : Nat) :
    (out ||| pinMask n v).getLsbD q = (out.getLsbD q || (pinMask n v).getLsbD q) := BitVec.getLsbD_or

/-- The latches after a write of `CLR[n]`. -/
theorem clrLatches_getLsbD (n : Fin 2) (v : Word) (out : BitVec Config.pinCount) {q : Nat} (hq : q < 54) :
    (out &&& ~~~pinMask n v).getLsbD q = (out.getLsbD q && !(pinMask n v).getLsbD q) := by
  simp [hq]

/-- Settles O34. -/
theorem setWriteSetsLatches : Obligations.SetWriteSetsLatches := by
  intro n v s
  refine ⟨_, memWrite_regAddr (by simp) rfl, fun i hi hp => ?_, fun q hq hn => ?_, rfl⟩
  · exact (setLatches_getLsbD n v _ _).trans (by rw [pinMask_getLsbD_bit n v hi hp, Bool.or_comm])
  · exact (setLatches_getLsbD n v _ _).trans (by rw [pinMask_getLsbD_unselected n v hq (.inl hn), Bool.or_false])

/-- Settles O35. -/
theorem clrWriteClearsLatches : Obligations.ClrWriteClearsLatches := by
  intro n v s
  have kept : ∀ q < 54, q / 32 ≠ n.val ∨ v.getLsbD (q % 32) = false →
      (s.target.out &&& ~~~pinMask n v).getLsbD q = s.target.out.getLsbD q := fun q hq hsel => by
    rw [clrLatches_getLsbD n v _ hq, pinMask_getLsbD_unselected n v hq hsel, Bool.not_false, Bool.and_true]
  refine ⟨_, memWrite_regAddr (by simp) rfl, fun i hi hp => ?_, fun q hq hn => kept q hq (.inl hn), fun u hu q hq hsel => ?_, rfl⟩
  · exact (clrLatches_getLsbD n v _ (by omega)).trans (by rw [pinMask_getLsbD_bit n v hi hp, Bool.and_comm])
  · rw [memWrite_regAddr (by simp) rfl] at hu
    cases hu
    refine (kept q hq hsel).trans ((setLatches_getLsbD n v _ _).trans ?_)
    rw [pinMask_getLsbD_unselected n v hq hsel, Bool.or_false]

/-! ## Stored registers (10_state.md R42, R52, R55, R57 to R59) -/

/-- With the mini-UART enabled a write of one of its stored registers stores the word written. -/
theorem muWritten_of_enabled {s : State} (v : Word) (he : s.target.enabled = true) : muWritten s v = v := by
  rw [muWritten, if_pos he]

/-- Settles O36. -/
theorem writesStoreTheWholeWord : Obligations.WritesStoreTheWholeWord := by
  intro v s
  refine ⟨fun n => ⟨memWrite_regAddr (r := .fsel n) (v := v) (s := s) (by simp) rfl, memRead_regAddr (r := .fsel n) (by simp)⟩,
    memWrite_regAddr (r := .auxenb) (v := v) (s := s) (by simp) rfl, memRead_regAddr (r := .auxenb) (by simp), fun he => ?_,
    memWrite_regAddr_error (by simp) rfl⟩
  have lcr := memWrite_regAddr (r := .muLcr) (v := v) (s := s) (by simp) rfl
  have cntl := memWrite_regAddr (r := .muCntl) (v := v) (s := s) (by simp) rfl
  have baud := memWrite_regAddr (r := .muBaud) (v := v) (s := s) (by simp) rfl
  rw [muWritten_of_enabled v he] at lcr cntl baud
  exact ⟨⟨_, lcr⟩, ⟨_, cntl⟩, ⟨_, baud⟩⟩

/-! ## The line status (10_state.md R56, R57) -/

theorem readReg_muLsr_of_enabled {s : State} (he : s.target.enabled = true) :
    readReg .muLsr s = (lineStatus s.params s.target (Config.drawWord s.draws), s.drawn) := by
  rw [readReg, if_pos he]

theorem lineStatus_bit0 (p : Params) (t : Target) (other : Word) : (lineStatus p t other).toWord.getLsbD 0 = rxReady t :=
  (ReadWord.bit_eq .rxReady _).symm

theorem lineStatus_bit5 (p : Params) (t : Target) (other : Word) : (lineStatus p t other).toWord.getLsbD 5 = txReady p t :=
  (ReadWord.bit_eq .txEmpty _).symm

/-- Settles O37. -/
theorem lineStatusTellsTheQueues : Obligations.LineStatusTellsTheQueues := by
  intro s he
  have hread := memRead_regAddr (r := .muLsr) (s := s) (by simp)
  rw [readReg_muLsr_of_enabled he] at hread
  refine ⟨_, _, hread, lineStatus_bit0 _ _ _, fun hn => ?_, fun hn => ?_, rfl⟩
  · rw [lineStatus_bit5, txReady, hn]
  · rw [lineStatus_bit5, txReady, hn]

/-! ## Reads and their frames (10_state.md R47, R51 (c), R54, R55, R58 to R60, R64) -/

/-- A recorded read changes `RXF`, the trace and the count of draws, and nothing else. -/
theorem recordedRead_frame (r : Reg) (e : Event) (s : State) :
    (readReg r s).2.logEvent e
      = { s with target := { s.target with rxf := ((readReg r s).2.logEvent e).target.rxf }, trace := s.trace ++ [e],
                 draws := ((readReg r s).2.logEvent e).draws } :=
  congrArg (State.logEvent e) (readReg_frame r s)

/-- Settles O44. -/
theorem undescribedReadsChangeNothing : Obligations.UndescribedReadsChangeNothing := by
  intro r s hp hr
  have hio : r ≠ .muIo := by
    rintro rfl
    simp at hr
  refine ⟨_, _, memRead_regAddr fun _ => hp, (recordedRead_frame r _ s).trans ?_⟩
  rw [State.logEvent_target, readReg_target hio]

/-- While the mini-UART is disabled a read of `MU_IO` may take the head of `RXF`. -/
theorem readReg_muIo_rxf_of_disabled {s : State} (he : s.target.enabled = false) :
    (readReg .muIo s).2.target.rxf = s.target.rxf ∨ (readReg .muIo s).2.target.rxf = s.target.rxf.drop 1 := by
  simp only [readReg, he, Bool.false_eq_true, if_false, State.withTarget_target]
  split
  · exact .inl rfl
  · exact .inr rfl

theorem readReg_muIo_of_cons {s : State} {b : Byte} {later : List Byte} (he : s.target.enabled = true)
    (hx : s.target.rxf = b :: later) :
    (readReg .muIo s).1.low = b ∧ (readReg .muIo s).2.target.rxf = later := by
  simp [readReg, he, hx, ReadWord.low]

theorem readReg_muIo_rxf_of_nil {s : State} (he : s.target.enabled = true) (hx : s.target.rxf = []) :
    (readReg .muIo s).2.target.rxf = [] := by
  simp [readReg, he, hx, State.drawWord]

/-- Settles O38. -/
theorem dataReadPops : Obligations.DataReadPops := by
  intro s
  refine ⟨fun he => ⟨_, _, memRead_regAddr (by simp), fun b later hx => ?_, readReg_muIo_rxf_of_nil he, recordedRead_frame _ _ s⟩,
    fun he hp reg _ => ⟨_, _, memRead_regAddr fun _ => hp, ?_, recordedRead_frame _ _ s⟩⟩
  · obtain ⟨hlow, hrxf⟩ := readReg_muIo_of_cons he hx
    exact ⟨(ReadWord.low_eq _).symm.trans hlow, hrxf⟩
  · by_cases hio : reg = .muIo
    · subst hio
      exact (readReg_muIo_rxf_of_disabled he).imp_right fun h => ⟨rfl, h⟩
    · exact .inl (congrArg Target.rxf (readReg_target hio s))

/-! ## Writes of the queues (10_state.md R53, R60, R64) -/

theorem txfWritten_of_room {s : State} (b : Byte) (he : s.target.enabled = true) (h : s.target.txf.length < s.params.fifoDepth) :
    txfWritten s b = s.target.txf ++ [b] := by
  rw [txfWritten, if_pos he, if_pos h]

theorem txfWritten_of_full {s : State} (b : Byte) (he : s.target.enabled = true) (h : s.params.fifoDepth ≤ s.target.txf.length) :
    txfWritten s b = s.target.txf ∨ txfWritten s b = s.target.txf.dropLast ++ [b] := by
  rw [txfWritten, if_pos he, if_neg (Nat.not_lt.mpr h)]
  split
  · exact .inl rfl
  · exact .inr rfl

theorem drawQueue_length_le (s : State) : s.drawQueue.length ≤ s.params.fifoDepth := List.length_take_le _ _

theorem txfWritten_of_disabled {s : State} (b : Byte) (he : s.target.enabled = false) : txfWritten s b = s.drawQueue := by
  simp [txfWritten, he]

/-- While the mini-UART is disabled a write of `MU_IIR` leaves both queues open. -/
theorem writeReg_muIir_of_disabled {s : State} (v : Word) (he : s.target.enabled = false) :
    writeReg .muIir v s = .ok (s.drawn.drawn.withTarget { s.target with txf := s.drawQueue, rxf := s.drawn.drawQueue }) := by
  simp [writeReg, he]

/-- Settles O39. -/
theorem dataWritePushes : Obligations.DataWritePushes := by
  intro v s
  refine ⟨fun he => ⟨_, memWrite_regAddr (by simp) rfl, txfWritten_of_room _ he, txfWritten_of_full _ he, rfl⟩,
    fun he hp => ⟨⟨_, memWrite_regAddr (by simp) rfl, ?_, rfl⟩,
      ⟨_, memWrite_regAddr (fun _ => hp) (writeReg_muIir_of_disabled v he), drawQueue_length_le s, drawQueue_length_le s.drawn, rfl⟩,
      ⟨_, memWrite_regAddr (by simp) rfl, rfl⟩, ⟨_, memWrite_regAddr (by simp) rfl, rfl⟩,
      ⟨_, memWrite_regAddr (by simp) rfl, rfl⟩⟩⟩
  exact (congrArg List.length (txfWritten_of_disabled _ he)).trans_le (drawQueue_length_le s)

theorem writeReg_muIir_of_enabled {s : State} {v : Word} (he : s.target.enabled = true) :
    writeReg .muIir v s
      = if v = s.params.fifoClearCode then .ok (s.withTarget { s.target with txf := [], rxf := [] }) else .error (.iirWrite v) := by
  simp [writeReg, he]

/-- Settles O40. -/
theorem fifoClearEmptiesBoth : Obligations.FifoClearEmptiesBoth := by
  intro v s hp he
  have hwrite := writeReg_muIir_of_enabled (v := v) he
  refine ⟨fun hv => ?_, fun hv => ?_⟩
  · rw [if_pos hv] at hwrite
    exact memWrite_regAddr (fun _ => hp) hwrite
  · rw [if_neg hv] at hwrite
    exact memWrite_regAddr_error (fun _ => hp) hwrite

/-! ## The serial line (10_state.md R62, R63) -/

/-- A line step that is not enabled is not taken. -/
theorem txDrain_of_not_enabled {s : State} (h : s.target.enabled = false ∨ s.target.txEn = false) : s.txDrain = s := by
  obtain h | h := h <;> simp [State.txDrain, h]

theorem rxArrive_of_not_enabled {s : State} (b : Byte) (h : s.target.enabled = false ∨ s.target.rxEn = false) : s.rxArrive b = s := by
  obtain h | h := h <;> simp [State.rxArrive, h]

theorem txDrain_of_enabled {s : State} (he : s.target.enabled = true) (ht : s.target.txEn = true) :
    (∀ b later, s.target.txf = b :: later →
      s.txDrain = (s.withTarget { s.target with txf := later }).withLineTx (s.lineTx ++ [b])) ∧
    (s.target.txf = [] → s.txDrain = s) := by
  constructor
  · intro b later hx
    simp [State.txDrain, he, ht, hx]
  · intro hx
    simp [State.txDrain, he, ht, hx]

theorem rxArrive_of_room {s : State} (b : Byte) (he : s.target.enabled = true) (hr : s.target.rxEn = true)
    (hroom : s.target.rxf.length < s.params.fifoDepth) :
    s.rxArrive b = s.withTarget { s.target with rxf := s.target.rxf ++ [b] } := by
  simp [State.rxArrive, he, hr, hroom]

theorem rxArrive_of_full {s : State} (b : Byte) (he : s.target.enabled = true) (hr : s.target.rxEn = true)
    (hfull : s.params.fifoDepth ≤ s.target.rxf.length) :
    s.rxArrive b = s.drawn.withTarget
      { s.target with rxf := if Config.drawBit s.draws then s.target.rxf else s.target.rxf.dropLast ++ [b] } := by
  simp [State.rxArrive, he, hr, Nat.not_lt.mpr hfull]

/-- Settles O47. -/
theorem txDrainMovesTheHead : Obligations.TxDrainMovesTheHead := by
  intro s
  refine ⟨fun b later he ht hx => (txDrain_of_enabled he ht).1 b later hx, fun h => ?_⟩
  by_cases hen : s.target.enabled = true ∧ s.target.txEn = true
  · have hx : s.target.txf = [] :=
      (h.resolve_left fun haux => by cases haux.symm.trans hen.1).resolve_left fun hcntl => by cases hcntl.symm.trans hen.2
    exact (txDrain_of_enabled hen.1 hen.2).2 hx
  · exact txDrain_of_not_enabled (by simpa [imp_iff_not_or] using hen)

/-- Settles O48. -/
theorem rxArriveAppends : Obligations.RxArriveAppends := by
  intro b s
  refine ⟨rxArrive_of_room b, fun he hr hfull => ⟨_, rxArrive_of_full b he hr hfull, ?_, rfl⟩, rxArrive_of_not_enabled b⟩
  rw [State.withTarget_target]
  split
  · exact .inl rfl
  · exact .inr rfl

end Sys2Proof.Machine
end

section
/-! The pull latch (10_state.md R48 to R51; 70_reset_and_hazards.md R253): what a write of `PUD` or `PUDCLK[n]` does to a pin, and what the
three tests of the trace say of the events after a register's last write. -/

namespace Sys2Proof.Machine

/-! ## A pin after a write of a pull register -/

theorem pullAfterClock_getElem (n : Fin 2) (v : Word) (s : State) (p : Fin 54) :
    (pullAfterClock n v s)[p]
      = if holdBroken s p then Config.drawPull s.draws p.val
        else if (pinMask n v).getLsbD p.val then latchedCode s p else s.target.pull[p] := by
  simp [pullAfterClock]

theorem pullAfterStage_getElem (v : Word) (s : State) (p : Fin 54) :
    (pullAfterStage v s)[p] = if stageReaches s v p then Config.drawPull s.draws p.val else s.target.pull[p] := by
  simp [pullAfterStage]

/-- A defined staged code latches after its set-up delay. -/
theorem latchedCode_of_settled {s : State} (p : Fin 54) (hc : s.target.staged ≠ 3)
    (hs : settledSince (regAddr s.params .pud) s.trace = true) : latchedCode s p = s.target.staged := by
  rw [latchedCode, if_pos (by rw [bne_iff_ne.mpr hc, hs]; rfl)]

/-- An undefined code, or one without its set-up delay, latches a free value. -/
theorem latchedCode_of_unsettled {s : State} (p : Fin 54)
    (h : s.target.staged = 3 ∨ settledSince (regAddr s.params .pud) s.trace = false) :
    latchedCode s p = Config.drawPull s.draws p.val := by
  rw [latchedCode, if_neg]
  obtain h | h := h <;> simp [h]

/-- Settles O42. -/
theorem clockWriteLatchesStagedCode : Obligations.ClockWriteLatchesStagedCode := by
  intro n v s
  refine ⟨_, memWrite_regAddr (by simp) rfl, rfl, fun p => ⟨fun hkept => ?_, fun hbroken => ?_⟩, rfl⟩
  · have hpull : (pullAfterClock n v s)[p]
        = if (pinMask n v).getLsbD p.val then latchedCode s p else s.target.pull[p] := by
      rw [pullAfterClock_getElem, if_neg (Bool.eq_false_iff.mp hkept)]
    have selected (hn : p.val / 32 = n.val) (hv : v.getLsbD (p.val % 32) = true) :
        (pullAfterClock n v s)[p] = latchedCode s p := by
      rw [hpull, if_pos (by rw [pinMask_getLsbD n v p.isLt, hn, hv, decide_eq_true rfl]; rfl)]
    refine ⟨fun hn hv hc hs => ?_, fun hn hv h => ?_, fun h => ?_⟩
    · exact (selected hn hv).trans (latchedCode_of_settled p hc hs)
    · exact (selected hn hv).trans (latchedCode_of_unsettled p h)
    · exact hpull.trans (if_neg (Bool.eq_false_iff.mp (pinMask_getLsbD_unselected n v p.isLt h)))
  · exact (pullAfterClock_getElem n v s p).trans (if_pos hbroken)

/-- A write of `PUD` that is not the clean-up's first clear. -/
theorem cleansUp_eq_false {s : State} {v : Word} {p : Fin 54}
    (h : v.extractLsb' 0 2 ≠ 0 ∨ settledSince (regAddr s.params (.pudclk (pairIndex p))) s.trace = false ∨
      restagedSince (regAddr s.params .pud) (regAddr s.params (.pudclk (pairIndex p))) s.trace = true) :
    cleansUp s v p = false := by
  unfold cleansUp
  obtain h | h | h := h
  · rw [beq_false_of_ne h]
    rfl
  · rw [h, Bool.and_false, Bool.false_and]
  · rw [h, Bool.not_true, Bool.and_false]

/-- Settles O43. -/
theorem stageWriteReachesClockedPins : Obligations.StageWriteReachesClockedPins := by
  intro v s
  refine ⟨_, memWrite_regAddr (by simp) rfl, rfl, fun p => ?_, rfl⟩
  have kept (h : stageReaches s v p = false) : (pullAfterStage v s)[p] = s.target.pull[p] :=
    (pullAfterStage_getElem v s p).trans (if_neg (Bool.eq_false_iff.mp h))
  refine ⟨fun hbit => kept (stageReaches_of_bit_zero v hbit), fun hv hset hre => kept ?_, fun hbit h => ?_⟩
  · simp only [stageReaches, cleansUp, hv, hset, hre, beq_self_eq_true, Bool.not_false, Bool.and_true, Bool.not_true, Bool.and_false]
  · refine (pullAfterStage_getElem v s p).trans (if_pos ?_)
    rw [stageReaches, hbit, cleansUp_eq_false h]
    rfl

/-! ## The tests of the trace -/

/-- A trace holds no write of a register, or it splits at the last one. -/
theorem lastWrite_cases (a : Word) (tr : List Event) :
    (∀ v, Event.wr a v ∉ tr) ∨ ∃ before v after, tr = before ++ .wr a v :: after ∧ ∀ v', Event.wr a v' ∉ after := by
  induction tr with
  | nil => exact .inl fun v hv => by cases hv
  | cons e tr ih =>
    obtain hnone | ⟨before, v, after, rfl, hlast⟩ := ih
    · by_cases he : ∃ v, e = .wr a v
      · obtain ⟨v, rfl⟩ := he
        exact .inr ⟨[], v, tr, rfl, hnone⟩
      · refine .inl fun v hv => ?_
        obtain rfl | hv := List.mem_cons.mp hv
        · exact he ⟨v, rfl⟩
        · exact hnone v hv
    · exact .inr ⟨e :: before, v, after, rfl, hlast⟩

section
variable {a : Word} {tr : List Event}

/-- The trace holds a completed delay of at least `SETTLE_CYCLES`. -/
def Settles (tr : List Event) : Prop := ∃ n : BitVec 8, 150 ≤ n ∧ Event.dl n ∈ tr

theorem settles_cons {e : Event} : Settles (e :: tr) ↔ (∃ n : BitVec 8, 150 ≤ n ∧ e = .dl n) ∨ Settles tr := by
  simp only [Settles, List.mem_cons, and_or_left, exists_or, eq_comm]

/-- Without a write to count from there is nothing to count. -/
theorem settleFold_none (h : ∀ v, Event.wr a v ∉ tr) : tr.foldl (settleStep a) none = none := by
  induction tr with
  | nil => rfl
  | cons e tr ih =>
    have hstep : settleStep a none e = none := by
      cases e with
      | rd b w => rfl
      | wr b v =>
        have hb : b ≠ a := fun hb => h v (by simp [hb])
        simp [settleStep, hb]
      | dl n => rfl
    rw [List.foldl_cons, hstep]
    exact ih fun v hv => h v (List.mem_cons_of_mem _ hv)

/-- Counted from a write on, with no later write: the delays that have completed since. -/
theorem settleFold_some (h : ∀ v, Event.wr a v ∉ tr) (b : Bool) :
    tr.foldl (settleStep a) (some b) = some true ↔ b = true ∨ Settles tr := by
  induction tr generalizing b with
  | nil => simp [Settles]
  | cons e tr ih =>
    have ih := ih fun v hv => h v (List.mem_cons_of_mem _ hv)
    rw [List.foldl_cons, settles_cons]
    cases e with
    | rd c w => simpa [settleStep] using ih b
    | wr c v =>
      have hc : c ≠ a := fun hc => h v (by simp [hc])
      simpa [settleStep, hc] using ih b
    | dl n =>
      have hstep : settleStep a (some b) (.dl n) = some (b || decide (Config.settleCycles ≤ n)) := rfl
      rw [hstep, ih, Bool.or_eq_true, decide_eq_true_iff, or_assoc]
      simp [Config.settleCycles]

/-- What comes before a write does not count. -/
theorem settleFold_from_write (before after : List Event) (v : Word) (acc : Option Bool) :
    (before ++ .wr a v :: after).foldl (settleStep a) acc = after.foldl (settleStep a) (some false) := by
  rw [List.foldl_append, List.foldl_cons]
  simp [settleStep]

theorem settledSince_of_unwritten (h : ∀ v, Event.wr a v ∉ tr) : settledSince a tr = false := by
  rw [settledSince, settleFold_none h]
  rfl

theorem heldSince_of_unwritten (h : ∀ v, Event.wr a v ∉ tr) : heldSince a tr = true ↔ Settles tr := by
  rw [heldSince, beq_iff_eq, settleFold_some h]
  simp

theorem settledSince_from_write (before : List Event) {after : List Event} (v : Word) (h : ∀ v', Event.wr a v' ∉ after) :
    settledSince a (before ++ .wr a v :: after) = true ↔ Settles after := by
  rw [settledSince, settleFold_from_write, beq_iff_eq, settleFold_some h]
  simp

/-- Where the trace holds a write to count from, the launch does not matter. -/
theorem heldSince_from_write (before after : List Event) (v : Word) :
    heldSince a (before ++ .wr a v :: after) = settledSince a (before ++ .wr a v :: after) := by
  rw [heldSince, settledSince, settleFold_from_write, settleFold_from_write]

theorem settledSince_iff : settledSince a tr = true ↔
    ∃ before v after, tr = before ++ .wr a v :: after ∧ (∀ v', Event.wr a v' ∉ after) ∧ Settles after := by
  refine ⟨fun h => ?_, fun ⟨before, v, after, htr, hlast, hset⟩ => htr ▸ (settledSince_from_write before v hlast).mpr hset⟩
  obtain hnone | ⟨before, v, after, rfl, hlast⟩ := lastWrite_cases a tr
  · rw [settledSince_of_unwritten hnone] at h
    cases h
  · exact ⟨before, v, after, rfl, hlast, (settledSince_from_write before v hlast).mp h⟩

theorem heldSince_iff : heldSince a tr = true ↔ settledSince a tr = true ∨ (∀ v, Event.wr a v ∉ tr) ∧ Settles tr := by
  obtain hnone | ⟨before, v, after, rfl, -⟩ := lastWrite_cases a tr
  · rw [heldSince_of_unwritten hnone, settledSince_of_unwritten hnone]
    simp [hnone]
  · rw [heldSince_from_write]
    exact ⟨.inl, fun h => h.resolve_right fun ⟨hnone, _⟩ => hnone v (by simp)⟩

/-- A write after which the clock register is not written splits the trace. -/
theorem split_at_write {pud clk : Word} {v : Word} (h : ∀ v', Event.wr clk v' ∉ tr) (hv : Event.wr pud v ∈ tr) :
    ∃ before v after, tr = before ++ .wr pud v :: after ∧ ∀ v', Event.wr clk v' ∉ after := by
  obtain ⟨before, after, rfl⟩ := List.append_of_mem hv
  exact ⟨before, v, after, rfl, fun v' hv' => h v' (by simp [hv'])⟩

/-- Without a write of the clock register in between, a write of `PUD` stays counted. -/
theorem restageFold_iff {pud clk : Word} (h : ∀ v, Event.wr clk v ∉ tr) (acc : Bool) :
    tr.foldl (restageStep pud clk) acc = true ↔ acc = true ∨ ∃ v, Event.wr pud v ∈ tr := by
  induction tr generalizing acc with
  | nil => simp
  | cons e tr ih =>
    rw [List.foldl_cons, ih fun v hv => h v (List.mem_cons_of_mem _ hv)]
    cases e with
    | wr c v =>
      have hc : c ≠ clk := fun hc => h v (by simp [hc])
      by_cases hp : c = pud
      · subst hp
        simp [restageStep, hc]
      · simp [restageStep, hc, hp, Ne.symm hp]
    | _ => simp [restageStep]

theorem restagedSince_iff {pud clk : Word} (hne : pud ≠ clk) : restagedSince pud clk tr = true ↔
    ∃ before v after, tr = before ++ .wr pud v :: after ∧ ∀ v', Event.wr clk v' ∉ after := by
  constructor
  · intro h
    obtain hnone | ⟨before, v, after, rfl, hlast⟩ := lastWrite_cases clk tr
    · obtain ⟨v, hv⟩ := ((restageFold_iff hnone false).mp h).resolve_left Bool.false_ne_true
      exact split_at_write hnone hv
    · rw [restagedSince, List.foldl_append, List.foldl_cons, restageStep, if_pos (beq_self_eq_true clk)] at h
      obtain ⟨v', hv'⟩ := ((restageFold_iff hlast false).mp h).resolve_left Bool.false_ne_true
      obtain ⟨before', v'', after', rfl, hlast'⟩ := split_at_write hlast hv'
      exact ⟨before ++ .wr clk v :: before', v'', after', by simp, hlast'⟩
  · rintro ⟨before, v, after, rfl, hlast⟩
    rw [restagedSince, List.foldl_append, List.foldl_cons, restageFold_iff hlast]
    simp [restageStep, hne]

end

/-- Settles O41. -/
theorem traceTestsSayWhatFollowsTheLastWrite : Obligations.TraceTestsSayWhatFollowsTheLastWrite :=
  fun _ _ _ => ⟨settledSince_iff, heldSince_iff, restagedSince_iff⟩

end Sys2Proof.Machine
end

section
/-! Two invariants of a run without a reset: the operations other than `GPIO.NEW` and `GPIO.DROP` leave the valid bits alone (10_state.md
R22), and every operation leaves the pull machinery clean (10_state.md R73). Each is a condition on the micro-operations that remain,
which every tick keeps. -/

namespace Sys2Proof.Machine

/-! ## Valid bits -/

/-- A micro-operation that changes no valid bit. -/
def MicroOp.keepsValid : MicroOp → Bool
  | .finish (.newContext _ _ _ _) => false
  | .finish (.drop _) => false
  | .finish _ => true
  | .memRead _ | .memWrite _ _ | .memModify _ _ _ | .delay _ | .wait _ | .poll _ | .nop => true

theorem updateContext_valid {slot : BitVec 8} {f : GpioContext → GpioContext} {s t : State} (hf : ∀ c, (f c).valid = c.valid)
    (h : s.updateContext slot f = .ok t) : t.slots.map (·.valid) = s.slots.map (·.valid) := by
  unfold State.updateContext at h
  split at h
  · rename_i c hc
    cases h
    obtain ⟨-, hget, -⟩ := context_eq_some.mp hc
    obtain ⟨hlt, rfl⟩ := List.getElem?_eq_some_iff.mp hget
    rw [State.setContext_slots, List.map_set, hf]
    exact List.ext_getElem (by simp) fun k _ _ => by
      rw [List.getElem_set]
      split
      · subst k
        simp
      · rfl
  · cases h

theorem applyUpdate_valid {u : Update} {s t : State} (hu : (MicroOp.finish u).keepsValid = true) (h : applyUpdate u s = .ok t) :
    t.slots.map (·.valid) = s.slots.map (·.valid) := by
  cases u with
  | newContext slot pin mode pull => cases hu
  | drop slot => cases hu
  | setState slot on => exact updateContext_valid (f := fun c => { c with state := on }) (fun _ => rfl) h
  | setPull slot code => exact updateContext_valid (f := fun c => { c with pull := code }) (fun _ => rfl) h
  | newUart baud | sent | received =>
    cases h
    rfl

theorem perform_valid {i : Instr} {w : ReadWord} {rest : List MicroOp} {op : MicroOp} {s t : State}
    (h : perform i w rest op s = .next t) (hop : op.keepsValid = true) : t.slots.map (·.valid) = s.slots.map (·.valid) := by
  by_cases hu : ∃ u, op = .finish u
  · obtain ⟨u, rfl⟩ := hu
    cases performed_of_perform h with
    | finish happly =>
      rw [State.withSeq_slots, State.respond_slots]
      exact applyUpdate_valid hop happly
  · rw [(perform_slots_uart h fun u hop => hu ⟨u, hop⟩).1]

/-- The slots have these valid bits, and no reset and no remaining micro-operation will change them. -/
structure ValidKept (valid : List Bool) (s : State) : Prop where
  lineOnly : s.lineOnly
  slots : s.slots.map (·.valid) = valid
  rest : ∀ i w rest, s.seq = .busy i w rest → ∀ op ∈ rest, op.keepsValid = true

theorem perform_lineOnly {i : Instr} {w : ReadWord} {rest : List MicroOp} {op : MicroOp} {s t : State}
    (h : perform i w rest op s = .next t) (hl : s.lineOnly) : t.lineOnly := by
  unfold State.lineOnly
  rw [(perform_untouched h).sched]
  exact hl

theorem tick_validKept {valid : List Bool} {s t : State} (hs : ValidKept valid s) (h : tick s = .next t) : ValidKept valid t := by
  have line := envTurn_line s hs.lineOnly
  have he : ValidKept valid (envTurn s) :=
    ⟨line.lineOnly hs.lineOnly, by rw [line.slots]; exact hs.slots, by rw [line.seq]; exact hs.rest⟩
  obtain ⟨-, rfl⟩ | ⟨i, w, hseq, rfl⟩ | ⟨i, w, op, rest, hseq, hperform⟩ := sequencerStep_cases h
  · exact he
  · exact ⟨he.lineOnly, he.slots, fun _ _ _ hidle => by cases hidle⟩
  · have hall := he.rest i w _ hseq
    refine ⟨perform_lineOnly hperform he.lineOnly, (perform_valid hperform (hall op List.mem_cons_self)).trans he.slots, ?_⟩
    intro i' w' rest' hbusy
    obtain hidle | ⟨w'', rest'', hseq', hrest⟩ := perform_remaining (K := fun o => o.keepsValid = true) hperform rfl (fun _ => rfl) hall
    · cases hidle.symm.trans hbusy
    · cases hseq'.symm.trans hbusy
      exact hrest

theorem pullSeq_keepsValid (p : Params) (pin : BitVec 6) (code : BitVec 2) : ∀ op ∈ pullSeq p pin code, op.keepsValid = true := by
  simp [pullSeq, MicroOp.keepsValid]

theorem uartPinSetup_keepsValid (p : Params) (pin : BitVec 6) : ∀ op ∈ uartPinSetup p pin, op.keepsValid = true :=
  List.forall_mem_append.mpr ⟨by simp [fselRmw, MicroOp.keepsValid], pullSeq_keepsValid _ _ _⟩

theorem sendByte_keepsValid (p : Params) (b : Byte) : ∀ op ∈ sendByte p b, op.keepsValid = true := by
  simp [sendByte, MicroOp.keepsValid]

theorem planned_keepsValid {s : State} {i : Instr} {ops : List MicroOp} (h : Planned s i ops)
    (hnew : ∀ slot pin mode pull, i ≠ .gpioNew slot pin mode pull) (hdrop : ∀ slot, i ≠ .gpioDrop slot) :
    ∀ op ∈ ops, op.keepsValid = true := by
  cases h with
  | gpioNew => exact absurd rfl (hnew _ _ _ _)
  | gpioDrop => exact absurd rfl (hdrop _)
  | gpioOn | gpioOff | uartReadc => simp [MicroOp.keepsValid]
  | repull => exact List.forall_mem_append.mpr ⟨pullSeq_keepsValid _ _ _, by simp [MicroOp.keepsValid]⟩
  | uartNew =>
    simp only [List.forall_mem_append]
    exact ⟨⟨⟨⟨by simp [uartSetup, MicroOp.keepsValid], uartPinSetup_keepsValid _ _⟩, uartPinSetup_keepsValid _ _⟩,
      by simp [uartStart, MicroOp.keepsValid]⟩, by simp [MicroOp.keepsValid]⟩
  | uartSendc => exact List.forall_mem_append.mpr ⟨sendByte_keepsValid _ _, by simp [MicroOp.keepsValid]⟩
  | uartSendStr =>
    refine List.forall_mem_append.mpr ⟨fun op hop => ?_, by simp [MicroOp.keepsValid]⟩
    obtain ⟨b, -, hb⟩ := List.mem_flatMap.mp hop
    exact sendByte_keepsValid _ b op hb

/-- Settles O59. -/
theorem onlyNewAndDropChangeValid : Obligations.OnlyNewAndDropChangeValid := by
  intro i s t hl _ hnew hdrop h
  obtain rfl | ⟨-, ⟨f, rfl⟩ | ⟨ops, hplan, hrun⟩⟩ := exec_cases h
  · rfl
  · rfl
  · have start : ValidKept (s.slots.map (·.valid)) (s.withSeq (.busy i (.plain 0) ops)) :=
      ⟨hl, rfl, fun _ _ _ hbusy => by cases hbusy; exact planned_keepsValid hplan hnew hdrop⟩
    exact (runSeq_keeps (fun _ _ => tick_validKept) start hrun).slots

/-! ## A run has the ticks it needs -/

/-- How many ticks the operation in progress takes at most, a delay that is counting by what is left of it. -/
def State.ticksLeft (s : State) : Nat :=
  match s.seq with
  | .idle => 0
  | .busy _ _ (.wait _ :: rest) => max 1 s.dly.toNat + opsCost rest
  | .busy _ _ rest => opsCost rest

theorem opsCost_cons (op : MicroOp) (rest : List MicroOp) : opsCost (op :: rest) = op.cost + opsCost rest := by
  simp only [opsCost, List.map_cons, List.sum_cons, Nat.add_assoc]

theorem ticksLeft_le_opsCost {s : State} {i : Instr} {w : ReadWord} {rest : List MicroOp} (hs : s.seq = .busy i w rest) :
    s.ticksLeft ≤ opsCost rest := by
  unfold State.ticksLeft
  rw [hs]
  split
  · exact Nat.zero_le _
  · rename_i hseq
    cases hseq
    have := s.dly.isLt
    rw [opsCost_cons, MicroOp.cost]
    omega
  · rename_i hseq
    cases hseq
    exact Nat.le_refl _

/-- Before anything but a delay that is counting. -/
theorem ticksLeft_cons {s : State} {i : Instr} {w : ReadWord} {op : MicroOp} {rest : List MicroOp} (hs : s.seq = .busy i w (op :: rest))
    (hop : ∀ n, op ≠ .wait n) : s.ticksLeft = op.cost + opsCost rest := by
  unfold State.ticksLeft
  rw [hs, ← opsCost_cons]
  cases op with
  | wait n => exact absurd rfl (hop n)
  | _ => rfl

theorem ticksLeft_wait {s : State} {i : Instr} {w : ReadWord} {n : BitVec 8} {rest : List MicroOp}
    (hs : s.seq = .busy i w (.wait n :: rest)) : s.ticksLeft = max 1 s.dly.toNat + opsCost rest := by
  unfold State.ticksLeft
  rw [hs]

theorem perform_progress {i : Instr} {w : ReadWord} {rest : List MicroOp} {op : MicroOp} {s t : State}
    (h : perform i w rest op s = .next t) (hs : s.seq = .busy i w (op :: rest)) : t.parked = true ∨ t.ticksLeft < s.ticksLeft := by
  cases performed_of_perform h with
  | delay =>
    rw [ticksLeft_wait rfl, ticksLeft_cons hs (by simp), MicroOp.cost, State.withSeq_dly, State.withDly_dly]
    exact .inr (by omega)
  | waitOver _ =>
    rw [ticksLeft_wait hs]
    exact .inr (Nat.lt_of_le_of_lt (ticksLeft_le_opsCost rfl) (by omega))
  | waitOn hd =>
    have hdec : (s.dly - 1).toNat = s.dly.toNat - 1 := BitVec.toNat_sub_of_le (BitVec.le_def.mpr hd.le)
    rw [ticksLeft_wait rfl, ticksLeft_wait hs, State.withSeq_dly, State.withDly_dly, hdec]
    exact .inr (by omega)
  | pollClear _ _ => exact .inl (nop_parked _ _ _ _)
  | finish _ => exact .inl (idle_parked _)
  | _ =>
    rw [ticksLeft_cons hs (by simp), MicroOp.cost]
    exact .inr (Nat.lt_of_le_of_lt (ticksLeft_le_opsCost rfl) (by omega))

theorem tick_progress {s t : State} (hl : s.lineOnly) (h : tick s = .next t) : t.parked = true ∨ t.ticksLeft < s.ticksLeft := by
  have line := envTurn_line s hl
  have same : (envTurn s).ticksLeft = s.ticksLeft := by
    unfold State.ticksLeft
    rw [line.seq, line.dly]
  obtain ⟨hseq, rfl⟩ | ⟨i, w, -, rfl⟩ | ⟨i, w, op, rest, hseq, hperform⟩ := sequencerStep_cases h
  · exact .inl (by rw [State.parked, hseq])
  · exact .inl (idle_parked _)
  · exact same ▸ perform_progress hperform hseq

theorem tick_lineOnly {s t : State} (hl : s.lineOnly) (h : tick s = .next t) : t.lineOnly := by
  have he := (envTurn_line s hl).lineOnly hl
  obtain ⟨-, rfl⟩ | ⟨_, _, -, rfl⟩ | ⟨_, _, _, _, -, hperform⟩ := sequencerStep_cases h
  · exact he
  · exact he
  · exact perform_lineOnly hperform he

/-- A run with the ticks it needs stops only where the operation has answered or a poll has failed. -/
theorem runSeq_parked {n : Nat} {s t : State} (hl : s.lineOnly) (hn : s.ticksLeft ≤ n) (h : runSeq n s = .next t) : t.parked = true := by
  induction n generalizing s with
  | zero =>
    cases h
    unfold State.ticksLeft at hn
    split at hn
    · rename_i hseq
      rw [State.parked, hseq]
    · simp [opsCost] at hn
    · simp [opsCost] at hn
  | succ n ih =>
    rw [runSeq] at h
    split at h
    · rename_i u hu
      split at h
      · rename_i hpark
        cases h
        exact hpark
      · rename_i hpark
        have hlt := (tick_progress hl hu).resolve_left hpark
        exact ih (tick_lineOnly hl hu) (by omega) h
    · cases h
    · cases h

/-! ## The pull machinery -/

/-- `PUD` and the two clock registers. -/
def Target.pullRegs (t : Target) : Word × Vector Word 2 := (t.pud, t.pudclk)

/-- No pull is staged and no pin is clocked. -/
structure CleanRegs (r : Word × Vector Word 2) : Prop where
  staged : r.1.extractLsb' 0 2 = 0
  clk0 : r.2[0] = 0
  clk1 : r.2[1] = 0

theorem pullClean_iff (t : Target) : t.pullClean ↔ CleanRegs t.pullRegs :=
  ⟨fun ⟨staged, clk0, clk1⟩ => ⟨staged, clk0, clk1⟩, fun ⟨staged, clk0, clk1⟩ => ⟨staged, clk0, clk1⟩⟩

/-- `PUD` and the clock registers after a write of `v` at `a`. -/
def pullRegsAfter (p : Params) (a v : Word) (r : Word × Vector Word 2) : Word × Vector Word 2 :=
  match regAt p a with
  | some .pud => (v, r.2)
  | some (.pudclk n) => (r.1, r.2.set n v)
  | _ => r

/-- Neither `PUD` nor a clock register is at this address. -/
def SparesPull (p : Params) (a : Word) : Prop := regAt p a ≠ some .pud ∧ ∀ n, regAt p a ≠ some (.pudclk n)

theorem pullRegsAfter_spared {p : Params} {a : Word} (h : SparesPull p a) (v : Word) (r : Word × Vector Word 2) :
    pullRegsAfter p a v r = r := by
  unfold pullRegsAfter
  split
  · exact absurd ‹_› h.1
  · exact absurd ‹_› (h.2 _)
  · rfl

theorem memRead_pullRegs {a : Word} {s t : State} {w : ReadWord} (h : memRead a s = .ok (w, t)) :
    t.target.pullRegs = s.target.pullRegs := by
  obtain ⟨r, -, -, rfl⟩ := memRead_ok h
  rw [readReg_frame]
  rfl

theorem memWrite_pullRegs {a v : Word} {s t : State} (h : memWrite a v s = .ok t) :
    t.target.pullRegs = pullRegsAfter s.params a v s.target.pullRegs := by
  obtain ⟨r, u, hr, hu, rfl⟩ := memWrite_ok h
  simp only [pullRegsAfter, hr, State.logEvent_target]
  cases r with
  | muIir =>
    simp only [writeReg] at hu
    split_ifs at hu <;> cases hu <;> rfl
  | muLsr => cases hu
  | _ =>
    cases hu
    rfl

/-- What the micro-operations of an operation write leaves the pull machinery clean, from these registers on, at the end and wherever
the run may stop before. -/
def leavesClean (p : Params) : List MicroOp → Word × Vector Word 2 → Prop
  | [], r => CleanRegs r
  | .memWrite a v :: rest, r => leavesClean p rest (pullRegsAfter p a v r)
  | .memModify a _ _ :: rest, r => SparesPull p a ∧ leavesClean p rest r
  | .finish _ :: _, r => CleanRegs r
  | .memRead _ :: rest, r => leavesClean p rest r
  | .delay _ :: rest, r => leavesClean p rest r
  | .wait _ :: rest, r => leavesClean p rest r
  | .poll _ :: rest, r => CleanRegs r ∧ leavesClean p rest r
  | .nop :: rest, r => CleanRegs r ∧ leavesClean p rest r

/-- The micro-operations that remain. -/
def State.remaining (s : State) : List MicroOp :=
  match s.seq with
  | .idle => []
  | .busy _ _ rest => rest

theorem remaining_busy {s : State} {i : Instr} {w : ReadWord} {rest : List MicroOp} (h : s.seq = .busy i w rest) :
    s.remaining = rest := by
  rw [State.remaining, h]

/-- No reset is due, and the operation in progress leaves the pull machinery clean. -/
structure CleansLater (s : State) : Prop where
  lineOnly : s.lineOnly
  clean : leavesClean s.params s.remaining s.target.pullRegs

theorem perform_leavesClean {i : Instr} {w : ReadWord} {rest : List MicroOp} {op : MicroOp} {s t : State}
    (h : perform i w rest op s = .next t) (hc : leavesClean s.params (op :: rest) s.target.pullRegs) :
    leavesClean s.params t.remaining t.target.pullRegs := by
  cases performed_of_perform h with
  | memRead hm =>
    rw [State.withSeq_target, memRead_pullRegs hm]
    exact hc
  | pollSet hm _ =>
    rw [State.withSeq_target, memRead_pullRegs hm]
    exact hc.2
  | pollClear hm _ =>
    rw [State.withSeq_target, memRead_pullRegs hm]
    exact ⟨hc.1, hc⟩
  | nop => exact hc.2
  | memWrite hm =>
    rw [State.withSeq_target, memWrite_pullRegs hm]
    exact hc
  | memModify hm =>
    rw [State.withSeq_target, memWrite_pullRegs hm, pullRegsAfter_spared hc.1]
    exact hc.2
  | finish hu =>
    rw [applyUpdate_frame hu]
    exact hc
  | _ => exact hc

theorem tick_cleansLater {s t : State} (hs : CleansLater s) (h : tick s = .next t) : CleansLater t := by
  have line := envTurn_line s hs.lineOnly
  have he : CleansLater (envTurn s) := by
    refine ⟨line.lineOnly hs.lineOnly, ?_⟩
    rw [line.params, State.remaining, line.seq, Target.pullRegs, line.pins.pud, line.pins.pudclk]
    exact hs.clean
  obtain ⟨-, rfl⟩ | ⟨i, w, hseq, rfl⟩ | ⟨i, w, op, rest, hseq, hperform⟩ := sequencerStep_cases h
  · exact he
  · have hclean := he.clean
    rw [remaining_busy hseq] at hclean
    exact ⟨he.lineOnly, hclean⟩
  · refine ⟨perform_lineOnly hperform he.lineOnly, ?_⟩
    rw [(perform_untouched hperform).params]
    exact perform_leavesClean hperform (remaining_busy hseq ▸ he.clean)

/-- Micro-operations that leave the pull machinery clean if it was clean before, whatever comes after them. -/
def KeepsClean (p : Params) (ops : List MicroOp) : Prop :=
  ∀ rest r, CleanRegs r → (∀ r', CleanRegs r' → leavesClean p rest r') → leavesClean p (ops ++ rest) r

theorem KeepsClean.append {p : Params} {ops ops' : List MicroOp} (h : KeepsClean p ops) (h' : KeepsClean p ops') :
    KeepsClean p (ops ++ ops') := fun rest r hr hrest => by
  rw [List.append_assoc]
  exact h _ r hr fun r' hr' => h' rest r' hr' hrest

theorem KeepsClean.finish {p : Params} {ops : List MicroOp} (h : KeepsClean p ops) (u : Update) {r : Word × Vector Word 2}
    (hr : CleanRegs r) : leavesClean p (ops ++ [.finish u]) r :=
  h _ r hr fun _ hr' => hr'

/-- A micro-operation that writes neither `PUD` nor a clock register, and is not the last. -/
def MicroOp.sparesPull (p : Params) : MicroOp → Prop
  | .memWrite a _ => SparesPull p a
  | .memModify a _ _ => SparesPull p a
  | .finish _ => False
  | .memRead _ | .delay _ | .wait _ | .poll _ | .nop => True

theorem keepsClean_of_sparesPull {p : Params} {ops : List MicroOp} (h : ∀ op ∈ ops, op.sparesPull p) : KeepsClean p ops := by
  intro rest r hr hrest
  induction ops with
  | nil => exact hrest r hr
  | cons op ops ih =>
    have hop := h op List.mem_cons_self
    have ih := ih fun o ho => h o (List.mem_cons_of_mem _ ho)
    cases op with
    | memWrite a v =>
      rw [List.cons_append, leavesClean, pullRegsAfter_spared hop]
      exact ih
    | memModify a c b => exact ⟨hop, ih⟩
    | finish u => exact hop.elim
    | poll k => exact ⟨hr, ih⟩
    | nop => exact ⟨hr, ih⟩
    | _ => exact ih

theorem sparesPull_regAddr {p : Params} {r : Reg} (hr : r = .muIir → p.wf = true) (hpud : r ≠ .pud) (hclk : ∀ n, r ≠ .pudclk n) :
    SparesPull p (regAddr p r) := by
  rw [SparesPull, regAt_own hr]
  exact ⟨by simpa using hpud, by simpa using hclk⟩

theorem fselRmw_keepsClean (p : Params) {pin : BitVec 6} (code : BitVec 3) (hpin : pin.toNat ≤ 53) :
    KeepsClean p (fselRmw p pin code) := by
  have ha := fselAddr_eq p pin (by omega)
  exact keepsClean_of_sparesPull (by simp [fselRmw, ha, MicroOp.sparesPull, sparesPull_regAddr])

theorem pullRegsAfter_pud (p : Params) (v : Word) (r : Word × Vector Word 2) : pullRegsAfter p (pudAddr p) v r = (v, r.2) := by
  rw [pudAddr_eq, pullRegsAfter, regAt_regAddr p .pud (by simp)]

theorem pullRegsAfter_pudclk (p : Params) (pin : BitVec 6) (v : Word) (r : Word × Vector Word 2) :
    pullRegsAfter p (pudclkAddr p pin) v r = (r.1, r.2.set (pin.toNat / 32) v (pairIndex_lt pin)) := by
  rw [pudclkAddr_eq, pullRegsAfter, regAt_regAddr p (.pudclk _) (by simp)]

/-- The clean-up of the pull sequence (40_gpio.md R142 e) clears `PUD` and the pin's clock register; the other one it never writes. -/
theorem pullSeq_keepsClean (p : Params) (pin : BitVec 6) (code : BitVec 2) : KeepsClean p (pullSeq p pin code) := by
  intro rest r hr hrest
  simp only [pullSeq, List.cons_append, List.nil_append, leavesClean, pullRegsAfter_pud, pullRegsAfter_pudclk, Vector.set_set]
  refine hrest _ ⟨rfl, ?_, ?_⟩ <;> simp only [Vector.getElem_set] <;> split
  · rfl
  · exact hr.clk0
  · rfl
  · exact hr.clk1

theorem uartPinSetup_keepsClean (p : Params) {pin : BitVec 6} (hpin : pin.toNat ≤ 53) : KeepsClean p (uartPinSetup p pin) :=
  (fselRmw_keepsClean p _ hpin).append (pullSeq_keepsClean p pin 0)

theorem sendByte_sparesPull (p : Params) (b : Byte) : ∀ op ∈ sendByte p b, op.sparesPull p := by
  simp [sendByte, MicroOp.sparesPull, sparesPull_regAddr]

theorem planned_leavesClean {s : State} {i : Instr} {ops : List MicroOp} (h : Planned s i ops) (hp : s.params.wf = true)
    {r : Word × Vector Word 2} (hr : CleanRegs r) : leavesClean s.params ops r := by
  obtain ⟨htx, hrx⟩ := pins_le_of_wf hp
  cases h with
  | gpioNew hslot hpin hpull => exact ((fselRmw_keepsClean _ _ hpin).append (pullSeq_keepsClean _ _ _)).finish _ hr
  | gpioOn =>
    exact KeepsClean.finish (ops := [_]) (keepsClean_of_sparesPull (by simp [MicroOp.sparesPull, setAddr_eq, sparesPull_regAddr])) _ hr
  | gpioOff =>
    exact KeepsClean.finish (ops := [_]) (keepsClean_of_sparesPull (by simp [MicroOp.sparesPull, clrAddr_eq, sparesPull_regAddr])) _ hr
  | repull => exact (pullSeq_keepsClean _ _ _).finish _ hr
  | gpioDrop => exact hr
  | @uartNew baud =>
    have setup : KeepsClean s.params (uartSetup s.params (divisorWord s.params baud)) :=
      keepsClean_of_sparesPull (by simp [uartSetup, MicroOp.sparesPull, sparesPull_regAddr])
    have start : KeepsClean s.params (uartStart s.params) :=
      keepsClean_of_sparesPull (by simp [uartStart, MicroOp.sparesPull, sparesPull_regAddr, hp])
    exact (((setup.append (uartPinSetup_keepsClean _ htx)).append (uartPinSetup_keepsClean _ hrx)).append start).finish _ hr
  | uartSendc => exact (keepsClean_of_sparesPull (sendByte_sparesPull _ _)).finish _ hr
  | uartReadc => exact ⟨hr, hr⟩
  | uartSendStr =>
    refine (keepsClean_of_sparesPull fun op hop => ?_).finish _ hr
    obtain ⟨b, -, hb⟩ := List.mem_flatMap.mp hop
    exact sendByte_sparesPull _ b op hb

/-- Where a run stops the pull machinery is clean. -/
theorem pullClean_of_parked {s : State} (hs : CleansLater s) (hp : s.parked = true) : s.target.pullClean := by
  have hclean := hs.clean
  unfold State.parked at hp
  unfold State.remaining at hclean
  split at hp
  · rename_i hseq
    rw [hseq] at hclean
    exact (pullClean_iff _).mpr hclean
  · rename_i hseq
    rw [hseq] at hclean
    exact (pullClean_iff _).mpr hclean.1
  · cases hp

/-- Settles O57: an operation runs until it has answered or a poll has failed, and at both the pull machinery is clean. -/
theorem everyOperationLeavesThePullMachineryClean : Obligations.EveryOperationLeavesThePullMachineryClean := by
  intro i s t _ hl hp hclean h
  obtain rfl | ⟨-, ⟨f, rfl⟩ | ⟨ops, hplan, hrun⟩⟩ := exec_cases h
  · exact hclean
  · exact hclean
  · have start : CleansLater (s.withSeq (.busy i (.plain 0) ops)) :=
      ⟨hl, planned_leavesClean hplan hp ((pullClean_iff _).mp hclean)⟩
    exact pullClean_of_parked (runSeq_keeps (fun _ _ => tick_cleansLater) start hrun)
      (runSeq_parked start.lineOnly (ticksLeft_le_opsCost rfl) hrun)

end Sys2Proof.Machine
end

section
/-! Two machines whose contexts differ at most in `mode`, `pull` and `state` go alike (10_state.md R23; 40_gpio.md R150, R157): a relation
between their states that the environment and every micro-operation carry along. -/

namespace Sys2Proof.Machine

/-- The same machine with other contexts, which differ at most in the fields no rule reads. -/
inductive Alike (s : State) : State → Prop
  | intro (l : List GpioContext) (h : SameHandles s.slots l) : Alike s (s.withSlots l)

/-- States in which nothing but the contexts differs. -/
theorem Alike.of_eq {t t' : State} {l : List GpioContext} (h : SameHandles t.slots l) (ht : t' = t.withSlots l) : Alike t t' :=
  ht ▸ .intro l h

/-! ## Contexts -/

theorem SameHandles.length_eq {l l' : List GpioContext} (h : SameHandles l l') : l.length = l'.length := by
  simpa using congrArg List.length h

theorem SameHandles.set {l l' : List GpioContext} (h : SameHandles l l') (n : Nat) {c c' : GpioContext} (hv : c.valid = c'.valid)
    (hp : c.pin = c'.pin) : SameHandles (l.set n c) (l'.set n c') := by
  unfold SameHandles at h ⊢
  rw [List.map_set, List.map_set, h, hv, hp]

/-- The other machine has a context where this one has, and for the same pin. -/
theorem context_alike {s : State} {l : List GpioContext} (h : SameHandles s.slots l) {slot : BitVec 8} {c : GpioContext}
    (hc : s.context slot = some c) : ∃ c', (s.withSlots l).context slot = some c' ∧ c'.valid = c.valid ∧ c'.pin = c.pin := by
  obtain ⟨hslot, hget, hvalid⟩ := context_eq_some.mp hc
  have hmap := congrArg (·[slot.toNat]?) h
  simp only [List.getElem?_map, hget, Option.map_some] at hmap
  obtain ⟨c', hget', heq⟩ := Option.map_eq_some_iff.mp hmap.symm
  obtain ⟨hv, hp⟩ := Prod.mk.inj heq
  exact ⟨c', context_eq_some.mpr ⟨hslot, hget', hv.trans hvalid⟩, hv, hp⟩

theorem onContext_withSlots {s : State} {l : List GpioContext} (h : SameHandles s.slots l) (slot : BitVec 8)
    (ops : BitVec 6 → List MicroOp) : onContext slot ops (s.withSlots l) = onContext slot ops s := by
  unfold onContext
  cases hc : s.context slot with
  | some c =>
    obtain ⟨c', hc', -, hpin⟩ := context_alike h hc
    simp only [hc', hpin]
  | none =>
    cases hc' : (s.withSlots l).context slot with
    | none => rfl
    | some c' =>
      obtain ⟨c, hsome, -⟩ := context_alike (s := s.withSlots l) (l := s.slots) (Eq.symm h) hc'
      cases hc.symm.trans hsome

/-- The checks of an operation read of the contexts only whether they are there, and their pins. -/
theorem planOf_withSlots {s : State} {l : List GpioContext} (h : SameHandles s.slots l) (i : Instr) :
    planOf (s.withSlots l) i = planOf s i := by
  cases i with
  | gpioOn slot | gpioOff slot | gpioPullUp slot | gpioPullDown slot | gpioPullNeither slot | gpioDrop slot =>
    rw [planOf, planOf]
    exact onContext_withSlots h slot _
  | _ => rfl

/-! ## The environment -/

theorem txDrain_withSlots (s : State) (l : List GpioContext) : (s.withSlots l).txDrain = s.txDrain.withSlots l := by
  by_cases hen : s.target.enabled = true ∧ s.target.txEn = true
  · obtain ⟨he, ht⟩ := hen
    have here := txDrain_of_enabled (s := s) he ht
    have there := txDrain_of_enabled (s := s.withSlots l) he ht
    cases hx : s.target.txf with
    | nil => rw [here.2 hx, there.2 hx]
    | cons b later =>
      rw [here.1 b later hx, there.1 b later hx]
      rfl
  · have hdis : s.target.enabled = false ∨ s.target.txEn = false := by simpa [imp_iff_not_or] using hen
    rw [txDrain_of_not_enabled hdis, txDrain_of_not_enabled (s := s.withSlots l) hdis]

theorem rxArrive_withSlots (s : State) (l : List GpioContext) (b : Byte) :
    (s.withSlots l).rxArrive b = (s.rxArrive b).withSlots l := by
  by_cases hen : s.target.enabled = true ∧ s.target.rxEn = true
  · obtain ⟨he, hr⟩ := hen
    by_cases hroom : s.target.rxf.length < s.params.fifoDepth
    · rw [rxArrive_of_room b he hr hroom, rxArrive_of_room (s := s.withSlots l) b he hr hroom]
      rfl
    · rw [rxArrive_of_full b he hr (Nat.not_lt.mp hroom), rxArrive_of_full (s := s.withSlots l) b he hr (Nat.not_lt.mp hroom)]
      rfl
  · have hdis : s.target.enabled = false ∨ s.target.rxEn = false := by simpa [imp_iff_not_or] using hen
    rw [rxArrive_of_not_enabled b hdis, rxArrive_of_not_enabled (s := s.withSlots l) b hdis]

theorem envStep_alike {s s' : State} (h : Alike s s') (e : EnvStep) : Alike (envStep s e) (envStep s' e) := by
  obtain ⟨l, hl⟩ := h
  cases e with
  | txDrain => exact .of_eq ((txDrain_line s).slots ▸ hl) (txDrain_withSlots s _)
  | rxArrive b => exact .of_eq ((rxArrive_line b s).slots ▸ hl) (rxArrive_withSlots s _ b)
  | reset launch => exact .of_eq (l := (s.resetEvent launch).slots) rfl rfl

theorem foldl_envStep_alike (es : List EnvStep) {s s' : State} (h : Alike s s') : Alike (es.foldl envStep s) (es.foldl envStep s') := by
  induction es generalizing s s' with
  | nil => exact h
  | cons e es ih => exact ih (envStep_alike h e)

theorem envTurn_alike {s s' : State} (h : Alike s s') : Alike (envTurn s) (envTurn s') := by
  obtain ⟨l, hl⟩ := h
  unfold envTurn
  rw [State.withSlots_sched]
  split
  · exact .intro _ hl
  · rename_i es later _
    exact foldl_envStep_alike es (.of_eq (t := s.withSched later) hl rfl)

/-! ## The register target -/

section
variable {s t : State}

theorem readReg_withSlots (r : Reg) (s : State) (l : List GpioContext) :
    readReg r (s.withSlots l) = ((readReg r s).1, (readReg r s).2.withSlots l) := by
  cases r with
  | muIo =>
    cases he : s.target.enabled with
    | true => cases hx : s.target.rxf <;> simp only [readReg, State.withSlots_target, he, hx] <;> rfl
    | false =>
      simp only [readReg, State.withSlots_target, he]
      rfl
  | muLsr =>
    cases he : s.target.enabled <;> simp only [readReg, State.withSlots_target, he] <;> rfl
  | _ => rfl

theorem writeReg_withSlots {r : Reg} {v : Word} (l : List GpioContext) (h : writeReg r v s = .ok t) :
    writeReg r v (s.withSlots l) = .ok (t.withSlots l) := by
  cases r with
  | muIir =>
    cases he : s.target.enabled with
    | true =>
      rw [writeReg_muIir_of_enabled he] at h
      split at h
      · rename_i hv
        cases h
        exact (writeReg_muIir_of_enabled (s := s.withSlots l) he).trans (if_pos hv)
      · cases h
    | false =>
      rw [writeReg_muIir_of_disabled v he] at h
      cases h
      exact writeReg_muIir_of_disabled (s := s.withSlots l) v he
  | muLsr => cases h
  | _ =>
    cases h
    rfl

theorem memRead_withSlots {a : Word} {v : ReadWord} (l : List GpioContext) (h : memRead a s = .ok (v, t)) :
    memRead a (s.withSlots l) = .ok (v, t.withSlots l) := by
  obtain ⟨r, hr, rfl, rfl⟩ := memRead_ok h
  simp only [memRead, State.withSlots_params, hr, readReg_withSlots]
  rfl

theorem memWrite_withSlots {a v : Word} (l : List GpioContext) (h : memWrite a v s = .ok t) :
    memWrite a v (s.withSlots l) = .ok (t.withSlots l) := by
  obtain ⟨r, u, hr, hu, rfl⟩ := memWrite_ok h
  simp only [memWrite, State.withSlots_params, hr, writeReg_withSlots l hu]
  rfl

/-! ## One micro-operation -/

/-- An update of a context by a function that reads of it only what no update of a field changes. -/
theorem updateContext_alike {slot : BitVec 8} {f : GpioContext → GpioContext} {s' : State} (h : Alike s s')
    (hf : ∀ c c', c'.valid = c.valid → c'.pin = c.pin → (f c).valid = (f c').valid ∧ (f c).pin = (f c').pin)
    (hu : s.updateContext slot f = .ok t) : ∃ t', s'.updateContext slot f = .ok t' ∧ Alike t t' := by
  obtain ⟨l, hl⟩ := h
  unfold State.updateContext at hu ⊢
  split at hu
  · rename_i c hc
    cases hu
    obtain ⟨c', hc', hv, hp⟩ := context_alike hl hc
    obtain ⟨hv, hp⟩ := hf c c' hv hp
    exact ⟨(s.withSlots l).setContext slot (f c'), by rw [hc'], .of_eq (hl.set _ hv hp) rfl⟩
  · cases hu

theorem applyUpdate_alike {u : Update} {s' : State} (h : Alike s s') (hu : applyUpdate u s = .ok t) :
    ∃ t', applyUpdate u s' = .ok t' ∧ Alike t t' := by
  cases u with
  | newContext slot pin mode pull =>
    obtain ⟨l, hl⟩ := h
    simp only [applyUpdate, State.withSlots_params, State.withSlots_slots, hl.length_eq] at hu ⊢
    split at hu
    · rename_i hslot
      cases hu
      exact ⟨_, if_pos hslot, .of_eq (hl.set _ rfl rfl) rfl⟩
    · cases hu
  | setState slot on => exact updateContext_alike h (fun _ _ hv hp => ⟨hv.symm, hp.symm⟩) hu
  | setPull slot code => exact updateContext_alike h (fun _ _ hv hp => ⟨hv.symm, hp.symm⟩) hu
  | drop slot => exact updateContext_alike h (fun _ _ _ hp => ⟨rfl, hp.symm⟩) hu
  | newUart baud =>
    obtain ⟨l, hl⟩ := h
    cases hu
    exact ⟨_, rfl, .of_eq hl rfl⟩
  | sent | received =>
    cases hu
    exact ⟨_, rfl, h⟩

theorem perform_alike {i : Instr} {w : ReadWord} {rest : List MicroOp} {op : MicroOp} {s' : State} (h : Alike s s')
    (hp : perform i w rest op s = .next t) : ∃ t', perform i w rest op s' = .next t' ∧ Alike t t' := by
  suffices hperf : ∃ t', Performed i w rest s' op t' ∧ Alike t t' by
    obtain ⟨t', hp', ht⟩ := hperf
    exact ⟨t', perform_of_performed hp', ht⟩
  cases performed_of_perform hp with
  | finish hu =>
    obtain ⟨t', hu', ht⟩ := applyUpdate_alike h hu
    obtain ⟨l, hl⟩ := ht
    exact ⟨_, .finish hu', .of_eq hl rfl⟩
  | memRead hm =>
    obtain ⟨l, hl⟩ := h
    exact ⟨_, .memRead (memRead_withSlots _ hm), .of_eq ((memRead_sameContexts hm).slots ▸ hl) rfl⟩
  | pollSet hm hk =>
    obtain ⟨l, hl⟩ := h
    exact ⟨_, .pollSet (memRead_withSlots _ hm) hk, .of_eq ((memRead_sameContexts hm).slots ▸ hl) rfl⟩
  | pollClear hm hk =>
    obtain ⟨l, hl⟩ := h
    exact ⟨_, .pollClear (memRead_withSlots _ hm) hk, .of_eq ((memRead_sameContexts hm).slots ▸ hl) rfl⟩
  | memWrite hm =>
    obtain ⟨l, hl⟩ := h
    exact ⟨_, .memWrite (memWrite_withSlots _ hm), .of_eq ((memWrite_sameContexts hm).slots ▸ hl) rfl⟩
  | memModify hm =>
    obtain ⟨l, hl⟩ := h
    exact ⟨_, .memModify (memWrite_withSlots _ hm), .of_eq ((memWrite_sameContexts hm).slots ▸ hl) rfl⟩
  | delay =>
    obtain ⟨l, hl⟩ := h
    exact ⟨_, .delay, .of_eq hl rfl⟩
  | waitOver hd =>
    obtain ⟨l, hl⟩ := h
    exact ⟨_, .waitOver hd, .of_eq hl rfl⟩
  | waitOn hd =>
    obtain ⟨l, hl⟩ := h
    exact ⟨_, .waitOn hd, .of_eq hl rfl⟩
  | nop =>
    obtain ⟨l, hl⟩ := h
    exact ⟨_, .nop, .of_eq hl rfl⟩

/-! ## Runs and operations -/

theorem sequencerStep_alike {s' : State} (h : Alike s s') (hstep : sequencerStep s = .next t) :
    ∃ t', sequencerStep s' = .next t' ∧ Alike t t' := by
  have hseq' : s'.seq = s.seq := by
    obtain ⟨-, -⟩ := h
    rfl
  obtain ⟨hseq, rfl⟩ | ⟨i, w, hseq, rfl⟩ | ⟨i, w, op, rest, hseq, hperform⟩ := sequencerStep_cases hstep
  · exact ⟨s', by rw [sequencerStep, hseq', hseq], h⟩
  · refine ⟨s'.withSeq .idle, by rw [sequencerStep, hseq', hseq], ?_⟩
    obtain ⟨l, hl⟩ := h
    exact .of_eq hl rfl
  · obtain ⟨t', hperform', ht⟩ := perform_alike h hperform
    exact ⟨t', by rw [sequencerStep, hseq', hseq]; exact hperform', ht⟩

theorem runSeq_alike {n : Nat} {s' : State} (h : Alike s s') (hrun : runSeq n s = .next t) :
    ∃ t', runSeq n s' = .next t' ∧ Alike t t' := by
  induction n generalizing s s' with
  | zero =>
    cases hrun
    exact ⟨s', rfl, h⟩
  | succ n ih =>
    rw [runSeq] at hrun
    split at hrun
    · rename_i u hu
      obtain ⟨u', hu', halike⟩ := sequencerStep_alike (envTurn_alike h) hu
      have hparked : u'.parked = u.parked := by
        obtain ⟨-, -⟩ := halike
        rfl
      rw [runSeq, tick, hu']
      simp only [hparked]
      split at hrun
      · rename_i hpark
        cases hrun
        exact ⟨u', if_pos hpark, halike⟩
      · rename_i hpark
        obtain ⟨t', ht', ht⟩ := ih halike hrun
        exact ⟨t', (if_neg hpark).trans ht', ht⟩
    · cases hrun
    · cases hrun

theorem issue_alike {i : Instr} {plan : Plan} {s' : State} (h : Alike s s') (hi : issue i plan s = .next t) :
    ∃ t', issue i plan s' = .next t' ∧ Alike t t' := by
  obtain ⟨l, hl⟩ := h
  unfold issue at hi ⊢
  rw [State.withSlots_run, State.withSlots_seq]
  split at hi
  · cases plan with
    | error f =>
      cases hi
      exact ⟨_, rfl, .of_eq hl rfl⟩
    | ok ops =>
      have start : Alike (s.withSeq (.busy i (.plain 0) ops)) ((s.withSlots l).withSeq (.busy i (.plain 0) ops)) := .of_eq hl rfl
      exact runSeq_alike start hi
  · cases hi
    exact ⟨_, rfl, .intro _ hl⟩
  · cases hi
    exact ⟨_, rfl, .intro _ hl⟩

end

/-- Settles O60: the checks of an operation answer the same for both machines, and its run carries the relation along. -/
theorem stateFieldIsNeverRead : Obligations.StateFieldIsNeverRead := by
  intro i s t slots hl h
  rw [exec_eq_issue_planOf] at h
  obtain ⟨u, hu, ⟨l, hl'⟩⟩ := issue_alike (.intro _ hl) h
  refine ⟨t.withSlots l, ?_, hl', rfl⟩
  rw [exec_eq_issue_planOf]
  exact (congrArg (issue i · (s.withSlots slots)) (planOf_withSlots hl i)).trans hu

end Sys2Proof.Machine
end

section
/-! The address map answers (20_memory.md R85, R91), and so does every micro-operation the sequencer can issue (R96, R97): from every
state of the invariant a tick answers a next state, and therefore a run, an operation and a step do. -/

namespace Sys2Proof.Machine

section
variable {a v : Word} {r : Reg} {s : State}

/-! ## Accesses inside and outside the map -/

theorem memRead_unmapped (h : regAt s.params a = none) : memRead a s = .error (.unmappedAddress a) := by
  simp only [memRead, h]

theorem memWrite_unmapped (v : Word) (h : regAt s.params a = none) : memWrite a v s = .error (.unmappedAddress a) := by
  simp only [memWrite, h]

/-- An address of the map answers a read, whichever register answers it. -/
theorem memRead_mapped (h : (regAt s.params a).isSome = true) : ∃ w t, memRead a s = .ok (w, t) := by
  obtain ⟨r, hr⟩ := Option.isSome_iff_exists.mp h
  exact ⟨(readReg r s).1, (readReg r s).2.logEvent (.rd a (readReg r s).1.toWord), by simp only [memRead, hr]⟩

/-- Settles O45. -/
theorem onlyMappedAddressesAnswer : Obligations.OnlyMappedAddressesAnswer := by
  refine fun a s => ⟨fun hno => ?_, fun ⟨r, hr⟩ => memRead_mapped ?_⟩
  · have hmap := regAt_eq_none.mpr hno
    exact ⟨memRead_unmapped hmap, fun v => memWrite_unmapped v hmap⟩
  · exact Option.isSome_iff_ne_none.mpr fun hmap => regAt_eq_none.mp hmap r hr

/-! ## Writes the target takes -/

/-- The target refuses no write but one of `MU_LSR` and one of another value than the clear code to `MU_IIR` (10_state.md R57, R60). -/
theorem writeReg_answers (hlsr : r ≠ .muLsr) (hiir : r = .muIir → v = s.params.fifoClearCode) : ∃ t, writeReg r v s = .ok t := by
  cases r with
  | muLsr => exact absurd rfl hlsr
  | muIir =>
    cases henabled : s.target.enabled with
    | true => exact ⟨_, (writeReg_muIir_of_enabled henabled).trans (if_pos (hiir rfl))⟩
    | false => exact ⟨_, writeReg_muIir_of_disabled v henabled⟩
  | _ => exact ⟨_, rfl⟩

/-- What a legal write asks of its address and its word. -/
theorem mapped_of_memWrite_ok (h : (MicroOp.memWrite a v).ok s = true) :
    ∃ r, regAt s.params a = some r ∧ r ≠ .muLsr ∧ (r = .muIir → v = s.params.fifoClearCode) := by
  cases hr : regAt s.params a with
  | none => simp [MicroOp.ok, hr] at h
  | some r =>
    refine ⟨r, rfl, ?_, ?_⟩
    · rintro rfl
      simp [MicroOp.ok, hr] at h
    · rintro rfl
      simpa [MicroOp.ok, hr] using h

theorem memWrite_answers (h : (MicroOp.memWrite a v).ok s = true) : ∃ t, memWrite a v s = .ok t := by
  obtain ⟨r, hr, hlsr, hiir⟩ := mapped_of_memWrite_ok h
  obtain ⟨t, ht⟩ := writeReg_answers hlsr hiir
  exact ⟨t.logEvent (.wr a v), by simp only [memWrite, hr, ht]⟩

/-- A read-modify-write is legal only where the write of every word is: its address is neither `MU_LSR` nor `MU_IIR`. -/
theorem memWrite_ok_of_memModify_ok {clear bits : Word} (v : Word) (h : (MicroOp.memModify a clear bits).ok s = true) :
    (MicroOp.memWrite a v).ok s = true := by
  cases hr : regAt s.params a with
  | none => simp [MicroOp.ok, hr] at h
  | some r =>
    cases r with
    | muLsr | muIir => simp [MicroOp.ok, hr] at h
    | _ => simp only [MicroOp.ok, hr]

end

/-! ## Context updates -/

theorem updateContext_answers {slot : BitVec 8} {f : GpioContext → GpioContext} {s : State} (h : (s.context slot).isSome = true) :
    ∃ t, s.updateContext slot f = .ok t := by
  obtain ⟨c, hc⟩ := Option.isSome_iff_exists.mp h
  exact ⟨s.setContext slot (f c), by simp only [State.updateContext, hc]⟩

/-- A legal update finds the context it names (10_state.md R22); for a new one there is a slot, since there are `NSLOT` of them. -/
theorem applyUpdate_answers {u : Update} {s : State} (hslots : s.slots.length = s.params.nslot) (hu : u.ok s = true) :
    ∃ t, applyUpdate u s = .ok t := by
  cases u with
  | newContext slot pin mode pull =>
    simp only [Update.ok, Bool.and_eq_true, decide_eq_true_eq] at hu
    obtain ⟨⟨hslot, -⟩, -⟩ := hu
    exact ⟨_, if_pos ⟨hslot, hslots ▸ hslot⟩⟩
  | setState slot on | drop slot => exact updateContext_answers hu
  | setPull slot code => exact updateContext_answers (Bool.and_eq_true_iff.mp hu).1
  | newUart baud | sent | received => exact ⟨_, rfl⟩

/-! ## From a micro-operation to a step -/

/-- A micro-operation the sequencer can issue is performed. -/
theorem perform_answers {op : MicroOp} {s : State} (i : Instr) (w : ReadWord) (rest : List MicroOp)
    (hslots : s.slots.length = s.params.nslot) (hop : op.ok s = true) : ∃ t, perform i w rest op s = .next t := by
  cases op with
  | memRead a =>
    obtain ⟨v, t, h⟩ := memRead_mapped hop
    exact ⟨_, perform_of_performed (.memRead h)⟩
  | memWrite a v =>
    obtain ⟨t, h⟩ := memWrite_answers hop
    exact ⟨_, perform_of_performed (.memWrite h)⟩
  | memModify a clear bits =>
    obtain ⟨t, h⟩ := memWrite_answers (memWrite_ok_of_memModify_ok (rmwWord w.toWord clear bits) hop)
    exact ⟨_, perform_of_performed (.memModify h)⟩
  | poll k =>
    have h := memRead_regAddr (r := .muLsr) (s := s) (by simp)
    cases hk : (readReg .muLsr s).1.bit k with
    | true => exact ⟨_, perform_of_performed (.pollSet h hk)⟩
    | false => exact ⟨_, perform_of_performed (.pollClear h hk)⟩
  | finish u =>
    obtain ⟨t, h⟩ := applyUpdate_answers hslots hop
    exact ⟨_, perform_of_performed (.finish h)⟩
  | delay n | wait n | nop => exact ⟨_, rfl⟩

theorem tick_answers {s : State} (hi : s.Inv) : ∃ t, tick s = .next t := by
  have he := envTurn_inv hi
  unfold tick sequencerStep
  split
  · exact ⟨_, rfl⟩
  · exact ⟨_, rfl⟩
  · rename_i i w op rest hseq
    obtain ⟨hall, -⟩ := (seqOk_busy hseq).mp he.seq
    exact perform_answers i w rest he.slots (hall op List.mem_cons_self)

/-- The induction over the ticks of a run: each finds the invariant that the one before it has kept. -/
theorem runSeq_answers (n : Nat) {s : State} (hi : s.Inv) : ∃ t, runSeq n s = .next t := by
  induction n generalizing s with
  | zero => exact ⟨s, rfl⟩
  | succ n ih =>
    obtain ⟨u, hu⟩ := tick_answers hi
    simp only [runSeq, hu]
    split
    · exact ⟨u, rfl⟩
    · exact ih (tick_inv hi hu)

theorem exec_answers (i : Instr) {s : State} (hi : s.Inv) (hr : s.ready) : ∃ t, exec i s = .next t := by
  rw [exec_eq_issue_planOf]
  cases hplan : planOf s i with
  | error f => exact ⟨_, issue_fault i f s hr⟩
  | ok ops =>
    rw [issue_runs i ops s hr]
    exact runSeq_answers _ (start_inv hi hr (planned_ok (planOf_ok hplan) hi.params))

/-- Settles O53: a step is made of ticks, and each answers because it starts in the invariant. -/
theorem noStepStops : Obligations.NoStepStops := by
  intro s hi
  unfold step
  split
  · exact ⟨_, rfl⟩
  · exact runSeq_answers _ hi
  · rename_i hrun hseq
    split
    · exact exec_answers _ (withCmdPort_inv _ hi) ⟨hrun, hseq⟩
    · exact ⟨_, rfl⟩
    · exact ⟨_, rfl⟩

end Sys2Proof.Machine
end

section
/-! The command encoding (30_encoding.md R117 to R126): the opcode byte tells the rows of the opcode map apart, so that which row selects a
command word, and with it the operation read and the number of its extension words, is one relation (`Reads`), tied to the decoder both
ways; the encoder's words stand in it. -/

namespace Sys2Proof

/-! ## Rows of the opcode map -/

/-- A row's mask covers the opcode byte, so a word the row selects has its opcode (30_encoding.md R117, R121). -/
theorem opcodeByte_of_and_eq {w mask mtch : Word} (h : w &&& mask = mtch) (hmask : mask.extractLsb' 24 8 = BitVec.allOnes 8) :
    w.extractLsb' 24 8 = mtch.extractLsb' 24 8 := by
  rw [← h, BitVec.extractLsb'_and, hmask, BitVec.and_allOnes]

/-- A word with another opcode is not selected. -/
theorem and_ne_of_opcodeByte {w mask mtch : Word} {opcode : BitVec 8} (hw : w.extractLsb' 24 8 = opcode)
    (hmask : mask.extractLsb' 24 8 = BitVec.allOnes 8) (hne : opcode ≠ mtch.extractLsb' 24 8) : ¬ w &&& mask = mtch :=
  fun h => hne (hw.symm.trans (opcodeByte_of_and_eq h hmask))

theorem selects_iff {r : OpcodeRow} {w : Word} : r.selects w = true ↔ w &&& r.mask = r.mtch := beq_iff_eq

theorem opcodeMap_mask_covers_opcode : ∀ r ∈ opcodeMap, r.mask.extractLsb' 24 8 = BitVec.allOnes 8 := by decide

/-- The opcodes of the map are pairwise different (30_encoding.md R121). -/
theorem opcodeMap_opcodes_differ : opcodeMap.Pairwise fun r r' => r.mtch.extractLsb' 24 8 ≠ r'.mtch.extractLsb' 24 8 := by decide

theorem opcodeByte_of_selects {r : OpcodeRow} {w : Word} (hr : r ∈ opcodeMap) (h : r.selects w = true) :
    w.extractLsb' 24 8 = r.mtch.extractLsb' 24 8 :=
  opcodeByte_of_and_eq (selects_iff.mp h) (opcodeMap_mask_covers_opcode r hr)

/-- Settles O2: two rows that select a word would share its opcode byte. -/
theorem atMostOneOpcodeRowMatches : Obligations.AtMostOneOpcodeRowMatches := by
  intro w
  have hsel : ∀ r ∈ opcodeMap.filter (·.selects w), w.extractLsb' 24 8 = r.mtch.extractLsb' 24 8 := fun r hr =>
    opcodeByte_of_selects (List.mem_filter.mp hr).1 (List.mem_filter.mp hr).2
  have hdiffer := opcodeMap_opcodes_differ.filter (·.selects w)
  generalize opcodeMap.filter (·.selects w) = rows at hsel hdiffer ⊢
  match rows with
  | [] => exact Nat.zero_le 1
  | [_] => exact Nat.le_refl 1
  | r :: r' :: _ => exact absurd ((hsel r (by simp)).symm.trans (hsel r' (by simp))) (List.rel_of_pairwise_cons hdiffer (by simp))

/-! ## What the decoder reads -/

/-- The command word `w` and its `n` extension words `ext` are read as the operation: the row of the opcode map that selects `w`, and the
operands (30_encoding.md R118, R119, R121, R125). -/
inductive Reads (w : Word) (ext : List Word) : Instr → Nat → Prop
  | gpioNew (h : w &&& 0xFF00C8C0 = 0x10000000) : Reads w ext (.gpioNew (fieldSlot w) (fieldPin w) (fieldMode w) (fieldPull w)) 0
  | gpioOn (h : w &&& 0xFF00FFFF = 0x11000000) : Reads w ext (.gpioOn (fieldSlot w)) 0
  | gpioOff (h : w &&& 0xFF00FFFF = 0x12000000) : Reads w ext (.gpioOff (fieldSlot w)) 0
  | gpioPullUp (h : w &&& 0xFF00FFFF = 0x13000000) : Reads w ext (.gpioPullUp (fieldSlot w)) 0
  | gpioPullDown (h : w &&& 0xFF00FFFF = 0x14000000) : Reads w ext (.gpioPullDown (fieldSlot w)) 0
  | gpioPullNeither (h : w &&& 0xFF00FFFF = 0x15000000) : Reads w ext (.gpioPullNeither (fieldSlot w)) 0
  | gpioDrop (h : w &&& 0xFF00FFFF = 0x16000000) : Reads w ext (.gpioDrop (fieldSlot w)) 0
  | uartNew (h : w &&& 0xFFFFFFFF = 0x20000000) : Reads w ext (.uartNew (ext.headD 0)) 1
  | uartSendc (h : w &&& 0xFFFFFF00 = 0x21000000) : Reads w ext (.uartSendc (fieldByte w)) 0
  | uartReadc (h : w &&& 0xFFFFFFFF = 0x22000000) : Reads w ext .uartReadc 0
  | uartSendStr (h : w &&& 0xFFFF0000 = 0x23000000) :
      Reads w ext (.uartSendStr (unpackText (fieldLen w).toNat ext)) (textWords (fieldLen w).toNat)

section
variable {w : Word} {ext : List Word} {i : Instr} {n : Nat}

/-- The row that selects the word is the one the decoder finds: those before it have other opcodes. -/
theorem Reads.decodeWords_eq (h : Reads w ext i n) : decodeWords w ext = some i := by
  cases h with
  | gpioNew h | gpioOn h | gpioOff h | gpioPullUp h | gpioPullDown h | gpioPullNeither h | gpioDrop h | uartNew h | uartSendc h | uartReadc h
  | uartSendStr h =>
    have hop := opcodeByte_of_and_eq h (by decide)
    simp (disch := decide) only [decodeWords, beq_iff_eq, if_pos h, and_ne_of_opcodeByte hop, if_false]

theorem Reads.extCount_eq (h : Reads w ext i n) : extCount w = n := by
  cases h with
  | gpioNew h | gpioOn h | gpioOff h | gpioPullUp h | gpioPullDown h | gpioPullNeither h | gpioDrop h | uartSendc h | uartReadc h
  | uartSendStr h | uartNew h =>
    have hop := opcodeByte_of_and_eq h (by decide)
    simp (disch := decide) only [extCount, beq_iff_eq, if_pos h, and_ne_of_opcodeByte hop, if_false]

theorem reads_of_selects {r : OpcodeRow} (ext : List Word) (hr : r ∈ opcodeMap) (h : r.selects w = true) : ∃ i n, Reads w ext i n := by
  have h := selects_iff.mp h
  fin_cases hr
  · exact ⟨_, _, .gpioNew h⟩
  · exact ⟨_, _, .gpioOn h⟩
  · exact ⟨_, _, .gpioOff h⟩
  · exact ⟨_, _, .gpioPullUp h⟩
  · exact ⟨_, _, .gpioPullDown h⟩
  · exact ⟨_, _, .gpioPullNeither h⟩
  · exact ⟨_, _, .gpioDrop h⟩
  · exact ⟨_, _, .uartNew h⟩
  · exact ⟨_, _, .uartSendc h⟩
  · exact ⟨_, _, .uartReadc h⟩
  · exact ⟨_, _, .uartSendStr h⟩

theorem decodeWords_of_no_row (ext : List Word) (h : ∀ r ∈ opcodeMap, r.selects w = false) : decodeWords w ext = none := by
  simp only [opcodeMap, List.forall_mem_cons, OpcodeRow.selects] at h
  simp only [decodeWords, h, Bool.false_eq_true, if_false]

theorem extCount_of_no_row (h : ∀ r ∈ opcodeMap, r.selects w = false) : extCount w = 0 := by
  simp only [opcodeMap, List.forall_mem_cons, OpcodeRow.selects] at h
  simp only [extCount, h, Bool.false_eq_true, if_false]

/-- What the decoder reads, it reads by the relation. -/
theorem reads_of_decodeWords (h : decodeWords w ext = some i) : ∃ n, Reads w ext i n := by
  by_cases hrow : ∃ r ∈ opcodeMap, r.selects w = true
  · obtain ⟨r, hr, hw⟩ := hrow
    obtain ⟨i', n, hreads⟩ := reads_of_selects ext hr hw
    obtain rfl : i' = i := Option.some.inj (hreads.decodeWords_eq.symm.trans h)
    exact ⟨n, hreads⟩
  · cases (decodeWords_of_no_row ext (by simpa using hrow)).symm.trans h

/-- A command whose extension words are all there (30_encoding.md R125). -/
theorem Reads.decode_eq (h : Reads w ext i ext.length) (rest : List Word) : decode (w :: (ext ++ rest)) = .command i rest :=
  decode_cons h.extCount_eq h.decodeWords_eq

/-- Whatever is decoded was read from a command word and as many extension words as it has. -/
theorem reads_of_decode {ws rest : List Word} (h : decode ws = .command i rest) :
    ∃ w ext, ws = w :: (ext ++ rest) ∧ Reads w ext i ext.length := by
  match ws with
  | [] => cases h
  | w :: ws =>
    simp only [decode] at h
    split at h
    · cases h
    · rename_i hlen
      split at h
      · rename_i hsome
        cases h
        obtain ⟨n, hreads⟩ := reads_of_decodeWords hsome
        obtain rfl := hreads.extCount_eq
        exact ⟨w, ws.take (extCount w), by rw [List.take_append_drop],
          by rwa [List.length_take_of_le (Nat.le_of_not_lt hlen)]⟩
      · cases h

/-- An illegal word is one for which the decoder finds no operation. -/
theorem decodeWords_of_illegal {ws vs : List Word} {v : Word} (h : decode (w :: ws) = .illegal v vs) :
    ∃ ext, decodeWords w ext = none := by
  simp only [decode] at h
  split at h
  · cases h
  · split at h
    · cases h
    · exact ⟨_, ‹_›⟩

/-- Settles O3: where a row selects the word the decoder finds an operation, and where none does it needs no extension word. -/
theorem illegalExactlyWhenNoRowMatches : Obligations.IllegalExactlyWhenNoRowMatches := by
  intro w ws
  constructor
  · intro hno
    simp only [decode, extCount_of_no_row hno, decodeWords_of_no_row _ hno, Nat.not_lt_zero, if_false]
  · rintro ⟨r, hr, hw⟩ v vs hill
    obtain ⟨ext, hnone⟩ := decodeWords_of_illegal hill
    obtain ⟨i, n, hreads⟩ := reads_of_selects ext hr hw
    cases hnone.symm.trans hreads.decodeWords_eq

end

/-! ## Texts in extension words (30_encoding.md R126) -/

theorem flatMap_wordBytes_length (ws : List Word) : (ws.flatMap wordBytes).length = 4 * ws.length := by
  induction ws with
  | nil => rfl
  | cons w ws ih =>
    rw [List.flatMap_cons, List.length_append, ih, List.length_cons, Nat.mul_succ, Nat.add_comm]
    rfl

/-- Bytes beyond `len` are cut off, and the extension words of a text hold at least `len`. -/
theorem unpackText_length {len : Nat} {ws : List Word} (h : ws.length = textWords len) : (unpackText len ws).length = len := by
  rw [unpackText, List.length_take, flatMap_wordBytes_length, h, textWords]
  omega

theorem wordBytes_getElem? (w : Word) {k : Nat} (hk : k < 4) : (wordBytes w)[k]? = some (w.extractLsb' (8 * k) 8) := by
  match k, hk with
  | 0, _ | 1, _ | 2, _ | 3, _ => rfl

/-- Byte `k` of the words' bytes lies in word `k / 4`, the lowest byte first. -/
theorem flatMap_wordBytes_getElem? (ws : List Word) (k : Nat) :
    (ws.flatMap wordBytes)[k]? = ws[k / 4]?.map fun w => w.extractLsb' (8 * (k % 4)) 8 := by
  induction ws generalizing k with
  | nil => simp
  | cons w ws ih =>
    have hlen : (wordBytes w).length = 4 := rfl
    rw [List.flatMap_cons]
    by_cases hk : k < 4
    · rw [List.getElem?_append_left (by omega), wordBytes_getElem? w hk, Nat.div_eq_of_lt hk, Nat.mod_eq_of_lt hk]
      rfl
    · obtain ⟨j, rfl⟩ := Nat.exists_eq_add_of_le' (Nat.le_of_not_lt hk)
      rw [List.getElem?_append_right (by omega), hlen, Nat.add_sub_cancel, ih, Nat.add_div_right j (by decide), Nat.add_mod_right]
      rfl

/-! ## The words of an operation -/

/-- Settles O5. -/
theorem commandLengths : Obligations.CommandLengths := by
  refine ⟨fun _ => rfl, fun text => ?_, fun i hnew hstr => ?_⟩
  · rw [encode, List.length_cons, packText_length, textWords, Nat.add_comm]
  · cases i with
    | uartNew baud => exact absurd rfl (hnew baud)
    | uartSendStr text => exact absurd rfl (hstr text)
    | _ => rfl

/-- An operation that was read with all its extension words is well formed, and its own encoding has as many. -/
theorem Reads.wf_and_length {w : Word} {ext : List Word} {i : Instr} (h : Reads w ext i ext.length) :
    i.wf = true ∧ (encode i).length = 1 + ext.length := by
  generalize hn : ext.length = n at h
  cases h with
  | uartSendStr h =>
    have hlen : (unpackText (fieldLen w).toNat ext).length = (fieldLen w).toNat := unpackText_length hn
    exact ⟨decide_eq_true (by rw [hlen]; exact (fieldLen w).isLt),
      by rw [encode, List.length_cons, packText_length, hlen, Nat.add_comm]⟩
  | _ => exact ⟨rfl, rfl⟩

/-- Settles O4: what was decoded was read from its words. -/
theorem decodedCommandTakesItsWords : Obligations.DecodedCommandTakesItsWords := by
  intro ws i rest h
  obtain ⟨w, ext, rfl, hreads⟩ := reads_of_decode h
  obtain ⟨hwf, hlen⟩ := hreads.wf_and_length
  exact ⟨hwf, w :: ext, rfl, by rw [hlen, List.length_cons, Nat.add_comm]⟩

section
variable (slot : BitVec 8)

/-- A format `G` word is selected by the row of its opcode, for every slot. -/
theorem encodeG_and_mask (opcode : BitVec 8) : encodeG opcode slot &&& 0xFF00FFFF = encodeG opcode 0 := by
  rw [show (0xFF00FFFF : Word) = (BitVec.allOnes 8 ++ 0#8) ++ BitVec.allOnes 16 from by decide, encodeG, BitVec.and_append,
    BitVec.and_append, BitVec.and_allOnes, BitVec.and_allOnes, BitVec.and_zero]
  rfl

theorem fieldSlot_encodeG (opcode : BitVec 8) : fieldSlot (encodeG opcode slot) = slot := by
  rw [fieldSlot, encodeG, extract_append_high _ _ _ (by decide), extract_append_low _ _ _ (by decide), extract_all]

/-- A row of format `G` reads the slot the word was written with. -/
theorem reads_encodeG {opcode : BitVec 8} {mtch : Word} {make : BitVec 8 → Instr}
    (hrow : ∀ w, w &&& 0xFF00FFFF = mtch → Reads w [] (make (fieldSlot w)) 0) (hmtch : encodeG opcode 0 = mtch) :
    Reads (encodeG opcode slot) [] (make slot) 0 := by
  simpa only [fieldSlot_encodeG] using hrow _ ((encodeG_and_mask slot opcode).trans hmtch)

variable (pin : BitVec 6) (mode : BitVec 3) (pull : BitVec 2)

/-- Format `N` (30_encoding.md R118): the command word of `GPIO.NEW`. -/
def gpioNewWord : Word := (0x10 : BitVec 8) ++ slot ++ (0 : BitVec 2) ++ pull ++ (0 : BitVec 1) ++ mode ++ (0 : BitVec 2) ++ pin

/-- The bits the mask of `GPIO.NEW` covers are its opcode and the zeros between the fields. -/
theorem gpioNewWord_and_mask : gpioNewWord slot pin mode pull &&& 0xFF00C8C0 = 0x10000000 := by
  rw [show (0xFF00C8C0 : Word) = BitVec.allOnes 8 ++ 0#8 ++ BitVec.allOnes 2 ++ 0#2 ++ BitVec.allOnes 1 ++ 0#3 ++ BitVec.allOnes 2 ++ 0#6
    from by decide, gpioNewWord]
  iterate 7 rw [BitVec.and_append]
  iterate 3 rw [BitVec.and_allOnes]
  iterate 4 rw [BitVec.and_zero]
  rfl

theorem gpioNewWord_fields : fieldSlot (gpioNewWord slot pin mode pull) = slot ∧ fieldPin (gpioNewWord slot pin mode pull) = pin ∧
    fieldMode (gpioNewWord slot pin mode pull) = mode ∧ fieldPull (gpioNewWord slot pin mode pull) = pull := by
  unfold fieldSlot fieldPin fieldMode fieldPull gpioNewWord
  refine ⟨?_, ?_, ?_, ?_⟩
  · iterate 6 rw [extract_append_high _ _ _ (by decide)]
    rw [extract_append_low _ _ _ (by decide), extract_all]
  · rw [extract_append_low _ _ _ (by decide), extract_all]
  · iterate 2 rw [extract_append_high _ _ _ (by decide)]
    rw [extract_append_low _ _ _ (by decide), extract_all]
  · iterate 4 rw [extract_append_high _ _ _ (by decide)]
    rw [extract_append_low _ _ _ (by decide), extract_all]

end

theorem sendcWord_and_mask (byte : Byte) : ((0x210000 : BitVec 24) ++ byte) &&& (0xFFFFFF00 : Word) = 0x21000000 := by
  rw [show (0xFFFFFF00 : Word) = BitVec.allOnes 24 ++ 0#8 from by decide, BitVec.and_append, BitVec.and_allOnes, BitVec.and_zero]
  rfl

theorem fieldByte_sendcWord (byte : Byte) : fieldByte ((0x210000 : BitVec 24) ++ byte) = byte := by
  rw [fieldByte, extract_append_low _ _ _ (by decide), extract_all]

theorem sendStrWord_and_mask (len : BitVec 16) : ((0x2300 : BitVec 16) ++ len) &&& (0xFFFF0000 : Word) = 0x23000000 := by
  rw [show (0xFFFF0000 : Word) = BitVec.allOnes 16 ++ 0#16 from by decide, BitVec.and_append, BitVec.and_allOnes, BitVec.and_zero]
  rfl

theorem fieldLen_sendStrWord (len : BitVec 16) : fieldLen ((0x2300 : BitVec 16) ++ len) = len := by
  rw [fieldLen, extract_append_low _ _ _ (by decide), extract_all]

/-- A text of `len` bytes, `len` a 16-bit number, is read from any extension words, as many as it needs. -/
theorem reads_sendStr {len : Nat} {ws : List Word} (hlen : len < 65536) (hws : ws.length = textWords len) :
    Reads ((0x2300 : BitVec 16) ++ BitVec.ofNat 16 len) ws (.uartSendStr (unpackText len ws)) ws.length := by
  have h := Reads.uartSendStr (ext := ws) (sendStrWord_and_mask (BitVec.ofNat 16 len))
  rwa [fieldLen_sendStrWord, BitVec.toNat_ofNat, Nat.mod_eq_of_lt hlen, ← hws] at h

/-- Settles O6: the text is the bytes of the extension words, in order, cut to its length. -/
theorem textBytesLieLittleEndian : Obligations.TextBytesLieLittleEndian := by
  refine ⟨fun ws len hlen hws => ⟨unpackText len ws, ?_, unpackText_length hws, fun k hk => ?_⟩, by decide, by decide⟩
  · simpa using (reads_sendStr hlen hws).decode_eq []
  · rw [unpackText, List.getElem?_take_of_lt hk, flatMap_wordBytes_getElem?]

/-- The words the encoder writes are read as the operation. -/
theorem reads_encode {i : Instr} (hi : i.wf = true) : ∃ w ext, encode i = w :: ext ∧ Reads w ext i ext.length := by
  cases i with
  | gpioNew slot pin mode pull =>
    have h := Reads.gpioNew (ext := []) (gpioNewWord_and_mask slot pin mode pull)
    obtain ⟨hslot, hpin, hmode, hpull⟩ := gpioNewWord_fields slot pin mode pull
    rw [hslot, hpin, hmode, hpull] at h
    exact ⟨_, _, rfl, h⟩
  | gpioOn slot => exact ⟨_, _, rfl, reads_encodeG slot (fun _ => .gpioOn) (by decide)⟩
  | gpioOff slot => exact ⟨_, _, rfl, reads_encodeG slot (fun _ => .gpioOff) (by decide)⟩
  | gpioPullUp slot => exact ⟨_, _, rfl, reads_encodeG slot (fun _ => .gpioPullUp) (by decide)⟩
  | gpioPullDown slot => exact ⟨_, _, rfl, reads_encodeG slot (fun _ => .gpioPullDown) (by decide)⟩
  | gpioPullNeither slot => exact ⟨_, _, rfl, reads_encodeG slot (fun _ => .gpioPullNeither) (by decide)⟩
  | gpioDrop slot => exact ⟨_, _, rfl, reads_encodeG slot (fun _ => .gpioDrop) (by decide)⟩
  | uartNew baud => exact ⟨_, _, rfl, .uartNew (w := 0x20000000) (ext := [baud]) (by decide)⟩
  | uartSendc byte =>
    have h := Reads.uartSendc (ext := []) (sendcWord_and_mask byte)
    rw [fieldByte_sendcWord] at h
    exact ⟨_, _, rfl, h⟩
  | uartReadc => exact ⟨_, _, rfl, .uartReadc (by decide)⟩
  | uartSendStr text =>
    have h := reads_sendStr (of_decide_eq_true hi) (packText_length text)
    rw [unpackText_packText] at h
    exact ⟨_, _, rfl, h⟩

/-- Settles O1: the words the encoder writes stand in the relation by which the decoder reads. -/
theorem decodeReadsWhatEncodeWrites : Obligations.DecodeReadsWhatEncodeWrites := by
  intro i rest hi
  obtain ⟨w, ext, henc, hreads⟩ := reads_encode hi
  rw [henc, List.cons_append, hreads.decode_eq]

end Sys2Proof
end
section
/-! Taking a command (10_state.md R29; 30_encoding.md R117, R125): what a step of a ready machine does with what the decoder finds. -/

namespace Sys2Proof.Machine

section
variable {s : State}

theorem step_of_command {i : Instr} {rest : List Word} (hs : s.ready) (hd : decode s.cmdPort = .command i rest) :
    step s = exec i (s.withCmdPort rest) := by
  obtain ⟨hrun, hseq⟩ := hs
  simp only [step, hrun, hseq, hd]

theorem step_of_incomplete (hs : s.ready) (hd : decode s.cmdPort = .incomplete) : step s = .next (envTurn s) := by
  obtain ⟨hrun, hseq⟩ := hs
  simp only [step, hrun, hseq, hd]

theorem envTurn_of_sched {es : List EnvStep} {later : List (List EnvStep)} (h : s.sched = es :: later) :
    envTurn s = es.foldl envStep (s.withSched later) := by
  simp only [envTurn, h]

end

/-- Settles O8: the decoder finds the operation again (`decodeReadsWhatEncodeWrites`). -/
theorem stepRunsTheDecodedCommand : Obligations.StepRunsTheDecodedCommand := by
  intro i rest s hi hs hport
  have hdecode : decode s.cmdPort = .command i rest := by rw [hport, decodeReadsWhatEncodeWrites i rest hi]
  exact step_of_command hs hdecode

/-- Settles O10: the step is the environment's turn, and without a reset that is the line's. -/
theorem incompleteCommandIsWaitedFor : Obligations.IncompleteCommandIsWaitedFor := by
  intro s hs hl hd
  have line := envTurn_line s hl
  obtain ⟨hrun, hseq⟩ := hs
  exact ⟨envTurn s, step_of_incomplete ⟨hrun, hseq⟩ hd, ⟨line.run.trans hrun, line.seq.trans hseq⟩, line.cmdPort, line.trace,
    line.responses, line.slots, line.uart, line.fault, line.dly, line.params, line.badCommand, line.pins, line.uartRegs,
    envTurn_onlyLine s hl, fun _ _ => envTurn_of_sched, envTurn_quiet s⟩

end Sys2Proof.Machine
end

section
/-! A text sent with the line silent (30_encoding.md R129; 41_uart.md R187, R189): what one byte does is a function of the state alone, which
reads neither `seq` nor the responses, so that a run of `UART.SEND_STR` goes through the states that one `UART.SENDC` after another goes
through, but for those two fields. -/

namespace Sys2Proof.Machine

/-! ## One byte -/

/-- The line-status word a poll reads (10_state.md R56, R64): `memRead_muLsr` ties it to the target. -/
def State.statusRead (s : State) : ReadWord :=
  if s.target.enabled then lineStatus s.params s.target (Config.drawWord s.draws) else .plain (Config.drawWord s.draws)

/-- The status has been read once: `memRead_muLsr` ties it to the target. -/
def State.statusPolled (s : State) : State := s.drawn.logEvent (.rd (regAddr s.params .muLsr) s.statusRead.toWord)

/-- A byte has been written to the data register: `memWrite_muIo` ties it to the target. -/
def State.byteWritten (b : Byte) (s : State) : State :=
  (s.drawn.withTarget { s.target with txf := txfWritten s b }).logEvent (.wr (regAddr s.params .muIo) (zext32 b))

/-- A byte has been sent after a poll (41_uart.md R187): `sendByte_runs_quiet` ties it to the sequencer. -/
def State.sentByte (b : Byte) (s : State) : State := s.statusPolled.byteWritten b

/-- The same machine with other responses given so far. -/
def State.withResponses (rs : List Response) (s : State) : State := { s with responses := rs }

section
variable {s : State} {i : Instr} {w : ReadWord} {rest : List MicroOp} {b : Byte}

@[simp] theorem State.sentByte_params : (s.sentByte b).params = s.params := by
  simp [State.sentByte, State.byteWritten, State.statusPolled]
@[simp] theorem State.sentByte_uart : (s.sentByte b).uart = s.uart := by simp [State.sentByte, State.byteWritten, State.statusPolled]
@[simp] theorem State.sentByte_run : (s.sentByte b).run = s.run := by simp [State.sentByte, State.byteWritten, State.statusPolled]
@[simp] theorem State.sentByte_responses : (s.sentByte b).responses = s.responses := by
  simp [State.sentByte, State.byteWritten, State.statusPolled]
@[simp] theorem State.sentByte_sched : (s.sentByte b).sched = s.sched := by simp [State.sentByte, State.byteWritten, State.statusPolled]

/-! Neither the status nor the byte sent depends on `seq` or on the responses. -/

theorem State.statusRead_withSeq (q : Seq) : (s.withSeq q).statusRead = s.statusRead := rfl
theorem State.statusRead_withResponses (rs : List Response) : (s.withResponses rs).statusRead = s.statusRead := rfl
theorem State.sentByte_withSeq (q : Seq) : (s.withSeq q).sentByte b = (s.sentByte b).withSeq q := rfl
theorem State.sentByte_withResponses (rs : List Response) : (s.withResponses rs).sentByte b = (s.sentByte b).withResponses rs := rfl

theorem State.withSeq_withSeq (q q' : Seq) : (s.withSeq q).withSeq q' = s.withSeq q' := rfl
theorem State.withSeq_withResponses (q : Seq) (rs : List Response) :
    (s.withSeq q).withResponses rs = (s.withResponses rs).withSeq q := rfl
theorem State.respond_withResponses (r : Response) (rs : List Response) : (s.respond r).withResponses rs = s.withResponses rs := rfl

theorem State.withResponses_self {rs : List Response} (h : s.responses = rs) : s.withResponses rs = s := by
  rw [← h]
  rfl

theorem State.withSeq_self {q : Seq} (h : s.seq = q) : s.withSeq q = s := by
  rw [← h]
  rfl

theorem memRead_muLsr : memRead (regAddr s.params .muLsr) s = .ok (s.statusRead, s.statusPolled) := by
  have hread : readReg .muLsr s = (s.statusRead, s.drawn) := by
    cases he : s.target.enabled <;> simp only [readReg, State.statusRead, he] <;> rfl
  simp only [memRead_regAddr (r := .muLsr) (s := s) (by simp), hread]
  rfl

theorem memWrite_muIo : memWrite (regAddr s.params .muIo) (zext32 b) s = .ok (s.byteWritten b) := by
  have hwrite : writeReg .muIo (zext32 b) s = .ok (s.drawn.withTarget { s.target with txf := txfWritten s b }) := by
    rw [writeReg, lowByte_zext32]
  exact memWrite_regAddr (by simp) hwrite

/-- With the line silent a tick is the first micro-operation that remains. -/
theorem tick_of_performed {op : MicroOp} {t : State} (hq : s.sched = []) (hs : s.seq = .busy i w (op :: rest))
    (h : Performed i w rest s op t) : tick s = .next t := by
  simp only [tick, envTurn_quiet s hq, sequencerStep, hs, perform_of_performed h]

/-- A poll that finds the transmitter ready, and the byte. -/
theorem sendByte_runs_quiet (hq : s.sched = []) (hs : s.seq = .busy i w (sendByte s.params b ++ rest))
    (hr : s.statusRead.bit .txEmpty = true) (hg : goesOn rest = true) :
    Runs 2 s ((s.sentByte b).withSeq (.busy i s.statusRead rest)) := by
  have hpoll := runs_of_tick (tick_of_performed hq hs (.pollSet memRead_muLsr hr)) (busy_not_parked _ _ _ rfl)
  have hq' : (s.statusPolled.withSeq (.busy i s.statusRead (.memWrite (regAddr s.params .muIo) (zext32 b) :: rest))).sched = [] := by
    simpa [State.statusPolled] using hq
  exact hpoll.trans (runs_of_tick (tick_of_performed hq' rfl (.memWrite memWrite_muIo)) (busy_not_parked _ _ _ hg))

/-- A poll that finds it not ready: the operation waits. -/
theorem sendByte_ends_quiet (hq : s.sched = []) (hs : s.seq = .busy i w (sendByte s.params b ++ rest))
    (hr : s.statusRead.bit .txEmpty = false) : ∃ t, Ends 1 s t ∧ t.seq ≠ .idle :=
  ⟨_, ends_of_tick (tick_of_performed hq hs (.pollClear memRead_muLsr hr)) (nop_parked _ _ _ _), by simp⟩

/-! ## The rest of a text -/

/-- What an operation that sends has still to do. -/
def sendOps (p : Params) (text : List Byte) : List MicroOp := text.flatMap (sendByte p) ++ [.finish .sent]

theorem sendOps_cons (p : Params) (b : Byte) (text : List Byte) : sendOps p (b :: text) = sendByte p b ++ sendOps p text := rfl

theorem goesOn_sendOps (p : Params) (text : List Byte) : goesOn (sendOps p text) = true := by
  cases text <;> rfl

theorem opsCost_sendOps (p : Params) (text : List Byte) : opsCost (sendOps p text) = 2 * text.length + 2 := by
  induction text with
  | nil => rfl
  | cons b text ih =>
    rw [sendOps_cons, sendByte, List.cons_append, List.cons_append, List.nil_append, opsCost_cons, opsCost_cons, ih, List.length_cons]
    simp only [MicroOp.cost]
    omega

/-- The machine in the operation `i`, with the bytes of a text still to be sent and the responses `rs` given so far. -/
def State.sending (i : Instr) (w : ReadWord) (rs : List Response) (text : List Byte) (s : State) : State :=
  (s.withResponses rs).withSeq (.busy i w (sendOps s.params text))

/-- A ready machine with a transceiver starts to send (41_uart.md R187, R189). -/
theorem exec_of_sendOps {text : List Byte} (hs : s.ready) (hplan : planOf s i = onUart (sendOps s.params text) s)
    (hu : s.uart.valid = true) : exec i s = runSeq (2 * text.length + 2) (s.sending i (.plain 0) s.responses text) := by
  rw [exec_eq_issue_planOf, hplan, onUart, if_pos hu, issue_runs _ _ _ hs, opsCost_sendOps]
  rfl

/-- One byte of the text: the state is as after a `UART.SENDC` of it. -/
theorem sending_runs (rs : List Response) (text : List Byte) (hq : s.sched = []) (hr : s.statusRead.bit .txEmpty = true) :
    Runs 2 (s.sending i w rs (b :: text)) ((((s.sentByte b).respond .done).withSeq .idle).sending i s.statusRead rs text) := by
  have h := sendByte_runs_quiet (s := s.sending i w rs (b :: text)) (i := i) (w := w) (b := b) (rest := sendOps s.params text) hq rfl hr
    (goesOn_sendOps _ _)
  simpa only [State.sending, State.sentByte_withSeq, State.sentByte_withResponses, State.statusRead_withSeq,
    State.statusRead_withResponses, State.withSeq_withSeq, State.withSeq_withResponses, State.respond_withResponses, State.withSeq_params,
    State.respond_params, State.sentByte_params] using h

/-- The end of the text: the one response. -/
theorem sending_nil_ends (rs : List Response) (hq : s.sched = []) (hs : s.seq = .idle) :
    Ends 1 (s.sending i w rs []) (s.withResponses (rs ++ [.done])) := by
  have h : Ends 1 (s.sending i w rs []) ((s.withResponses (rs ++ [.done])).withSeq .idle) :=
    ends_of_tick (tick_of_performed hq rfl (.finish (u := .sent) rfl)) (idle_parked _)
  have hidle : (s.withResponses (rs ++ [.done])).seq = .idle := hs
  rwa [State.withSeq_self hidle] at h

/-! ## One `UART.SENDC` after another -/

theorem exec_sendc_of_ready (hs : s.ready) (hq : s.sched = []) (hu : s.uart.valid = true) (hr : s.statusRead.bit .txEmpty = true) :
    exec (.uartSendc b) s = .next (((s.sentByte b).respond .done).withSeq .idle) := by
  have hend := sending_nil_ends (i := .uartSendc b) (w := s.statusRead) (s := ((s.sentByte b).respond .done).withSeq .idle) s.responses
    (by simpa using hq) rfl
  rw [State.withResponses_self (by simp)] at hend
  rw [exec_of_sendOps (text := [b]) hs rfl hu]
  exact (sending_runs s.responses [] hq hr).ends hend _ (by simp)

theorem exec_sendc_of_not_ready (hs : s.ready) (hq : s.sched = []) (hu : s.uart.valid = true)
    (hr : s.statusRead.bit .txEmpty = false) : ∃ t, exec (.uartSendc b) s = .next t ∧ t.seq ≠ .idle := by
  obtain ⟨t, hends, ht⟩ := sendByte_ends_quiet (s := s.sending (.uartSendc b) (.plain 0) s.responses [b]) hq rfl hr
  exact ⟨t, (exec_of_sendOps (text := [b]) hs rfl hu).trans (hends _ (by simp)), ht⟩

/-- A sequencer in an operation is given no command (10_state.md R29). -/
theorem exec_of_busy (i : Instr) (h : s.seq ≠ .idle) : exec i s = .next s := by
  rw [exec_eq_issue_planOf]
  unfold issue
  split
  · exact absurd ‹_› h
  · rfl
  · rfl

theorem sendEach_cons {u : State} (text : List Byte) (h : exec (.uartSendc b) s = .next u) :
    sendEach (b :: text) s = sendEach text u := by
  rw [sendEach, h]

theorem sendEach_of_busy (text : List Byte) (h : s.seq ≠ .idle) : sendEach text s = .next s := by
  induction text with
  | nil => rfl
  | cons b text ih => rw [sendEach_cons text (exec_of_busy _ h), ih]

/-- Where one `UART.SENDC` after another completes, a text is sent from the same state and leaves the same state. -/
theorem sending_runs_of_sendEach {text : List Byte} {t : State} (rs : List Response) (hs : s.ready) (hq : s.sched = [])
    (hu : s.uart.valid = true) (h : sendEach text s = .next t) (ht : t.seq = .idle) :
    t.sched = [] ∧ ∃ w', Runs (2 * text.length) (s.sending i w rs text) (t.sending i w' rs []) := by
  induction text generalizing s w with
  | nil =>
    cases h
    exact ⟨hq, w, .refl _⟩
  | cons b text ih =>
    cases hr : s.statusRead.bit .txEmpty with
    | true =>
      rw [sendEach_cons text (exec_sendc_of_ready hs hq hu hr)] at h
      obtain ⟨hsched, w', hrun⟩ := ih (w := s.statusRead) ⟨by simpa using hs.1, rfl⟩ (by simpa using hq) (by simpa using hu) h
      refine ⟨hsched, w', ?_⟩
      rw [List.length_cons, Nat.mul_succ, Nat.add_comm]
      exact (sending_runs rs text hq hr).trans hrun
    | false =>
      obtain ⟨u, hexec, hbusy⟩ := exec_sendc_of_not_ready (b := b) hs hq hu hr
      rw [sendEach_cons text hexec, sendEach_of_busy text hbusy] at h
      cases h
      exact absurd ht hbusy

end

/-- Settles O30: the run of the text goes through the states of the single sends, and its one response comes at the end. -/
theorem sendStrIsSendcForEachByte : Obligations.SendStrIsSendcForEachByte := by
  intro text s t hs hq hu h ht
  obtain ⟨hsched, w', hrun⟩ := sending_runs_of_sendEach (i := .uartSendStr text) (w := .plain 0) s.responses hs hq hu h ht
  rw [exec_of_sendOps hs rfl hu]
  exact hrun.ends (sending_nil_ends s.responses hsched ht) _ (by omega)

end Sys2Proof.Machine
end

section
/-! The GPIO operations (40_gpio.md R141 to R157): a run of micro-operations that ends with the update of one slot completes the operation
(`issue_updatesSlot`), and each operation is then its checks, what its accesses do to the pins and its context update. -/

namespace Sys2Proof.Machine

/-! ## The function-select field of a pin (40_gpio.md R141, R144) -/

/-- The ten fields of three bits lie in bits 29:0. -/
theorem fselShift_le (pin : BitVec 6) : fselShift pin ≤ 27 := by
  unfold fselShift
  omega

theorem fselField_getLsbD (pin : BitVec 6) (b : Nat) :
    (fselField pin).getLsbD b = (decide (fselShift pin ≤ b) && decide (b < fselShift pin + 3)) := by
  have hshift := fselShift_le pin
  have hseven : ∀ i, (7#32).getLsbD i = decide (i < 3) := by
    intro i
    by_cases hi : i < 32
    · revert i; decide
    · rw [BitVec.getLsbD_of_ge _ _ (by omega)]
      exact (decide_eq_false (by omega)).symm
  rw [fselField, BitVec.getLsbD_shiftLeft, hseven]
  grind

theorem fselCode_getLsbD (pin : BitVec 6) (code : BitVec 3) (b : Nat) :
    (fselCode pin code).getLsbD b = (decide (fselShift pin ≤ b) && code.getLsbD (b - fselShift pin)) := by
  have hshift := fselShift_le pin
  simp only [fselCode, BitVec.getLsbD_shiftLeft, BitVec.getLsbD_setWidth]
  by_cases hb : b < fselShift pin + 3
  · simp [show b < 32 by omega, show b - fselShift pin < 32 by omega, ← decide_not]
  · simp [BitVec.getLsbD_of_ge code (b - fselShift pin) (by omega)]

theorem rmwWord_getLsbD (w clear bits : Word) {b : Nat} (hb : b < 32) :
    (rmwWord w clear bits).getLsbD b = (w.getLsbD b && !clear.getLsbD b || bits.getLsbD b) := by
  simp [rmwWord, hb]

/-- A bit of the pin's field of the word written. -/
theorem rmwField_getLsbD_inside (pin : BitVec 6) (code : BitVec 3) (w : Word) {i : Nat} (hi : i < 3) :
    (rmwWord w (fselField pin) (fselCode pin code)).getLsbD (fselShift pin + i) = code.getLsbD i := by
  have hshift := fselShift_le pin
  rw [rmwWord_getLsbD _ _ _ (by omega), fselField_getLsbD, fselCode_getLsbD]
  simp [hi]

/-- Any other bit of the word written. -/
theorem rmwField_getLsbD_outside (pin : BitVec 6) (code : BitVec 3) (w : Word) {b : Nat}
    (hb : b < fselShift pin ∨ fselShift pin + 3 ≤ b) :
    (rmwWord w (fselField pin) (fselCode pin code)).getLsbD b = w.getLsbD b := by
  by_cases h32 : b < 32
  · have hcode : (fselCode pin code).getLsbD b = false := by
      rw [fselCode_getLsbD]
      obtain h | h := hb
      · simp [h]
      · simp [BitVec.getLsbD_of_ge code (b - fselShift pin) (by omega)]
    have hfield : (fselField pin).getLsbD b = false := by
      rw [fselField_getLsbD]
      obtain h | h := hb <;> simp [h]
    rw [rmwWord_getLsbD _ _ _ h32, hfield, hcode, Bool.not_false, Bool.and_true, Bool.or_false]
  · rw [BitVec.getLsbD_of_ge _ _ (by omega), BitVec.getLsbD_of_ge _ _ (by omega)]

theorem rmwField_extract_inside (pin : BitVec 6) (code : BitVec 3) (w : Word) :
    (rmwWord w (fselField pin) (fselCode pin code)).extractLsb' (fselShift pin) 3 = code :=
  BitVec.eq_of_getLsbD_eq fun i hi => by
    rw [BitVec.getLsbD_extractLsb', decide_eq_true hi, Bool.true_and, rmwField_getLsbD_inside pin code w hi]

theorem rmwField_extract_outside (pin : BitVec 6) (code : BitVec 3) (w : Word) {k : Nat}
    (hk : k + 3 ≤ fselShift pin ∨ fselShift pin + 3 ≤ k) :
    (rmwWord w (fselField pin) (fselCode pin code)).extractLsb' k 3 = w.extractLsb' k 3 :=
  BitVec.eq_of_getLsbD_eq fun i hi => by
    rw [BitVec.getLsbD_extractLsb', BitVec.getLsbD_extractLsb', rmwField_getLsbD_outside pin code w (by omega)]

/-- Settles O17. -/
theorem modifyChangesOnlyThePinsField : Obligations.ModifyChangesOnlyThePinsField := fun pin code w =>
  ⟨rmwField_extract_inside pin code w, fun _ hb => rmwField_getLsbD_outside pin code w hb⟩

/-- The functions of all pins after the field of one pin has been written. -/
theorem func_withField (t : Target) (pin : BitVec 6) (code : BitVec 3) (hpin : pin.toNat / 10 < 6) (p : Fin 54) :
    (t.withField pin code hpin).func p = if p.val = pin.toNat then code else t.func p := by
  by_cases hreg : p.val / 10 = pin.toNat / 10
  · have hword : (t.withField pin code hpin).func p
        = (rmwWord t.fsel[pin.toNat / 10] (fselField pin) (fselCode pin code)).extractLsb' (3 * (p.val % 10)) 3 := by
      simp [Target.func, Target.withField, hreg]
    rw [hword]
    split
    · rename_i hp
      rw [hp]
      exact rmwField_extract_inside pin code _
    · rw [rmwField_extract_outside pin code _ (by unfold fselShift; omega)]
      simp [Target.func, hreg]
  · rw [if_neg fun hp => hreg (by rw [hp])]
    simp only [Target.func, Target.withField]
    rw [Vector.getElem_set_ne _ _ (Ne.symm hreg)]

theorem Target.func_congr {t u : Target} (h : u.fsel = t.fsel) (p : Fin Config.pinCount) : u.func p = t.func p := by
  simp only [Target.func, h]

/-! ## The context update that ends an operation -/

section
variable {s e : State} {i : Instr} {slot : BitVec 8} {c : GpioContext}

/-- An operation has completed: these events and one slot written, `n` turns of the line, and nothing else but the pins' registers
and `dly`. -/
structure UpdatesSlot (n : Nat) (slot : BitVec 8) (c : GpioContext) (events : List Event) (s t : State) : Prop where
  completed : Completed s t .done
  trace : t.trace = s.trace ++ events
  slots : t.slots = s.slots.set slot.toNat c
  uart : t.uart = s.uart
  uartRegs : SameUartRegs s.target t.target
  line : OnlyLine n s t

theorem PinMoves.refl (s : State) : PinMoves 0 s s [] :=
  ⟨rfl, rfl, rfl, rfl, rfl, (List.append_nil _).symm, rfl, rfl, rfl, .refl _, .refl s, id⟩

/-- The micro-operations before the context update have run: the update and the response complete the operation. -/
theorem issue_updatesSlot {n : Nat} {w : ReadWord} {ops : List MicroOp} {u : Update} {events : List Event} (hs : s.ready)
    (hl : s.lineOnly) (hmoves : PinMoves n s e events)
    (hruns : Runs n (s.withSeq (.busy i (.plain 0) (ops ++ [.finish u]))) (e.withSeq (.busy i w [.finish u])))
    (hcost : n + 1 ≤ opsCost (ops ++ [.finish u])) (hdone : u.response w = .done)
    (hupdate : ∀ x : State, x.params = s.params → x.slots = s.slots → applyUpdate u x = .ok (x.setContext slot c)) :
    ∃ t, issue i (.ok (ops ++ [.finish u])) s = .next t ∧ UpdatesSlot (n + 1) slot c events s t ∧ t.dly = e.dly ∧
      SamePins e.target t.target := by
  obtain ⟨x, hx, hdly, hpins, hends⟩ := finish_moves (s := e.withSeq (.busy i w [.finish u])) (hmoves.lineOnly hl) rfl
    (hmoves.withSeq _) (fun x => x.setContext slot c) fun x hx => hupdate x hx.params hx.slots
  rw [hdone] at hends
  refine ⟨_, (issue_runs i _ s hs).trans (runSeq_of hruns hends hcost), ?_, hdly, hpins⟩
  exact {
    completed := ⟨hx.run.trans hs.1, rfl, hx.fault, congrArg (· ++ [Response.done]) hx.responses, hx.params, hx.cmdPort, hx.badCommand⟩
    trace := hx.trace
    slots := congrArg (·.set slot.toNat c) hx.slots
    uart := hx.uart
    uartRegs := hx.uartRegs
    line := ⟨hx.line.sched, ⟨hx.line.tx.lineTx, hx.line.tx.txf⟩, hx.line.rxf⟩ }

theorem onContext_of_context {f : BitVec 6 → List MicroOp} (hc : s.context slot = some c) : onContext slot f s = .ok (f c.pin) := by
  simp only [onContext, hc]

/-- A context update of a slot that still holds the context the operation found there. -/
theorem updateContext_of_context {x : State} {f : GpioContext → GpioContext} (hc : s.context slot = some c)
    (hp : x.params = s.params) (hslots : x.slots = s.slots) : x.updateContext slot f = .ok (x.setContext slot (f c)) := by
  simp only [State.updateContext, context_congr hp hslots, hc]

/-! ## One write of the output latches (40_gpio.md R151, R152) -/

/-- `GPIO.ON` and `GPIO.OFF` alike: a write that only changes the output latches, and the context's `state`. -/
theorem latchWrite_updatesSlot {a v : Word} {r : Reg} {on : Bool} {f : BitVec Config.pinCount → BitVec Config.pinCount}
    (hs : s.ready) (hl : s.lineOnly) (hc : s.context slot = some c) (hr : regAt s.params a = some r)
    (hw : ∀ x, writeReg r v x = .ok (x.withTarget { x.target with out := f x.target.out })) :
    ∃ t, issue i (.ok [.memWrite a v, .finish (.setState slot on)]) s = .next t ∧
      UpdatesSlot 2 slot { c with state := on } [.wr a v] s t ∧ t.dly = s.dly ∧ t.target.out = f s.target.out ∧
      SamePins { s.target with out := t.target.out } t.target := by
  obtain ⟨x, hx, hruns⟩ := memWrite_runs (s := s.withSeq (.busy i (.plain 0) [.memWrite a v, .finish (.setState slot on)]))
    hl rfl hr rfl (fun x => x.withTarget { x.target with out := f x.target.out }) fun x _ => hw x
  have hmoves := ((hx.pinMoves.ofSeq _).withPins x.target.fsel (f x.target.out) x.target.pud x.target.pudclk
    x.target.pull).logEvent (.wr a v)
  obtain ⟨hfsel, hout, hpud, hpudclk, hpull⟩ := hx.line.pins
  obtain ⟨t, ht, hupd, hdly, hpins⟩ := issue_updatesSlot (ops := [.memWrite a v]) hs hl hmoves hruns (by simp [opsCost, MicroOp.cost])
    rfl
    fun y hp hslots => updateContext_of_context hc hp hslots
  exact ⟨t, ht, hupd, hdly.trans hx.line.dly, hpins.out.trans (congrArg f hout),
    ⟨hpins.fsel.trans hfsel, rfl, hpins.pud.trans hpud, hpins.pudclk.trans hpudclk, hpins.pull.trans hpull⟩⟩

end

/-- Settles O19. -/
theorem gpioOnSetsOneLatch : Obligations.GpioOnSetsOneLatch := by
  intro slot s c hs hl hc
  obtain ⟨t, ht, hupd, hdly, hout, hpins⟩ := latchWrite_updatesSlot (i := .gpioOn slot) (on := true) (v := pinBit c.pin)
    (f := (· ||| pinMask ⟨c.pin.toNat / 32, pairIndex_lt c.pin⟩ (pinBit c.pin))) hs hl hc
    ((congrArg _ (setAddr_eq s.params c.pin)).trans (regAt_regAddr _ _ (by simp))) fun x => rfl
  refine ⟨t, ?_, hupd.completed, hdly, hupd.trace, hupd.slots, hupd.uart, fun q hq => ?_, hpins, hupd.uartRegs, hupd.line⟩
  · rw [exec_eq_issue_planOf, planOf, onContext_of_context hc, ht]
  · rw [hout]
    exact (setLatches_getLsbD _ _ _ q).trans (by rw [pinMask_pinBit c.pin q hq, Bool.or_comm])

/-- Settles O20. -/
theorem gpioOffClearsOneLatch : Obligations.GpioOffClearsOneLatch := by
  intro slot s c hs hl hc
  obtain ⟨t, ht, hupd, hdly, hout, hpins⟩ := latchWrite_updatesSlot (i := .gpioOff slot) (on := false) (v := pinBit c.pin)
    (f := (· &&& ~~~pinMask ⟨c.pin.toNat / 32, pairIndex_lt c.pin⟩ (pinBit c.pin))) hs hl hc
    ((congrArg _ (clrAddr_eq s.params c.pin)).trans (regAt_regAddr _ _ (by simp))) fun x => rfl
  refine ⟨t, ?_, hupd.completed, hdly, hupd.trace, hupd.slots, hupd.uart, fun q hq => ?_, hpins, hupd.uartRegs, hupd.line⟩
  · rw [exec_eq_issue_planOf, planOf, onContext_of_context hc, ht]
  · rw [hout]
    exact (clrLatches_getLsbD _ _ _ hq).trans (by rw [pinMask_pinBit c.pin q hq, Bool.and_comm])

/-- Settles O22: the context update is the operation's only micro-operation. -/
theorem gpioDropTouchesNoRegister : Obligations.GpioDropTouchesNoRegister := by
  intro slot s c hs hl hc
  obtain ⟨t, ht, hupd, hdly, hpins⟩ := issue_updatesSlot (i := .gpioDrop slot) (ops := []) (u := .drop slot) hs hl (.refl s) (.refl _)
    (by simp [opsCost, MicroOp.cost]) rfl fun x hp hslots => updateContext_of_context hc hp hslots
  refine ⟨t, ?_, hupd.completed, hdly, by simpa using hupd.trace, hupd.slots, hupd.uart, hpins, hupd.uartRegs, hupd.line⟩
  rw [exec_eq_issue_planOf, planOf, onContext_of_context hc]
  exact ht

/-! ## `GPIO.ON` and then `GPIO.OFF` (95_test_vectors.md S2) -/

theorem OnlyLine.lineOnly {n : Nat} {s t : State} (h : OnlyLine n s t) (hl : s.lineOnly) : t.lineOnly := fun es hes =>
  hl es (List.mem_of_mem_drop (h.sched ▸ hes))

/-- A slot of the list that was written with a valid context holds it. -/
theorem context_of_slots_set {s t : State} {slot : BitVec 8} {c c' : GpioContext} (hc : s.context slot = some c)
    (hlen : slot.toNat < s.slots.length) (hp : t.params = s.params) (hslots : t.slots = s.slots.set slot.toNat c')
    (hvalid : c'.valid = true) : t.context slot = some c' :=
  context_eq_some.mpr ⟨hp ▸ (context_eq_some.mp hc).1, by rw [hslots, List.getElem?_set_self hlen], hvalid⟩

/-- Settles O23: `GPIO.ON` leaves a ready machine with the pin's context in the slot, on which `GPIO.OFF` clears what it set. -/
theorem onThenOffLeavesOtherPins : Obligations.OnThenOffLeavesOtherPins := by
  intro slot s c hs hl hc hlen
  obtain ⟨t, ht, htdone, -, -, htslots, -, htout, -, -, htline⟩ := gpioOnSetsOneLatch slot s c hs hl hc
  have hct : t.context slot = some { c with state := true } :=
    context_of_slots_set hc hlen htdone.params htslots (context_eq_some.mp hc).2.2
  obtain ⟨u, hu, -, -, -, -, -, huout, -⟩ :=
    gpioOffClearsOneLatch slot t { c with state := true } ⟨htdone.run, htdone.seq⟩ (htline.lineOnly hl) hct
  refine ⟨t, u, ht, hu, fun q hq => ?_⟩
  rw [huout q hq, htout q hq]
  by_cases hpin : q = c.pin.toNat <;> simp [hpin]

/-! ## The pull operations (40_gpio.md R153 to R155, R157) -/

theorem pullSeq_cost (p : Params) (pin : BitVec 6) (code : BitVec 2) (u : Update) :
    opsCost (pullSeq p pin code ++ [.finish u]) = 310 := by
  simp [opsCost, pullSeq, MicroOp.cost, Config.settleCycles]

/-- The pull sequence and the stored pull field, for each of the three codes. -/
theorem repull_repulled {s : State} {i : Instr} {slot : BitVec 8} {code : BitVec 2} {c : GpioContext} (hs : s.ready)
    (hl : s.lineOnly) (hc : s.context slot = some c) (hcode : code ≠ 3) :
    Repulled slot code c s (issue i (repull slot code s) s) := by
  rw [repull, onContext_of_context hc]
  obtain ⟨e, hmoves, hedly, hfsel, hout, hpud, hpudclk, hpull, hothers, hruns⟩ :=
    pullSeq_runs (s := s.withSeq (.busy i (.plain 0) (pullSeq s.params c.pin code ++ [.finish (.setPull slot code)])))
      c.pin code rfl hcode hl rfl rfl
  obtain ⟨t, ht, hupd, hdly, hpins⟩ := issue_updatesSlot hs hl (hmoves.ofSeq _) hruns (by rw [pullSeq_cost]; decide) rfl
    fun x hp hslots => updateContext_of_context hc hp hslots
  exact ⟨t, ht, hupd.completed, hdly.trans hedly, hupd.trace, hupd.slots, hupd.uart, hpins.fsel.trans hfsel, hpins.out.trans hout,
    hpins.pud.trans hpud, hpins.pudclk.trans hpudclk, fun p hp => hpins.pull ▸ hpull p hp,
    fun p hp hclk => hpins.pull ▸ hothers p hp hclk, hupd.uartRegs, hupd.line⟩

/-- Settles O21. -/
theorem pullOperationsLatchTheirCode : Obligations.PullOperationsLatchTheirCode := fun _ _ _ hs hl hc =>
  ⟨repull_repulled hs hl hc (by decide), repull_repulled hs hl hc (by decide), repull_repulled hs hl hc (by decide)⟩

/-! ## `GPIO.NEW` (40_gpio.md R150) -/

theorem planOf_gpioNew {s : State} {slot : BitVec 8} {pin : BitVec 6} {mode : BitVec 3} {pull : BitVec 2}
    (hslot : slot.toNat < s.params.nslot) (hpin : pin.toNat ≤ 53) (hpull : pull ≠ 3) :
    planOf s (.gpioNew slot pin mode pull)
      = .ok (fselRmw s.params pin mode ++ pullSeq s.params pin pull ++ [.finish (.newContext slot pin mode pull)]) := by
  rw [planOf, if_neg (Nat.not_le.mpr hslot), if_neg (show ¬ Config.pinMax < pin.toNat from Nat.not_lt.mpr hpin), if_neg hpull]

theorem gpioNew_cost (p : Params) (pin : BitVec 6) (mode : BitVec 3) (pull : BitVec 2) (u : Update) :
    opsCost (fselRmw p pin mode ++ pullSeq p pin pull ++ [.finish u]) = 312 := by
  simp [opsCost, fselRmw, pullSeq, MicroOp.cost, Config.settleCycles]

/-- The two sequences one after the other. -/
theorem construct_runs {s : State} {i : Instr} {w : ReadWord} {rest : List MicroOp} (pin : BitVec 6) (mode : BitVec 3)
    (pull : BitVec 2) (hpin : pin.toNat / 10 < 6) (hpull : pull ≠ 3) (hl : s.lineOnly) (hg : goesOn rest = true) :
    ∃ e, PinMoves 308 s e (fselEvents s.params pin mode s.target.fsel[pin.toNat / 10] ++ pullEvents s.params pin pull) ∧ e.dly = 0 ∧
      e.target.fsel = (s.target.withField pin mode hpin).fsel ∧ e.target.out = s.target.out ∧ e.target.pud = 0 ∧
      e.target.pudclk = s.target.pudclk.set (pin.toNat / 32) 0 (pairIndex_lt pin) ∧
      (∀ p : Fin 54, p.val = pin.toNat → e.target.pull[p] = pull) ∧
      (∀ p : Fin 54, p.val ≠ pin.toNat → pairBit s.target.pudclk p = false → e.target.pull[p] = s.target.pull[p]) ∧
      Runs 308 (s.withSeq (.busy i w (fselRmw s.params pin mode ++ (pullSeq s.params pin pull ++ rest))))
        (e.withSeq (.busy i (.plain s.target.fsel[pin.toNat / 10]) rest)) := by
  obtain ⟨x, hx, -, hxpins, hxruns⟩ := fselRmw_runs
    (s := s.withSeq (.busy i w (fselRmw s.params pin mode ++ (pullSeq s.params pin pull ++ rest)))) pin mode hpin hl rfl rfl
  obtain ⟨e, he, hdly, hfsel, hout, hpud, hpudclk, hcode, hothers, hruns⟩ :=
    pullSeq_runs (s := x.withSeq (.busy i (.plain s.target.fsel[pin.toNat / 10]) (pullSeq s.params pin pull ++ rest)))
      pin pull hx.params hpull (hx.lineOnly hl) rfl hg
  have hxpudclk : x.target.pudclk = s.target.pudclk := hxpins.pudclk
  have hxpull : x.target.pull = s.target.pull := hxpins.pull
  simp only [State.withSeq_target, hxpudclk, hxpull] at hpudclk hothers
  exact ⟨e, (hx.trans (he.ofSeq _)).ofSeq _, hdly, hfsel.trans hxpins.fsel, hout.trans hxpins.out, hpud, hpudclk, hcode, hothers,
    hxruns.trans hruns⟩

/-- Settles O18: both sequences run, and the context update finds a slot below `NSLOT`. -/
theorem gpioNewConstructs : Obligations.GpioNewConstructs := by
  intro slot pin mode pull s hpin hs hl hslot hlen hpull
  have hreg : pin.toNat / 10 < 6 := by omega
  obtain ⟨e, hmoves, hedly, hfsel, hout, hpud, hpudclk, hcode, hothers, hruns⟩ :=
    construct_runs (i := .gpioNew slot pin mode pull) (w := .plain 0) (rest := [.finish (.newContext slot pin mode pull)]) pin mode pull
      hreg hpull hl rfl
  rw [← List.append_assoc] at hruns
  obtain ⟨t, ht, hupd, hdly, hpins⟩ := issue_updatesSlot (slot := slot)
    (c := { valid := true, pin := pin, mode := mode, pull := pull, state := false }) hs hl hmoves hruns
    (by rw [gpioNew_cost]; decide) rfl
    fun x hp hslots => by rw [applyUpdate, if_pos ⟨hp ▸ hslot, by rw [hslots, hlen]; exact hslot⟩]
  have htfsel : t.target.fsel = (s.target.withField pin mode hreg).fsel := hpins.fsel.trans hfsel
  refine ⟨t, ?_, hupd.completed, hdly.trans hedly, ?_, hupd.slots, hupd.uart, hpins.out.trans hout, fun p => ?_, htfsel,
    hpins.pud.trans hpud, hpins.pudclk.trans hpudclk, fun p hp => hpins.pull ▸ hcode p hp,
    fun p hp hclk => hpins.pull ▸ hothers p hp hclk, hupd.uartRegs, hupd.line⟩
  · rw [exec_eq_issue_planOf, planOf_gpioNew hslot hpin hpull, ht]
  · rw [hupd.trace, List.append_assoc]
  · rw [Target.func_congr htfsel, func_withField]

/-- Settles O13: the checks in the order of 60_exceptions.md R218. -/
theorem gpioNewChecksItsOperands : Obligations.GpioNewChecksItsOperands := by
  intro slot pin mode pull s hs
  have raises : ∀ {f}, planOf s (.gpioNew slot pin mode pull) = .error f → exec (.gpioNew slot pin mode pull) s = .next (s.raise f) :=
    fun {f} hf => by rw [exec_eq_issue_planOf, hf, issue_fault _ f s hs]
  refine ⟨fun hslot => raises ?_, fun hslot hpin => raises ?_, fun hslot hpin hpull => raises ?_⟩
  · rw [planOf, if_pos hslot]
  · rw [planOf, if_neg (Nat.not_le.mpr hslot), if_pos (show Config.pinMax < pin.toNat from hpin)]
  · rw [planOf, if_neg (Nat.not_le.mpr hslot), if_neg (show ¬ Config.pinMax < pin.toNat from Nat.not_lt.mpr hpin), if_pos hpull]

end Sys2Proof.Machine
end

section
/-! A constructed transceiver stays configured (41_uart.md R185, R190; 70_reset_and_hazards.md R242), whatever the line does and whenever a
reset comes. A run ends where the operation has answered, a poll has failed or a reset has come; on the way to there the micro-operations
that remain leave the configuration alone or, before there is a transceiver, end with one that is configured. -/

namespace Sys2Proof.Machine

/-! ## The environment's turn, resets included -/

/-- A reset leaves no operation in progress and no transceiver (10_state.md R70). -/
structure Restarted (t : State) : Prop where
  seq : t.seq = .idle
  uart : t.uart.valid = false

/-- The place in the operation, `U` and the mini-UART's configuration are as they were. -/
structure SamePlace (s t : State) : Prop where
  seq : t.seq = s.seq
  dly : t.dly = s.dly
  uart : t.uart = s.uart
  uartRegs : SameUartRegs s.target t.target

theorem LineStep.samePlace {s t : State} (h : LineStep s t) : SamePlace s t := ⟨h.seq, h.dly, h.uart, h.uartRegs⟩

theorem SamePlace.trans {a b c : State} (h : SamePlace a b) (k : SamePlace b c) : SamePlace a c :=
  ⟨k.seq.trans h.seq, k.dly.trans h.dly, k.uart.trans h.uart, h.uartRegs.trans k.uartRegs⟩

theorem SamePlace.restarted {s t : State} (h : SamePlace s t) (hs : Restarted s) : Restarted t :=
  ⟨h.seq.trans hs.seq, (congrArg UartContext.valid h.uart).trans hs.uart⟩

theorem envStep_restarts_or_keeps (s : State) (e : EnvStep) : Restarted (envStep s e) ∨ SamePlace s (envStep s e) := by
  cases e with
  | txDrain => exact .inr (txDrain_line s).samePlace
  | rxArrive b => exact .inr (rxArrive_line b s).samePlace
  | reset launch => exact .inl ⟨rfl, rfl⟩

theorem foldl_envStep_restarts_or_keeps (es : List EnvStep) (s : State) :
    Restarted (es.foldl envStep s) ∨ SamePlace s (es.foldl envStep s) := by
  induction es generalizing s with
  | nil => exact .inr (LineStep.refl s).samePlace
  | cons e es ih =>
    obtain later | later := ih (envStep s e)
    · exact .inl later
    · exact (envStep_restarts_or_keeps s e).imp later.restarted (·.trans later)

theorem envTurn_restarts_or_keeps (s : State) : Restarted (envTurn s) ∨ SamePlace s (envTurn s) := by
  unfold envTurn
  split
  · exact .inr (LineStep.refl s).samePlace
  · rename_i es later _
    exact (foldl_envStep_restarts_or_keeps es (s.withSched later)).imp_right
      fun h => ⟨h.seq, h.dly, h.uart, ⟨h.uartRegs.auxenb, h.uartRegs.lcr, h.uartRegs.cntl, h.uartRegs.baud⟩⟩

/-- `tick_progress` needs no promise about resets: a reset stops the run as well. -/
theorem tick_parks_or_progresses {s t : State} (h : tick s = .next t) : t.parked = true ∨ t.ticksLeft < s.ticksLeft := by
  obtain ⟨hseq, rfl⟩ | ⟨i, w, -, rfl⟩ | ⟨i, w, op, rest, hseq, hperform⟩ := sequencerStep_cases h
  · exact .inl (by rw [State.parked, hseq])
  · exact .inl (idle_parked _)
  · obtain restarted | same := envTurn_restarts_or_keeps s
    · cases restarted.seq.symm.trans hseq
    · have ticks : (envTurn s).ticksLeft = s.ticksLeft := by
        unfold State.ticksLeft
        rw [same.seq, same.dly]
      exact ticks ▸ perform_progress hperform hseq

theorem parked_of_ticksLeft_eq_zero {s : State} (h : s.ticksLeft = 0) : s.parked = true := by
  unfold State.ticksLeft at h
  split at h
  · rename_i hseq
    rw [State.parked, hseq]
  · simp [opsCost] at h
  · simp [opsCost] at h

/-- A run with the ticks it needs stops only where the operation has answered, a poll has failed or a reset has come. -/
theorem runSeq_stops_parked {n : Nat} {s t : State} (hn : s.ticksLeft ≤ n) (h : runSeq n s = .next t) : t.parked = true := by
  induction n generalizing s with
  | zero =>
    cases h
    exact parked_of_ticksLeft_eq_zero (Nat.le_zero.mp hn)
  | succ n ih =>
    rw [runSeq] at h
    split at h
    · rename_i u hu
      split at h
      · rename_i hpark
        cases h
        exact hpark
      · rename_i hpark
        have hlt := (tick_parks_or_progresses hu).resolve_left hpark
        exact ih (by omega) h
    · cases h
    · cases h

/-! ## The mini-UART's configuration -/

/-- What the configuration of the mini-UART is made of (41_uart.md R185). -/
structure UartConf where
  enabled : Bool
  lcr : Word
  baud : Word
  cntl : Word

def Target.uartConf (t : Target) : UartConf := ⟨t.enabled, t.lcr, t.baud, t.cntl⟩

/-- The configuration of a transceiver constructed for this baud rate. -/
def UartConf.forBaud (p : Params) (baud : Word) : UartConf := ⟨true, 0b11, divisorWord p baud, 0b11⟩

theorem configured_iff {s : State} : s.Configured ↔ s.target.uartConf = .forBaud s.params s.uart.baud := by
  rw [Target.uartConf, UartConf.forBaud, UartConf.mk.injEq]
  exact ⟨fun ⟨auxenb, lcr, baud, cntl⟩ => ⟨auxenb, lcr, baud, cntl⟩,
    fun ⟨auxenb, lcr, baud, cntl⟩ => ⟨auxenb, lcr, baud, cntl⟩⟩

theorem SameUartRegs.uartConf {t u : Target} (h : SameUartRegs t u) : u.uartConf = t.uartConf := by
  simp only [Target.uartConf, Target.enabled, h.auxenb, h.lcr, h.baud, h.cntl]

/-- The registers a write stores in only while the mini-UART is enabled (10_state.md R64). -/
def Reg.needsEnable : Reg → Bool
  | .muLcr | .muCntl | .muBaud => true
  | .fsel _ | .set _ | .clr _ | .pud | .pudclk _ | .auxenb | .muIo | .muIir | .muLsr => false

/-- The configuration after a write of `v` to a register. -/
def UartConf.written (r : Reg) (v : Word) (c : UartConf) : UartConf :=
  match r with
  | .auxenb => { c with enabled := v.getLsbD 0 }
  | .muLcr => { c with lcr := v }
  | .muCntl => { c with cntl := v }
  | .muBaud => { c with baud := v }
  | .fsel _ | .set _ | .clr _ | .pud | .pudclk _ | .muIo | .muIir | .muLsr => c

theorem writeReg_uartConf {r : Reg} {v : Word} {s t : State} (h : writeReg r v s = .ok t)
    (he : r.needsEnable = true → s.target.enabled = true) : t.target.uartConf = s.target.uartConf.written r v := by
  cases r with
  | muIir =>
    simp only [writeReg] at h
    split_ifs at h <;> cases h <;> rfl
  | muLsr => cases h
  | muLcr | muCntl | muBaud =>
    cases h
    have stored : muWritten s v = v := by rw [muWritten, if_pos (he rfl)]
    simp only [Target.uartConf, UartConf.written, State.withTarget_target, stored]
    rfl
  | _ =>
    cases h
    rfl

theorem memRead_uartConf {a : Word} {s t : State} {w : ReadWord} (h : memRead a s = .ok (w, t)) :
    t.target.uartConf = s.target.uartConf := by
  obtain ⟨r, -, -, rfl⟩ := memRead_ok h
  rw [readReg_frame]
  rfl

/-- The configuration after a write of `v` at an address. -/
def UartConf.after (p : Params) (a v : Word) (c : UartConf) : UartConf :=
  match regAt p a with
  | some r => c.written r v
  | none => c

/-- A write at this address stores what is written. -/
def UartConf.stores (p : Params) (a : Word) (c : UartConf) : Prop :=
  ∀ r, regAt p a = some r → r.needsEnable = true → c.enabled = true

theorem memWrite_uartConf {a v : Word} {s t : State} (h : memWrite a v s = .ok t) (hc : s.target.uartConf.stores s.params a) :
    t.target.uartConf = s.target.uartConf.after s.params a v := by
  obtain ⟨r, u, hr, hu, rfl⟩ := memWrite_ok h
  rw [UartConf.after, hr, State.logEvent_target]
  exact writeReg_uartConf hu (hc r hr)

/-! ## Addresses that are none of the configuration -/

/-- None of the four registers of the configuration is at this address. -/
def SparesUart (p : Params) (a : Word) : Prop := [Reg.auxenb, .muLcr, .muCntl, .muBaud].all (fun r => a != regAddr p r) = true

theorem SparesUart.reg_ne {p : Params} {a : Word} {r : Reg} (h : SparesUart p a) (hr : regAt p a = some r) :
    r ≠ .auxenb ∧ r ≠ .muLcr ∧ r ≠ .muCntl ∧ r ≠ .muBaud := by
  have ha := regAt_eq_some hr
  simp only [SparesUart, List.all_cons, List.all_nil, Bool.and_true, Bool.and_eq_true, bne_iff_ne] at h
  obtain ⟨haux, hlcr, hcntl, hbaud⟩ := h
  exact ⟨fun e => haux (e ▸ ha.symm), fun e => hlcr (e ▸ ha.symm), fun e => hcntl (e ▸ ha.symm), fun e => hbaud (e ▸ ha.symm)⟩

theorem SparesUart.stores {p : Params} {a : Word} (h : SparesUart p a) (c : UartConf) : c.stores p a := by
  intro r hr hn
  obtain ⟨-, hlcr, hcntl, hbaud⟩ := h.reg_ne hr
  cases r with
  | muLcr => exact absurd rfl hlcr
  | muCntl => exact absurd rfl hcntl
  | muBaud => exact absurd rfl hbaud
  | _ => cases hn

theorem SparesUart.after {p : Params} {a : Word} (h : SparesUart p a) (v : Word) (c : UartConf) : c.after p a v = c := by
  unfold UartConf.after
  split
  · rename_i r hr
    obtain ⟨haux, hlcr, hcntl, hbaud⟩ := h.reg_ne hr
    cases r with
    | auxenb => exact absurd rfl haux
    | muLcr => exact absurd rfl hlcr
    | muCntl => exact absurd rfl hcntl
    | muBaud => exact absurd rfl hbaud
    | _ => rfl
  · rfl

theorem sparesUart_regAddr {p : Params} {r : Reg} (hp : p.wf = true)
    (h : r ∉ [Reg.auxenb, .muLcr, .muCntl, .muBaud]) : SparesUart p (regAddr p r) :=
  List.all_eq_true.mpr fun _ hr => bne_iff_ne.mpr fun e => h (regAddr_injective hp e ▸ hr)

/-! ## Micro-operations that leave the configuration alone -/

section
variable {i : Instr} {w : ReadWord} {rest : List MicroOp} {op : MicroOp} {s t : State}

theorem updateContext_uart {slot : BitVec 8} {f : GpioContext → GpioContext} (h : s.updateContext slot f = .ok t) :
    t.uart = s.uart := by
  unfold State.updateContext at h
  split at h <;> cases h
  rfl

theorem applyUpdate_uart {u : Update} (h : applyUpdate u s = .ok t) (hu : ∀ baud, u ≠ .newUart baud) : t.uart = s.uart := by
  cases u with
  | newContext slot pin mode pull =>
    simp only [applyUpdate] at h
    split at h <;> cases h
    rfl
  | setState | setPull | drop => exact updateContext_uart h
  | newUart baud => exact absurd rfl (hu baud)
  | sent | received =>
    cases h
    rfl

theorem perform_keepsUart (h : perform i w rest op s = .next t) (hop : op.keepsUart s.params = true) :
    t.uart = s.uart ∧ t.target.uartConf = s.target.uartConf := by
  have write : ∀ {a v u}, SparesUart s.params a → memWrite a v s = .ok u →
      u.uart = s.uart ∧ u.target.uartConf = s.target.uartConf := fun {a v u} ha hm =>
    ⟨(memWrite_sameContexts hm).uart, (memWrite_uartConf hm (ha.stores _)).trans (ha.after _ _)⟩
  cases performed_of_perform h with
  | memRead hm | pollSet hm | pollClear hm =>
    have conf := memRead_uartConf hm
    exact ⟨(memRead_sameContexts hm).uart, conf⟩
  | memWrite hm | memModify hm =>
    have kept := write hop hm
    exact kept
  | finish hu =>
    have uart := applyUpdate_uart hu fun baud e => by rw [e] at hop; cases hop
    refine ⟨uart, ?_⟩
    rw [applyUpdate_frame hu]
    rfl
  | _ => exact ⟨rfl, rfl⟩

/-! ## Micro-operations that end with a configured transceiver -/

/-- From this configuration on these micro-operations, none of them a poll, leave the mini-UART configured for a transceiver they
construct. -/
def constructs (p : Params) : List MicroOp → UartConf → Prop
  | [], _ => True
  | .memWrite a v :: rest, c => c.stores p a ∧ constructs p rest (c.after p a v)
  | .memModify a clear bits :: rest, c => c.stores p a ∧ ∀ w, constructs p rest (c.after p a (rmwWord w clear bits))
  | .finish u :: _, c => ∀ baud, u = .newUart baud → c = .forBaud p baud
  | .memRead _ :: rest, c => constructs p rest c
  | .delay _ :: rest, c => constructs p rest c
  | .wait _ :: rest, c => constructs p rest c
  | .poll _ :: _, _ => False
  | .nop :: _, _ => False

/-- What remains of an operation keeps the configuration of the transceiver that is there, or leaves one configured that it constructs. -/
def UartSafe (s : State) (rest : List MicroOp) : Prop :=
  s.uart.valid = true ∧ (∀ op ∈ rest, op.keepsUart s.params = true) ∨
    s.uart.valid = false ∧ constructs s.params rest s.target.uartConf

/-- `State.UartKept` in the middle of a run, where a transceiver may be under construction. -/
structure UartRuns (s : State) : Prop where
  params : s.params.wf = true
  configured : s.uart.valid = true → s.Configured
  rest : ∀ i w rest, s.seq = .busy i w rest → UartSafe s rest

theorem State.UartKept.runs (h : s.UartKept) : UartRuns s := ⟨h.params, h.configured, fun i w rest hs => .inl (h.rest i w rest hs)⟩

/-- Where a run stops no transceiver is under construction. -/
theorem UartRuns.kept (h : UartRuns s) (hp : s.parked = true) : s.UartKept := by
  refine ⟨h.params, h.configured, fun i w rest hs => (h.rest i w rest hs).resolve_right fun ⟨_, hc⟩ => ?_⟩
  unfold State.parked at hp
  rw [hs] at hp
  split at hp
  · contradiction
  · rename_i hnop
    cases hnop
    exact hc
  · cases hp

theorem Restarted.uartRuns (h : Restarted s) (hp : s.params.wf = true) : UartRuns s :=
  ⟨hp, fun hv => absurd (h.uart.symm.trans hv) Bool.false_ne_true, fun _ _ _ hs => by cases h.seq.symm.trans hs⟩

theorem State.Configured.congr (h : s.Configured) (hp : t.params = s.params) (hu : t.uart = s.uart)
    (hc : t.target.uartConf = s.target.uartConf) : t.Configured := by
  rw [configured_iff] at h ⊢
  rw [hp, hu, hc, h]

theorem envTurn_uartRuns (h : UartRuns s) : UartRuns (envTurn s) := by
  have hp := envTurn_params s
  obtain restarted | same := envTurn_restarts_or_keeps s
  · exact restarted.uartRuns (hp ▸ h.params)
  · have hc := same.uartRegs.uartConf
    refine ⟨hp ▸ h.params, fun hv => (h.configured (same.uart ▸ hv)).congr hp same.uart hc, fun i w rest hs => ?_⟩
    rw [UartSafe, hp, same.uart, hc]
    exact h.rest i w rest (same.seq ▸ hs)

/-- One micro-operation of a construction: the construction goes on, or it has ended with a configured transceiver. -/
theorem perform_constructs (h : perform i w rest op s = .next t) (hc : constructs s.params (op :: rest) s.target.uartConf)
    (hv : s.uart.valid = false) :
    (t.seq = .idle ∧ (t.uart.valid = true → t.Configured)) ∨
      t.uart.valid = false ∧ ∃ w' rest', t.seq = .busy i w' rest' ∧ constructs s.params rest' t.target.uartConf := by
  cases performed_of_perform h with
  | memRead hm =>
    refine .inr ⟨(memRead_sameContexts hm).uart ▸ hv, _, _, rfl, ?_⟩
    rw [State.withSeq_target, memRead_uartConf hm]
    exact hc
  | memWrite hm =>
    refine .inr ⟨(memWrite_sameContexts hm).uart ▸ hv, _, _, rfl, ?_⟩
    rw [State.withSeq_target, memWrite_uartConf hm hc.1]
    exact hc.2
  | memModify hm =>
    refine .inr ⟨(memWrite_sameContexts hm).uart ▸ hv, _, _, rfl, ?_⟩
    rw [State.withSeq_target, memWrite_uartConf hm hc.1]
    exact hc.2 _
  | delay | waitOver _ | waitOn _ => exact .inr ⟨hv, _, _, rfl, hc⟩
  | pollSet _ _ | pollClear _ _ | nop => exact hc.elim
  | @finish u e hu =>
    refine .inl ⟨rfl, fun hvalid => ?_⟩
    by_cases hnew : ∃ baud, u = .newUart baud
    · obtain ⟨baud, rfl⟩ := hnew
      cases hu
      exact configured_iff.mpr (hc baud rfl)
    · have huart := applyUpdate_uart hu fun baud e => hnew ⟨baud, e⟩
      rw [State.withSeq_uart, State.respond_uart, huart, hv] at hvalid
      cases hvalid

theorem perform_uartRuns (h : perform i w rest op s = .next t) (hs : s.seq = .busy i w (op :: rest)) (hi : UartRuns s) : UartRuns t := by
  have hp := (perform_untouched h).params
  obtain ⟨hv, hall⟩ | ⟨hv, hc⟩ := hi.rest i w _ hs
  · obtain ⟨hu, hconf⟩ := perform_keepsUart h (hall op List.mem_cons_self)
    refine ⟨hp ▸ hi.params, fun _ => (hi.configured hv).congr hp hu hconf, fun i' w' rest' hbusy => ?_⟩
    obtain hidle | ⟨w'', rest'', hseq, hrest⟩ :=
      perform_remaining (K := fun o => o.keepsUart s.params = true) h rfl (fun _ => rfl) hall
    · cases hidle.symm.trans hbusy
    · cases hseq.symm.trans hbusy
      exact .inl ⟨hu ▸ hv, hp ▸ hrest⟩
  · obtain ⟨hidle, hconf⟩ | ⟨hv', w', rest', hseq, hc'⟩ := perform_constructs h hc hv
    · exact ⟨hp ▸ hi.params, hconf, fun _ _ _ hbusy => by cases hidle.symm.trans hbusy⟩
    · refine ⟨hp ▸ hi.params, fun hvalid => ?_, fun _ _ _ hbusy => ?_⟩
      · cases hv'.symm.trans hvalid
      · cases hseq.symm.trans hbusy
        exact .inr ⟨hv', hp ▸ hc'⟩

theorem tick_uartRuns (hi : UartRuns s) (h : tick s = .next t) : UartRuns t := by
  have he := envTurn_uartRuns hi
  obtain ⟨-, rfl⟩ | ⟨i, w, -, rfl⟩ | ⟨i, w, op, rest, hs, hperform⟩ := sequencerStep_cases h
  · exact he
  · exact ⟨he.params, fun hv => (he.configured hv).congr rfl rfl rfl, fun _ _ _ hbusy => by cases hbusy⟩
  · exact perform_uartRuns hperform hs he

/-- A run with the ticks it needs. -/
theorem runSeq_uartKept {n : Nat} (hi : UartRuns s) (hn : s.ticksLeft ≤ n) (h : runSeq n s = .next t) : t.UartKept :=
  (runSeq_keeps (fun _ _ => tick_uartRuns) hi h).kept (runSeq_stops_parked hn h)

/-! ## What the operations plan -/

/-- A micro-operation before the last that is no poll and leaves the configuration alone. -/
def MicroOp.sparesUart (p : Params) : MicroOp → Prop
  | .memWrite a _ => SparesUart p a
  | .memModify a _ _ => SparesUart p a
  | .memRead _ | .delay _ | .wait _ => True
  | .poll _ | .nop | .finish _ => False

theorem MicroOp.sparesUart.keepsUart {p : Params} (h : op.sparesUart p) : op.keepsUart p = true := by
  cases op with
  | memWrite | memModify => exact h
  | memRead | delay | wait => rfl
  | poll | nop | finish => exact h.elim

theorem constructs_append {p : Params} {ops : List MicroOp} {c : UartConf} (h : ∀ op ∈ ops, op.sparesUart p)
    (hrest : constructs p rest c) : constructs p (ops ++ rest) c := by
  induction ops with
  | nil => exact hrest
  | cons op ops ih =>
    have hop := h op List.mem_cons_self
    have ih := ih fun o ho => h o (List.mem_cons_of_mem _ ho)
    cases op with
    | memWrite a v => exact ⟨hop.stores c, (hop.after v c).symm ▸ ih⟩
    | memModify a clear bits => exact ⟨hop.stores c, fun w => (hop.after _ c).symm ▸ ih⟩
    | memRead | delay | wait => exact ih
    | poll | nop | finish => exact hop.elim

theorem fselRmw_sparesUart {p : Params} (hp : p.wf = true) {pin : BitVec 6} (code : BitVec 3) (hpin : pin.toNat ≤ 53) :
    ∀ op ∈ fselRmw p pin code, op.sparesUart p := by
  simp [fselRmw, fselAddr_eq p pin (by omega), MicroOp.sparesUart, sparesUart_regAddr hp]

theorem pullSeq_sparesUart {p : Params} (hp : p.wf = true) (pin : BitVec 6) (code : BitVec 2) :
    ∀ op ∈ pullSeq p pin code, op.sparesUart p := by
  simp [pullSeq, pudAddr_eq, pudclkAddr_eq, MicroOp.sparesUart, sparesUart_regAddr hp]

theorem uartPinSetup_sparesUart {p : Params} (hp : p.wf = true) {pin : BitVec 6} (hpin : pin.toNat ≤ 53) :
    ∀ op ∈ uartPinSetup p pin, op.sparesUart p :=
  List.forall_mem_append.mpr ⟨fselRmw_sparesUart hp _ hpin, pullSeq_sparesUart hp _ _⟩

theorem finish_keepsUart {u : Update} (p : Params) (hu : ∀ baud, u ≠ .newUart baud) : (MicroOp.finish u).keepsUart p = true := by
  cases u with
  | newUart baud => exact absurd rfl (hu baud)
  | _ => rfl

/-- An operation of the pins: it is safe with and without a transceiver. -/
theorem uartSafe_of_sparesUart {ops : List MicroOp} {u : Update} (h : ∀ op ∈ ops, op.sparesUart s.params)
    (hu : ∀ baud, u ≠ .newUart baud) : UartSafe s (ops ++ [.finish u]) := by
  cases hv : s.uart.valid with
  | true =>
    exact .inl ⟨hv, List.forall_mem_append.mpr ⟨fun op hop => (h op hop).keepsUart, by simp [finish_keepsUart _ hu]⟩⟩
  | false => exact .inr ⟨hv, constructs_append h fun baud e => absurd e (hu baud)⟩

/-- `UART.NEW` (41_uart.md R185): `AUXENB[0]` first, so that the other registers store what is written, and `MU_CNTL` last. -/
theorem uartNew_constructs {p : Params} (hp : p.wf = true) (baud : Word) (c : UartConf) :
    constructs p (uartSetup p (divisorWord p baud) ++ (uartPinSetup p p.txPin ++ (uartPinSetup p p.rxPin ++
      (uartStart p ++ [.finish (.newUart baud)])))) c := by
  obtain ⟨htx, hrx⟩ := pins_le_of_wf hp
  have enable : ∀ w, (rmwWord w 0 1).getLsbD 0 = true := fun w => by simp [rmwWord]
  have start : constructs p (uartStart p ++ [.finish (.newUart baud)]) ⟨true, 3, divisorWord p baud, 0⟩ := by
    simp [uartStart, constructs, UartConf.stores, UartConf.after, UartConf.written, regAt_regAddr_of_wf hp, UartConf.forBaud]
  have pins := constructs_append (uartPinSetup_sparesUart hp htx) (constructs_append (uartPinSetup_sparesUart hp hrx) start)
  simp only [uartSetup, List.cons_append, List.nil_append, constructs, UartConf.stores, UartConf.after, UartConf.written,
    regAt_regAddr_of_wf hp, enable, Option.some.injEq, Reg.needsEnable]
  simpa using pins

theorem sendByte_keepsUart {p : Params} (hp : p.wf = true) (b : Byte) : ∀ op ∈ sendByte p b, op.keepsUart p = true := by
  have hio : SparesUart p (regAddr p .muIo) := sparesUart_regAddr hp (by simp)
  exact List.forall_mem_cons.mpr ⟨rfl, List.forall_mem_cons.mpr ⟨hio, by simp⟩⟩

theorem onUart_valid {ops ops' : List MicroOp} (h : onUart ops s = .ok ops') : s.uart.valid = true := by
  unfold onUart at h
  split at h
  · assumption
  · cases h

theorem plan_uartSafe {ops : List MicroOp} (hp : s.params.wf = true) (h : planOf s i = .ok ops) : UartSafe s ops := by
  cases planOf_ok h with
  | gpioNew hslot hpin hpull =>
    exact uartSafe_of_sparesUart (List.forall_mem_append.mpr ⟨fselRmw_sparesUart hp _ hpin, pullSeq_sparesUart hp _ _⟩) (by simp)
  | gpioOn =>
    exact uartSafe_of_sparesUart (ops := [_]) (by simp [MicroOp.sparesUart, setAddr_eq, sparesUart_regAddr hp]) (by simp)
  | gpioOff =>
    exact uartSafe_of_sparesUart (ops := [_]) (by simp [MicroOp.sparesUart, clrAddr_eq, sparesUart_regAddr hp]) (by simp)
  | repull => exact uartSafe_of_sparesUart (pullSeq_sparesUart hp _ _) (by simp)
  | gpioDrop => exact uartSafe_of_sparesUart (ops := []) (by simp) (by simp)
  | uartNew =>
    have hv : s.uart.valid = false := Bool.eq_false_iff.mpr fun hv => by simp [planOf, hv] at h
    exact .inr ⟨hv, by simpa only [List.append_assoc] using uartNew_constructs hp _ _⟩
  | uartSendc => exact .inl ⟨onUart_valid h, List.forall_mem_append.mpr ⟨sendByte_keepsUart hp _, by simp [MicroOp.keepsUart]⟩⟩
  | uartReadc => exact .inl ⟨onUart_valid h, by simp [MicroOp.keepsUart]⟩
  | uartSendStr =>
    refine .inl ⟨onUart_valid h, List.forall_mem_append.mpr ⟨fun op hop => ?_, by simp [MicroOp.keepsUart]⟩⟩
    obtain ⟨b, -, hb⟩ := List.mem_flatMap.mp hop
    exact sendByte_keepsUart hp b op hb

theorem exec_uartKept (hi : s.UartKept) (h : exec i s = .next t) : t.UartKept := by
  rw [exec_eq_issue_planOf] at h
  obtain rfl | ⟨f, -, rfl⟩ | ⟨ops, hplan, hrun⟩ := issue_cases h
  · exact hi
  · exact ⟨hi.params, fun hv => (hi.configured hv).congr rfl rfl rfl, fun _ _ _ hs => by cases hs⟩
  · have start : UartRuns (s.withSeq (.busy i (.plain 0) ops)) :=
      ⟨hi.params, fun hv => (hi.configured hv).congr rfl rfl rfl, fun _ _ _ hs => by
        cases hs
        exact plan_uartSafe hi.params hplan⟩
    exact runSeq_uartKept start (ticksLeft_le_opsCost rfl) hrun

theorem withCmdPort_uartKept (ws : List Word) (hi : s.UartKept) : (s.withCmdPort ws).UartKept :=
  ⟨hi.params, fun hv => (hi.configured hv).congr rfl rfl rfl, hi.rest⟩

end

theorem ticksLeft_le_fuel (s : State) : s.ticksLeft ≤ s.fuel := by
  cases hs : s.seq with
  | idle => simp [State.ticksLeft, hs]
  | busy i w rest => simpa [State.fuel, hs] using ticksLeft_le_opsCost hs

/-- A turn of the environment outside a run: a reset leaves no operation, and the line leaves the one there is. -/
theorem envTurn_uartKept {s : State} (hi : s.UartKept) : (envTurn s).UartKept := by
  obtain restarted | same := envTurn_restarts_or_keeps s
  · exact ⟨envTurn_params s ▸ hi.params, (envTurn_uartRuns hi.runs).configured,
      fun _ _ _ hs => by cases restarted.seq.symm.trans hs⟩
  · refine ⟨envTurn_params s ▸ hi.params, (envTurn_uartRuns hi.runs).configured, fun i w rest hs => ?_⟩
    rw [envTurn_params, same.uart]
    exact hi.rest i w rest (same.seq ▸ hs)

/-- Settles O55. -/
theorem everyStepKeepsTheUartConfigured : Obligations.EveryStepKeepsTheUartConfigured := by
  intro s t hi h
  obtain rfl | hrun | ⟨i, rest, -, hexec⟩ | ⟨w, rest, -, rfl⟩ := step_cases h
  · exact envTurn_uartKept hi
  · exact runSeq_uartKept hi.runs (ticksLeft_le_fuel s) hrun
  · exact exec_uartKept (withCmdPort_uartKept rest hi) hexec
  · exact ⟨hi.params, fun hv => (hi.configured hv).congr rfl rfl rfl, fun _ _ _ hs => by cases hs⟩

end Sys2Proof.Machine
end

section
/-! The four UART operations (41_uart.md R180 to R191) for every behaviour of the serial line: what a send and a receive do from the
state that takes the command. -/

namespace Sys2Proof.Machine

/-! ## The divisor (41_uart.md R180) -/

theorem badBaud_eq_false {clock baud : Nat} : badBaud clock baud = false ↔ 0 < baud ∧ 8 * baud ≤ clock := by
  simp only [badBaud, Bool.or_eq_false_iff, beq_eq_false_iff_ne, decide_eq_false_iff_not, Nat.not_lt, Nat.pos_iff_ne_zero]

theorem computeDivisor_add_one {clock baud : Nat} (h : badBaud clock baud = false) :
    computeDivisor clock baud + 1 = clock / (8 * baud) := by
  obtain ⟨hpos, hle⟩ := badBaud_eq_false.mp h
  have : 0 < clock / (8 * baud) := Nat.div_pos hle (by omega)
  rw [computeDivisor, Nat.sub_add_cancel this]

theorem computeDivisor_lt {clock baud : Nat} (h : badBaud clock baud = false) (hc : clock < 2 ^ 32) :
    computeDivisor clock baud < 2 ^ 29 := by
  obtain ⟨hpos, -⟩ := badBaud_eq_false.mp h
  have : clock / (8 * baud) ≤ clock / 8 := Nat.div_le_div_left (by omega) (by decide)
  have := computeDivisor_add_one h
  omega

theorem clockHz_lt_of_wf {p : Params} (hp : p.wf = true) : p.clockHz < 2 ^ 32 := by
  simp only [Params.wf, Params.clockWf, Bool.and_eq_true, decide_eq_true_eq] at hp
  obtain ⟨-, -, hlt⟩ := hp
  exact hlt

/-- Settles O24. -/
theorem divisorIsTheFloor : Obligations.DivisorIsTheFloor := by
  refine ⟨fun clock baud h => ?_, fun p baud hp h => ?_, by decide⟩
  · obtain ⟨hpos, -⟩ := badBaud_eq_false.mp h
    have floor := computeDivisor_add_one h
    rw [show computeDivisor clock baud + 2 = computeDivisor clock baud + 1 + 1 from rfl, floor]
    exact ⟨Nat.mul_div_le clock _, Nat.lt_mul_div_succ clock (by omega)⟩
  · have hlt := computeDivisor_lt h (clockHz_lt_of_wf hp)
    have hword : (divisorWord p baud).toNat = computeDivisor p.clockHz baud.toNat := by
      rw [divisorWord, BitVec.toNat_ofNat, Nat.mod_eq_of_lt (by omega)]
    exact ⟨hword, hword ▸ hlt⟩

/-! ## An operation that sends -/

section
variable {s t u x : State} {i : Instr} {w : ReadWord} {rest : List MicroOp} {n : Nat} {bytes text : List Byte} {b : Byte}
  {events : List Event}

/-- An operation has completed: it sent these bytes with these events, in `n` turns of the line, and did nothing else. -/
structure Sent (n : Nat) (bytes : List Byte) (events : List Event) (s t : State) : Prop where
  completed : Completed s t .done
  dly : t.dly = s.dly
  trace : t.trace = s.trace ++ events
  line : Sends n bytes s t
  slots : t.slots = s.slots
  uart : t.uart = s.uart
  pins : SamePins s.target t.target
  uartRegs : SameUartRegs s.target t.target

/-- The state after the response to what was sent. -/
def State.answered (x : State) : State := (x.respond .done).withSeq .idle

theorem SendMoves.sent (h : SendMoves n bytes s x events) (hrun : s.run = true) : Sent n bytes events s x.answered where
  completed := ⟨h.run.trans hrun, rfl, h.fault, congrArg (· ++ [Response.done]) h.responses, h.params, h.cmdPort, h.badCommand⟩
  dly := h.dly
  trace := h.trace
  line := ⟨h.line.sched, h.line.sent, h.line.least, h.line.most, h.line.rxf⟩
  slots := h.slots
  uart := h.uart
  pins := h.pins
  uartRegs := h.uartRegs

theorem SendMoves.refl (s : State) : SendMoves 0 [] s s [] :=
  ⟨rfl, rfl, rfl, rfl, rfl, rfl, (List.append_nil _).symm, rfl, rfl, rfl, .refl _, .refl _, (OnlyLine.refl s).sends, id⟩

/-- Turns of the line and then a send. -/
theorem TurnOf.andSends {m : Nat} (h : TurnOf n s t) (k : SendMoves m bytes t u events) : SendMoves (n + m) bytes s u events :=
  h.sendMoves.trans k

/-- The last micro-operation of an operation that sends. -/
theorem finish_sent_ends (hl : u.lineOnly) :
    ∃ x, SendMoves 1 [] u x [] ∧ Ends 1 (u.withSeq (.busy i w [.finish .sent])) x.answered := by
  obtain ⟨x, hx, hends⟩ := finish_ends (s := u.withSeq (.busy i w [.finish .sent])) (u := .sent) hl rfl id fun _ _ => rfl
  exact ⟨x, hx.sendMoves.ofSeq _, hends⟩

/-- A send and the response after it. -/
theorem Runs.answers {k : Nat} (h : Runs k s (u.withSeq (.busy i w [.finish .sent]))) (m : SendMoves n bytes t u events)
    (hl : t.lineOnly) : ∃ x, SendMoves (n + 1) bytes t x events ∧ Ends (k + 1) s x.answered := by
  obtain ⟨x, hx, hends⟩ := finish_sent_ends (i := i) (w := w) (m.lineOnly hl)
  exact ⟨x, by simpa using m.trans hx, h.ends hends⟩

/-- One byte and the response, counted from the turn of the poll, which finds the transmitter ready (41_uart.md R187). -/
theorem sendByte_ends (hl : s.lineOnly) (hw : s.params.wf = true) (he : s.target.enabled = true)
    (hs : s.seq = .busy i w (sendByte s.params b ++ [.finish .sent])) (hr : txReady s.params (envTurn s).target = true) :
    ∃ x v, SendMoves 2 [b] (envTurn s) x [.rd (regAddr s.params .muLsr) v, .wr (regAddr s.params .muIo) (zext32 b)] ∧
      v.getLsbD 5 = true ∧ Ends 3 s x.answered := by
  obtain ⟨u, v, r, m, hv, -, hruns⟩ := sendByte_runs rfl hl hw he hs rfl hr
  obtain ⟨x, hx, hends⟩ := hruns.answers m ((envTurn_line s hl).lineOnly hl)
  exact ⟨x, v, hx, hv, hends⟩

/-- A text and the response, counted from the turn of the first poll, from which on there is room for all of it (41_uart.md R189). -/
theorem sendText_ends (hl : s.lineOnly) (hw : s.params.wf = true) (hn : s.params.txStatus = .notFull) (he : s.target.enabled = true)
    (ht : text ≠ []) (hs : s.seq = .busy i w (sendOps s.params text))
    (hr : (envTurn s).target.txf.length + text.length ≤ s.params.fifoDepth) :
    ∃ (x : State) (polls : List Word), SendMoves (2 * text.length) text (envTurn s) x (sendEvents s.params polls text) ∧
      polls.length = text.length ∧ (∀ v ∈ polls, BitVec.getLsbD v 5 = true) ∧ Ends (2 * text.length + 1) s x.answered := by
  obtain ⟨u, polls, r, m, hlen, hv, hruns⟩ := sendText_runs text rfl hl hw hn he ht hs rfl hr
  obtain ⟨x, hx, hends⟩ := hruns.answers m ((envTurn_line s hl).lineOnly hl)
  have : 0 < text.length := List.length_pos_iff.mpr ht
  exact ⟨x, polls, by rwa [show 2 * text.length - 1 + 1 = 2 * text.length by omega] at hx, hlen, hv, hends⟩

/-! ## Taking the command -/

/-- A ready machine with a transceiver takes an operation of the UART. -/
theorem exec_onUart {ops : List MicroOp} (hs : s.ready) (hu : s.uart.valid = true) (hplan : planOf s i = onUart ops s) :
    ∃ q, q = .busy i (.plain 0) ops ∧ exec i s = runSeq (opsCost ops) (s.withSeq q) :=
  ⟨_, rfl, by rw [exec_eq_issue_planOf, hplan, onUart, if_pos hu, issue_runs i ops s hs]⟩

/-- The line only makes room. -/
theorem txReady_envTurn (hl : s.lineOnly) (hr : txReady s.params s.target = true) : txReady s.params (envTurn s).target = true :=
  (envTurn_line s hl).params ▸ txReady_of_turn (envTurn_turnOf s hl) hr

theorem step_of_busy (hrun : s.run = true) (hs : s.seq = .busy i w rest) : step s = runSeq (opsCost rest) s := by
  simp only [step, hrun, hs, resume, State.fuel]

end

/-! ## The send operations (41_uart.md R187, R189) -/

/-- Settles O29: the response is the only micro-operation. -/
theorem sendStrOfNothing : Obligations.SendStrOfNothing := by
  intro s hs hl hu
  obtain ⟨q, hq, hexec⟩ := exec_onUart (i := .uartSendStr []) (ops := [.finish .sent]) hs hu rfl
  obtain ⟨x, hx, hdly, hpins, hends⟩ := finish_moves (s := s.withSeq q) hl hq ((PinMoves.refl s).withSeq q) id fun _ _ => rfl
  refine ⟨x.answered, hexec.trans (hends _ (by decide)), ?_, hdly, ?_, hx.slots, hx.uart, hpins, hx.uartRegs, ?_⟩
  · exact ⟨hx.run.trans hs.1, rfl, hx.fault, congrArg (· ++ [Response.done]) hx.responses, hx.params, hx.cmdPort, hx.badCommand⟩
  · exact hx.trace.trans (List.append_nil _)
  · exact ⟨hx.line.sched, ⟨hx.line.tx.lineTx, hx.line.tx.txf⟩, hx.line.rxf⟩

/-- Settles O26: the line only makes room, so the poll's own turn finds the transmitter ready. -/
theorem sendcSendsOneByte : Obligations.SendcSendsOneByte := by
  intro byte s hs hl hw hu he hr
  obtain ⟨q, hq, hexec⟩ := exec_onUart (i := .uartSendc byte) (ops := sendByte s.params byte ++ [.finish .sent]) hs hu rfl
  obtain ⟨x, v, m, hv, hends⟩ := sendByte_ends (s := s.withSeq q) hl hw he hq (txReady_envTurn hl hr)
  have sent := (((envTurn_turnOf (s.withSeq q) hl).andSends m).ofSeq q).sent hs.1
  exact ⟨x.answered, v, hexec.trans (hends _ (by simp [sendByte, opsCost, MicroOp.cost])), sent.completed, sent.dly, hv, sent.trace,
    sent.line, sent.slots, sent.uart, sent.pins, sent.uartRegs⟩

/-- `UART.SEND_STR` from its first turn on, with room for the whole text (41_uart.md R189). -/
theorem sendStr_ends {s : State} {q : Seq} {i : Instr} {w : ReadWord} {text : List Byte} (hl : s.lineOnly) (hw : s.params.wf = true)
    (hn : s.params.txStatus = .notFull) (he : s.target.enabled = true)
    (hr : s.target.txf.length + text.length ≤ s.params.fifoDepth) (hq : q = .busy i w (sendOps s.params text)) :
    ∃ (x : State) (polls : List Word), SendMoves (2 * text.length + 1) text s x (sendEvents s.params polls text) ∧
      polls.length = text.length ∧ (∀ v ∈ polls, BitVec.getLsbD v 5 = true) ∧
      Ends (2 * text.length + 1) (s.withSeq q) x.answered := by
  by_cases ht : text = []
  · subst ht hq
    obtain ⟨x, hx, hends⟩ := finish_sent_ends (i := i) (w := w) hl
    exact ⟨x, [], hx, rfl, by simp, hends⟩
  · have turn := envTurn_turnOf (s.withSeq q) hl
    have room : (envTurn (s.withSeq q)).target.txf.length + text.length ≤ s.params.fifoDepth :=
      Nat.le_trans (Nat.add_le_add_right turn.line.shrink _) hr
    obtain ⟨x, polls, m, hlen, hv, hends⟩ := sendText_ends (s := s.withSeq q) hl hw hn he ht hq room
    exact ⟨x, polls, by rw [Nat.add_comm]; exact (turn.andSends m).ofSeq q, hlen, hv, hends⟩

/-- Settles O28. -/
theorem sendStrSendsTheWholeText : Obligations.SendStrSendsTheWholeText := by
  intro text s hs hl hw hn hu he hr
  obtain ⟨q, hq, hexec⟩ := exec_onUart (i := .uartSendStr text) (ops := sendOps s.params text) hs hu rfl
  obtain ⟨x, polls, m, hlen, hv, hends⟩ := sendStr_ends hl hw hn he hr hq
  have sent := m.sent hs.1
  exact ⟨x.answered, polls, hexec.trans (hends _ (by rw [opsCost_sendOps]; omega)), sent.completed, sent.dly, hlen, hv, sent.trace,
    sent.line, sent.slots, sent.uart, sent.pins, sent.uartRegs⟩

/-! ## The receive operation (41_uart.md R188) -/

section
variable {s t e : State} {i : Instr} {w : ReadWord} {b : Byte} {later : List Byte} {events : List Event}

/-- A receive has completed with this byte and these events, and left all but the queues alone. -/
structure Received (b : Byte) (events : List Event) (s t : State) : Prop where
  completed : Completed s t (.value (zext32 b))
  dly : t.dly = s.dly
  trace : t.trace = s.trace ++ events
  slots : t.slots = s.slots
  uart : t.uart = s.uart
  pins : SamePins s.target t.target
  uartRegs : SameUartRegs s.target t.target

theorem Received.ofSeq {q : Seq} (h : Received b events (s.withSeq q) t) : Received b events s t :=
  ⟨⟨h.completed.run, h.completed.seq, h.completed.fault, h.completed.responses, h.completed.params, h.completed.cmdPort,
    h.completed.badCommand⟩, h.dly, h.trace, h.slots, h.uart, h.pins, h.uartRegs⟩

/-- The line went on before the receive. -/
theorem LineStep.andReceives (h : LineStep s e) (k : Received b events e t) : Received b events s t where
  completed := ⟨k.completed.run, k.completed.seq, k.completed.fault.trans h.fault, by rw [k.completed.responses, h.responses],
    k.completed.params.trans h.params, k.completed.cmdPort.trans h.cmdPort, k.completed.badCommand.trans h.badCommand⟩
  dly := k.dly.trans h.dly
  trace := by rw [k.trace, h.trace]
  slots := k.slots.trans h.slots
  uart := k.uart.trans h.uart
  pins := h.pins.trans k.pins
  uartRegs := h.uartRegs.trans k.uartRegs

/-- Turns of the line before a stretch in which only the line touches `TXF`. -/
theorem TurnOf.andDrains {n m : Nat} (h : TurnOf n s e) (k : Drained (e.drained m) e t) : Drained (s.drained (n + m)) s t := by
  rw [drained_congr h.line.uartRegs n m h.only.sched]
  exact h.only.tx.trans k

/-- What a receive does, `readc_runs` in its parts. -/
theorem readc_ends (hl : s.lineOnly) (hrun : s.run = true) (he : s.target.enabled = true)
    (hs : s.seq = .busy i w [.poll .rxReady, .memRead (regAddr s.params .muIo), .finish .received])
    (hx : (envTurn s).target.rxf = b :: later) (hd : 2 ≤ s.params.fifoDepth ∨ (envTurn s).sched = []) :
    ∃ (t : State) (v v' : Word), Ends 3 s t ∧ v.getLsbD 0 = true ∧ v'.extractLsb' 0 8 = b ∧
      Received b [.rd (regAddr s.params .muLsr) v, .rd (regAddr s.params .muIo) v'] s t ∧ t.sched = (envTurn s).sched.drop 2 ∧
      Drained ((envTurn s).drained 2) (envTurn s) t ∧
      ∀ bs q, Hears s.params.fifoDepth bs (b :: q) (envTurn s).target.rxf →
        Hears (s.params.fifoDepth - 1) (bs ++ (envTurn s).heard 2) q t.target.rxf := by
  obtain ⟨t, v, v', hends, hv, hv', seq, params, slots, uart, run, fault, dly, trace, cmdPort, responses, badCommand, pins, uartRegs,
    sched, tx, rxf⟩ := readc_runs rfl hl he hs hx hd
  exact ⟨t, v, v', hends, hv, hv', ⟨⟨run.trans hrun, seq, fault, responses, params, cmdPort, badCommand⟩, dly, trace, slots, uart,
    pins, uartRegs⟩, sched, tx, rxf⟩

end

/-- Settles O27: no arrival in the poll's own turn can push the head out. -/
theorem readcReturnsTheOldestByte : Obligations.ReadcReturnsTheOldestByte := by
  intro b later s hs hl hw hu he hx hd
  obtain ⟨q, hq, hexec⟩ := exec_onUart (i := .uartReadc)
    (ops := [.poll .rxReady, .memRead (regAddr s.params .muIo), .finish .received]) hs hu rfl
  have turn := envTurn_turnOf (s.withSeq q) hl
  obtain ⟨_, hhead⟩ := head_of_turn turn hx hd
  obtain ⟨t, v, v', hends, hv, hv', recv, hsched, htx, hrxf⟩ :=
    readc_ends (s := s.withSeq q) hl hs.1 he hq hhead (hd.imp_right fun hquiet => (turn.quiet hquiet).2.2)
  have recv := recv.ofSeq
  have tx := turn.andDrains htx
  have rxf := hrxf _ later (hx ▸ turn.only.rxf)
  rw [← heard_congr turn.line.uartRegs 1 2 turn.only.sched] at rxf
  have sched : t.sched = s.sched.drop 3 := by rw [hsched, turn.only.sched, List.drop_drop, State.withSeq_sched]
  exact ⟨t, v, v', hexec.trans (hends _ (by simp [opsCost, MicroOp.cost])), recv.completed, recv.dly, hv, hv', recv.trace, sched,
    ⟨tx.lineTx, tx.txf⟩, rxf, recv.slots, recv.uart, recv.pins, recv.uartRegs⟩

end Sys2Proof.Machine
end

section
/-! Operations that wait (41_uart.md R182, R184, R189; 60_exceptions.md R222): a poll that found its bit clear is repeated after a `Nop`, and
from there on the operation goes on as it does from its command. -/

namespace Sys2Proof.Machine

/-! ## From the `Nop` to the poll -/

section
variable {s s' t : State} {i : Instr} {w : ReadWord} {rest : List MicroOp}

/-- A waiting operation has done its `Nop` and is about to poll: `s'` polls in the turn that comes next, with two turns gone by since the
poll that failed (41_uart.md R182). -/
structure PollsAgain (i : Instr) (w : ReadWord) (rest : List MicroOp) (s s' : State) : Prop where
  runs : Runs 1 s s'
  seq : s'.seq = .busy i w rest
  line : LineStep (s.withSeq (.busy i w rest)) s'
  turn : TurnOf 2 s (envTurn (envTurn s))
  polls : envTurn s' = (envTurn (envTurn s)).withSeq (.busy i w rest)

theorem nop_pollsAgain (hl : s.lineOnly) (hs : s.seq = .busy i w (.nop :: rest)) (hg : goesOn rest = true) :
    ∃ s', PollsAgain i w rest s s' := by
  have line := envTurn_line s hl
  have hl' := line.lineOnly hl
  have htick : tick s = .next ((envTurn s).withSeq (.busy i w rest)) := by rw [tick_busy hl hs, perform]
  exact ⟨_, runs_of_tick htick (busy_not_parked _ _ _ hg), rfl, envTurn_withSeq s _ hl ▸ envTurn_line _ hl,
    (envTurn_turnOf s hl).trans (envTurn_turnOf _ hl'), envTurn_withSeq _ _ hl'⟩

/-- The step is the `Nop` and what follows the poll. -/
theorem PollsAgain.step {k : Nat} (h : PollsAgain i w rest s s') (hrun : s.run = true) (hs : s.seq = .busy i w (.nop :: rest))
    (hends : Ends k s' t) (hk : k ≤ opsCost rest) : step s = .next t := by
  rw [step_of_busy hrun hs, opsCost_cons, MicroOp.cost, h.runs]
  exact hends _ hk

theorem PollsAgain.lineOnly (h : PollsAgain i w rest s s') (hl : s.lineOnly) : s'.lineOnly := h.line.lineOnly hl

theorem PollsAgain.params (h : PollsAgain i w rest s s') : s'.params = s.params := h.line.params

theorem PollsAgain.enabled (h : PollsAgain i w rest s s') (he : s.target.enabled = true) : s'.target.enabled = true :=
  enabled_of_line h.line he

/-- What is sent from the poll on, seen from it and from the state that waits. -/
theorem PollsAgain.sends {n : Nat} {bytes : List Byte} {x : State} {events : List Event} (h : PollsAgain i w rest s s')
    (hrun : s.run = true) (m : SendMoves n bytes (envTurn s') x events) :
    Sent (n + 2) bytes events s x.answered ∧ Sent n bytes events (envTurn (envTurn s)) x.answered := by
  rw [h.polls] at m
  exact ⟨Nat.add_comm 2 n ▸ (h.turn.andSends (m.ofSeq _)).sent hrun, (m.ofSeq _).sent (h.turn.line.run.trans hrun)⟩

end

/-! ## The operations that complete -/

/-- O33 for `UART.SENDC`. -/
theorem sendc_goesOn {byte : Byte} {w : ReadWord} {s : State} (hrun : s.run = true) (hl : s.lineOnly) (hw : s.params.wf = true)
    (he : s.target.enabled = true) (hs : s.seq = .busy (.uartSendc byte) w (.nop :: (sendByte s.params byte ++ [.finish .sent])))
    (hr : txReady s.params (envTurn (envTurn s)).target = true) :
    ∃ t v, step s = .next t ∧ BitVec.getLsbD v 5 = true ∧
      Sent 4 [byte] [.rd (regAddr s.params .muLsr) v, .wr (regAddr s.params .muIo) (zext32 byte)] s t ∧
      Sent 2 [byte] [.rd (regAddr s.params .muLsr) v, .wr (regAddr s.params .muIo) (zext32 byte)] (envTurn (envTurn s)) t := by
  obtain ⟨s', h⟩ := nop_pollsAgain hl hs rfl
  obtain ⟨x, v, m, hv, hends⟩ := sendByte_ends (b := byte) (h.lineOnly hl) (h.params ▸ hw) (h.enabled he) (h.params ▸ h.seq)
    (by rw [h.params, h.polls]; exact hr)
  rw [h.params] at m
  obtain ⟨fromWait, fromPoll⟩ := h.sends hrun m
  exact ⟨x.answered, v, h.step hrun hs hends (by simp [sendByte, opsCost, MicroOp.cost]), hv, fromWait, fromPoll⟩

/-- O33 for a `UART.SEND_STR` with room for all the bytes that remain. -/
theorem sendStr_goesOn {text remaining : List Byte} {w : ReadWord} {s : State} (hrun : s.run = true) (hl : s.lineOnly)
    (hw : s.params.wf = true) (hn : s.params.txStatus = .notFull) (he : s.target.enabled = true) (hne : remaining ≠ [])
    (hs : s.seq = .busy (.uartSendStr text) w (.nop :: sendOps s.params remaining))
    (hr : (envTurn (envTurn s)).target.txf.length + remaining.length ≤ s.params.fifoDepth) :
    ∃ (t : State) (polls : List Word), step s = .next t ∧ polls.length = remaining.length ∧
      (∀ v ∈ polls, BitVec.getLsbD v 5 = true) ∧
      Sent (2 * remaining.length + 2) remaining (sendEvents s.params polls remaining) s t ∧
      Sent (2 * remaining.length) remaining (sendEvents s.params polls remaining) (envTurn (envTurn s)) t := by
  obtain ⟨s', h⟩ := nop_pollsAgain hl hs (goesOn_sendOps _ _)
  obtain ⟨x, polls, m, hlen, hv, hends⟩ := sendText_ends (h.lineOnly hl) (h.params ▸ hw) (h.params ▸ hn) (h.enabled he) hne
    (h.params ▸ h.seq) (by rw [h.params, h.polls]; exact hr)
  rw [h.params] at m
  obtain ⟨fromWait, fromPoll⟩ := h.sends hrun m
  exact ⟨x.answered, polls, h.step hrun hs hends (by rw [opsCost_sendOps]; omega), hlen, hv, fromWait, fromPoll⟩

/-- O33 for `UART.READC`. -/
theorem readc_goesOn {b : Byte} {later : List Byte} {w : ReadWord} {s : State} (hrun : s.run = true) (hl : s.lineOnly)
    (he : s.target.enabled = true)
    (hs : s.seq = .busy .uartReadc w [.nop, .poll .rxReady, .memRead (regAddr s.params .muIo), .finish .received])
    (hx : (envTurn (envTurn s)).target.rxf = b :: later) (hd : 2 ≤ s.params.fifoDepth ∨ (envTurn (envTurn s)).sched = []) :
    ∃ t v v', step s = .next t ∧ BitVec.getLsbD v 0 = true ∧ BitVec.extractLsb' 0 8 v' = b ∧
      Received b [.rd (regAddr s.params .muLsr) v, .rd (regAddr s.params .muIo) v'] s t ∧
      t.sched = s.sched.drop 4 ∧ Drained (s.drained 4) s t ∧
      Drained ((envTurn (envTurn s)).drained 2) (envTurn (envTurn s)) t ∧
      Hears (s.params.fifoDepth - 1) ((envTurn (envTurn s)).heard 2) later t.target.rxf := by
  obtain ⟨s', h⟩ := nop_pollsAgain hl hs rfl
  obtain ⟨t, v, v', hends, hv, hv', recv, hsched, htx, hrxf⟩ := readc_ends (h.lineOnly hl) (h.line.run.trans hrun) (h.enabled he)
    (h.params ▸ h.seq) (by rw [h.polls]; exact hx) (by rw [h.params, h.polls]; exact hd)
  have rxf := hrxf [] later (by rw [h.polls, State.withSeq_target, hx]; exact .refl _ _)
  rw [h.params] at recv rxf
  rw [h.polls] at hsched htx rxf
  have tx : Drained ((envTurn (envTurn s)).drained 2) (envTurn (envTurn s)) t := ⟨htx.lineTx, htx.txf⟩
  refine ⟨t, v, v', h.step hrun hs hends (by simp [opsCost, MicroOp.cost]), hv, hv', (h.line.andReceives recv).ofSeq, ?_,
    h.turn.andDrains tx, tx, rxf⟩
  rw [hsched, State.withSeq_sched, h.turn.only.sched, List.drop_drop]

/-! ## A text that fits in part, with no later step of the line -/

section
variable {s t u : State} {i : Instr} {w : ReadWord} {rest : List MicroOp} {n : Nat} {text : List Byte} {b : Byte} {events : List Event}

/-- With no step of the line scheduled, bytes that are sent stay in `TXF`. -/
theorem SendMoves.quiet (h : SendMoves n text s t events) (hq : s.sched = []) :
    t.target = { s.target with txf := s.target.txf ++ text } ∧ t.lineTx = s.lineTx ∧ t.sched = [] := by
  have hd : s.drained n = 0 := by simp [State.drained, State.drains, hq]
  have hh : s.heard n = [] := by simp [State.heard, State.hears, hq]
  have hline : t.lineTx = s.lineTx := by
    have least := h.line.least
    have most := h.line.most
    rw [hd, List.take_zero, List.append_nil] at least
    exact (least.eq_of_length_le (by omega)).symm
  have htxf : t.target.txf = s.target.txf ++ text := by
    have sent := h.line.sent
    rw [hline, List.append_assoc] at sent
    exact List.append_cancel_left sent
  have hrxf := h.line.rxf.silent hh
  obtain ⟨hfsel, hout, hpud, hpudclk, hpull⟩ := h.pins
  obtain ⟨haux, hlcr, hcntl, hbaud⟩ := h.uartRegs
  refine ⟨?_, hline, by rw [h.line.sched, hq, List.drop_nil]⟩
  calc t.target = ⟨t.target.fsel, t.target.out, t.target.pud, t.target.pudclk, t.target.pull, t.target.auxenb, t.target.lcr,
        t.target.cntl, t.target.baud, t.target.txf, t.target.rxf⟩ := rfl
    _ = _ := by rw [hfsel, hout, hpud, hpudclk, hpull, haux, hlcr, hcntl, hbaud, htxf, hrxf]

/-- The bytes of a text for each of which a poll finds the transmitter ready. -/
theorem sendReady_runs (hq : s.sched = []) (hw : s.params.wf = true) (he : s.target.enabled = true)
    (hs : s.seq = .busy i w (text.flatMap (sendByte s.params) ++ rest)) (hg : goesOn rest = true)
    (hr : ∀ n < text.length, txReady s.params { s.target with txf := s.target.txf ++ text.take n } = true) :
    ∃ (u : State) (polls : List Word) (r : ReadWord), SendMoves (2 * text.length) text s u (sendEvents s.params polls text) ∧
      polls.length = text.length ∧ (∀ v ∈ polls, BitVec.getLsbD v 5 = true) ∧
      Runs (2 * text.length) s (u.withSeq (.busy i r rest)) := by
  induction text generalizing s w with
  | nil => exact ⟨s, [], w, .refl s, rfl, by simp, by rw [State.withSeq_self (q := .busy i w rest) hs]; exact .refl s⟩
  | cons b text ih =>
    have hl : s.lineOnly := by simp [State.lineOnly, hq]
    have hgo : goesOn (text.flatMap (sendByte s.params) ++ rest) = true := by
      cases text with
      | nil => exact hg
      | cons c text => rfl
    rw [List.flatMap_cons, List.append_assoc] at hs
    have ready : txReady s.params (envTurn s).target = true := by
      rw [envTurn_quiet s hq]
      simpa using hr 0 (by simp)
    obtain ⟨x, v, r, m, hv, -, hruns⟩ := sendByte_runs rfl hl hw he hs hgo ready
    have m := (envTurn_turnOf s hl).andSends m
    obtain ⟨htarget, -, hsched⟩ := m.quiet hq
    obtain ⟨u, polls, r', m', hlen, hvs, hruns'⟩ := ih (s := x.withSeq (.busy i r (text.flatMap (sendByte s.params) ++ rest))) hsched
      (m.params ▸ hw) (by rw [State.withSeq_target, htarget]; exact he) (by rw [State.withSeq_params, m.params]; rfl) fun n hn => by
        have := hr (n + 1) (by simpa using hn)
        simpa [m.params, htarget] using this
    have m' := m.trans (m'.ofSeq _)
    refine ⟨u, v :: polls, r', ?_, by simp [hlen], by simpa using ⟨hv, hvs⟩, ?_⟩
    · rw [List.length_cons, Nat.mul_succ, Nat.add_comm]
      simpa [sendEvents, m.params] using m'
    · rw [List.length_cons, Nat.mul_succ, Nat.add_comm]
      exact hruns.trans hruns'

/-- A turn after which nothing is scheduled may as well have happened before. -/
theorem runSeq_of_quiet_turn (n : Nat) (h : (envTurn s).sched = []) : runSeq (n + 1) s = runSeq (n + 1) (envTurn s) := by
  have : tick s = tick (envTurn s) := by rw [tick, tick, envTurn_quiet _ h]
  rw [runSeq, runSeq, this]

end

/-- The bit a poll for room tests is the transmitter's (10_state.md R56). -/
theorem statusRead_bit_txEmpty {s : State} (he : s.target.enabled = true) :
    s.statusRead.bit .txEmpty = txReady s.params s.target := by
  rw [State.statusRead, if_pos he, lineStatus, ReadWord.bit]

/-- The state in which an operation waits with these bytes still to be sent, its poll having just found no room. -/
def State.waiting (i : Instr) (p : Params) (remaining : List Byte) (u : State) : State :=
  u.statusPolled.withSeq (.busy i u.statusRead (.nop :: sendOps p remaining))

/-- With no step of the line scheduled: the bytes there is room for are sent, and the next poll finds none. -/
theorem sendOps_waits {i : Instr} {w : ReadWord} {sent : List Byte} {b : Byte} {later : List Byte} {s : State} (hq : s.sched = [])
    (hw : s.params.wf = true) (he : s.target.enabled = true) (hs : s.seq = .busy i w (sendOps s.params (sent ++ b :: later)))
    (hr : ∀ n < sent.length, txReady s.params { s.target with txf := s.target.txf ++ sent.take n } = true)
    (hfull : txReady s.params { s.target with txf := s.target.txf ++ sent } = false) :
    ∃ (u : State) (ready : List Word), SendMoves (2 * sent.length) sent s u (sendEvents s.params ready sent) ∧
      ready.length = sent.length ∧ (∀ v ∈ ready, BitVec.getLsbD v 5 = true) ∧ BitVec.getLsbD u.statusRead.toWord 5 = false ∧
      Ends (2 * sent.length + 1) s (u.waiting i s.params (b :: later)) := by
  have split : sendOps s.params (sent ++ b :: later) = sent.flatMap (sendByte s.params) ++ sendOps s.params (b :: later) := by
    rw [sendOps, List.flatMap_append, List.append_assoc]
    rfl
  obtain ⟨u, ready, r, m, hlen, hv, hruns⟩ := sendReady_runs hq hw he (split ▸ hs) (goesOn_sendOps _ _) hr
  obtain ⟨htarget, -, hquiet⟩ := m.quiet hq
  have enabled : u.target.enabled = true := by rw [htarget]; exact he
  have bit : u.statusRead.bit .txEmpty = false := by rw [statusRead_bit_txEmpty enabled, m.params, htarget]; exact hfull
  have poll := tick_of_performed (s := u.withSeq (.busy i r (sendOps s.params (b :: later)))) hquiet rfl (.pollClear memRead_muLsr bit)
  exact ⟨u, ready, m, hlen, hv, (ReadWord.bit_eq .txEmpty _).symm.trans bit, hruns.ends (ends_of_tick poll (nop_parked _ _ _ _))⟩

/-- O33 for a `UART.SEND_STR` with room for some of the bytes that remain, or none. -/
theorem sendStr_waitsAgain {text sent : List Byte} {b : Byte} {later : List Byte} {w : ReadWord} {s : State} (hrun : s.run = true)
    (hl : s.lineOnly) (hw : s.params.wf = true) (he : s.target.enabled = true)
    (hs : s.seq = .busy (.uartSendStr text) w (.nop :: sendOps s.params (sent ++ b :: later)))
    (hq : (envTurn (envTurn s)).sched = [])
    (hr : ∀ n < sent.length, txReady s.params
      { (envTurn (envTurn s)).target with txf := (envTurn (envTurn s)).target.txf ++ sent.take n } = true)
    (hfull : txReady s.params { (envTurn (envTurn s)).target with txf := (envTurn (envTurn s)).target.txf ++ sent } = false) :
    ∃ (u : State) (ready : List Word), step s = .next (u.waiting (.uartSendStr text) s.params (b :: later)) ∧
      SendMoves (2 * sent.length) sent (envTurn (envTurn s)) u (sendEvents s.params ready sent) ∧
      ready.length = sent.length ∧ (∀ v ∈ ready, BitVec.getLsbD v 5 = true) ∧ BitVec.getLsbD u.statusRead.toWord 5 = false := by
  obtain ⟨s', h⟩ := nop_pollsAgain hl hs (goesOn_sendOps _ _)
  have line := h.turn.line
  obtain ⟨q, hseq⟩ : ∃ q, q = Seq.busy (.uartSendStr text) w (sendOps s.params (sent ++ b :: later)) := ⟨_, rfl⟩
  have hparams : ((envTurn (envTurn s)).withSeq q).params = s.params := line.params
  have enabled := enabled_of_line line he
  obtain ⟨u, ready, m, hlen, hv, hbit, hends⟩ := sendOps_waits (s := (envTurn (envTurn s)).withSeq q) hq (hparams ▸ hw) enabled
    (hparams ▸ hseq) (hparams ▸ hr) (hparams ▸ hfull)
  rw [hparams] at m hends
  have hrun' : runSeq (opsCost (sendOps s.params (sent ++ b :: later))) s'
      = .next (u.waiting (.uartSendStr text) s.params (b :: later)) := by
    rw [opsCost_sendOps, runSeq_of_quiet_turn _ (by rw [h.polls]; exact hq), h.polls, ← hseq]
    exact hends _ (by simp only [List.length_append]; omega)
  refine ⟨u, ready, ?_, m.ofSeq q, hlen, hv, hbit⟩
  rw [step_of_busy hrun hs, opsCost_cons, MicroOp.cost, h.runs, hrun']

/-- Settles O33: after the `Nop` each operation goes on from the state in which it polls. -/
theorem blockedOperationsGoOn : Obligations.BlockedOperationsGoOn := by
  refine ⟨?_, ?_, ?_, ?_⟩
  · intro byte w s hrun hl hw he hs e hr
    obtain ⟨t, v, hstep, hv, sent, fromPoll⟩ := sendc_goesOn hrun hl hw he hs hr
    exact ⟨t, v, hstep, sent.completed, sent.dly, hv, sent.trace, sent.line, fromPoll.line, sent.slots, sent.uart, sent.pins,
      sent.uartRegs⟩
  · intro b later w s hrun hl _ he hs e hx hd
    obtain ⟨t, v, v', hstep, hv, hv', recv, hsched, tx, fromPoll, rxf⟩ := readc_goesOn hrun hl he hs hx hd
    exact ⟨t, v, v', hstep, recv.completed, recv.dly, hv, hv', recv.trace, hsched, tx, fromPoll, rxf, recv.slots, recv.uart,
      recv.pins, recv.uartRegs⟩
  · intro text remaining w s hrun hl hw hn he hne hs e hr
    obtain ⟨t, polls, hstep, hlen, hv, sent, fromPoll⟩ := sendStr_goesOn hrun hl hw hn he hne hs hr
    exact ⟨t, polls, hstep, sent.completed, sent.dly, hlen, hv, sent.trace, sent.line, fromPoll.line, sent.slots, sent.uart, sent.pins,
      sent.uartRegs⟩
  · intro text sent b later w s hrun hl hw he hs e hq hr hfull
    obtain ⟨u, ready, hstep, m, hlen, hv, hbit⟩ := sendStr_waitsAgain hrun hl hw he hs hq hr hfull
    have line : LineStep s e := (envTurn_line s hl).trans (envTurn_line _ ((envTurn_line s hl).lineOnly hl))
    obtain ⟨htarget, hlineTx, hsched⟩ := m.quiet hq
    refine ⟨_, ready, u.statusRead, hstep, rfl, hlen, hv, hbit, ?_, htarget, ?_, m.responses.trans line.responses,
      m.slots.trans line.slots, m.uart.trans line.uart, m.fault.trans line.fault, m.dly.trans line.dly⟩
    · show u.trace ++ [.rd (regAddr u.params .muLsr) u.statusRead.toWord] = _
      rw [m.trace, m.params, line.params, line.trace]
    · exact ⟨m.run.trans (line.run.trans hrun), by simp [State.waiting], m.fault, m.responses, m.dly, m.slots, m.uart, hlineTx,
        hsched, m.params, m.cmdPort, m.badCommand⟩

end Sys2Proof.Machine
end

section
/-! `UART.NEW` (41_uart.md R185): the stores of its configuration, the two pins, and the clear of both queues, each for every behaviour of
the serial line. The configuration decides in between whether the line may step at all, so the turns are counted, and of the steps the
line took it is only said that they were no more than came. -/

namespace Sys2Proof.Machine

/-! ## What a construction leaves alone -/

/-- Everything but the target, `dly`, `seq` and the line: these events were added to the trace. -/
structure TraceGrows (s t : State) (events : List Event) : Prop where
  params : t.params = s.params
  slots : t.slots = s.slots
  uart : t.uart = s.uart
  run : t.run = s.run
  fault : t.fault = s.fault
  trace : t.trace = s.trace ++ events
  cmdPort : t.cmdPort = s.cmdPort
  responses : t.responses = s.responses
  badCommand : t.badCommand = s.badCommand
  lineOnly : s.lineOnly → t.lineOnly

/-- Only the line has touched `TXF`, in `n` turns, and it drained no more often than `TxDrain` came. -/
structure DrainsAtMost (n : Nat) (s t : State) : Prop where
  sched : t.sched = s.sched.drop n
  tx : ∃ k ≤ (s.sched.take n).flatten.countP EnvStep.isDrain, Drained k s t

section
variable {a b c s t e : State} {n m : Nat} {events later : List Event} {i : Instr} {w : ReadWord} {rest : List MicroOp}

theorem TraceGrows.trans (h : TraceGrows a b events) (k : TraceGrows b c later) : TraceGrows a c (events ++ later) where
  params := k.params.trans h.params
  slots := k.slots.trans h.slots
  uart := k.uart.trans h.uart
  run := k.run.trans h.run
  fault := k.fault.trans h.fault
  trace := by rw [k.trace, h.trace, List.append_assoc]
  cmdPort := k.cmdPort.trans h.cmdPort
  responses := k.responses.trans h.responses
  badCommand := k.badCommand.trans h.badCommand
  lineOnly := k.lineOnly ∘ h.lineOnly

theorem TraceGrows.ofSeq {q : Seq} (h : TraceGrows (s.withSeq q) t events) : TraceGrows s t events :=
  ⟨h.params, h.slots, h.uart, h.run, h.fault, h.trace, h.cmdPort, h.responses, h.badCommand, h.lineOnly⟩

theorem DrainsAtMost.ofSeq {q : Seq} (h : DrainsAtMost n (s.withSeq q) t) : DrainsAtMost n s t := by
  obtain ⟨k, hk, hdrained⟩ := h.tx
  exact ⟨h.sched, k, hk, ⟨hdrained.lineTx, hdrained.txf⟩⟩

theorem DrainsAtMost.trans (h : DrainsAtMost n a b) (k : DrainsAtMost m b c) : DrainsAtMost (n + m) a c := by
  obtain ⟨d, hd, hdrained⟩ := h.tx
  obtain ⟨d', hd', hdrained'⟩ := k.tx
  refine ⟨by rw [k.sched, h.sched, List.drop_drop], d + d', ?_, hdrained.trans hdrained'⟩
  rw [h.sched] at hd'
  rw [List.take_add, List.flatten_append, List.countP_append]
  omega

theorem drains_le_countP (es : List EnvStep) (s : State) : s.drains es ≤ es.countP EnvStep.isDrain := by
  unfold State.drains
  split
  · exact Nat.le_refl _
  · exact Nat.zero_le _

theorem OnlyLine.drainsAtMost (h : OnlyLine n s t) : DrainsAtMost n s t := ⟨h.sched, _, drains_le_countP _ s, h.tx⟩

/-- Only the schedule, `LINE_TX` and `TXF` count. -/
theorem DrainsAtMost.congr (h : DrainsAtMost n s t) (hsched : e.sched = t.sched) (hlineTx : e.lineTx = t.lineTx)
    (htxf : e.target.txf = t.target.txf) : DrainsAtMost n s e := by
  obtain ⟨d, hd, hdrained⟩ := h.tx
  exact ⟨hsched.trans h.sched, d, hd, ⟨hlineTx.trans hdrained.lineTx, htxf.trans hdrained.txf⟩⟩

theorem withSeq_traceGrows (q : Seq) (s : State) : TraceGrows s (s.withSeq q) [] :=
  ⟨rfl, rfl, rfl, rfl, rfl, (List.append_nil _).symm, rfl, rfl, rfl, id⟩

theorem logEvent_traceGrows (ev : Event) (s : State) : TraceGrows s (s.logEvent ev) [ev] :=
  ⟨rfl, rfl, rfl, rfl, rfl, rfl, rfl, rfl, rfl, id⟩

theorem LineStep.traceGrows (h : LineStep s t) : TraceGrows s t [] :=
  ⟨h.params, h.slots, h.uart, h.run, h.fault, h.trace.trans (List.append_nil _).symm, h.cmdPort, h.responses, h.badCommand,
    h.lineOnly⟩

theorem PinMoves.traceGrows (h : PinMoves n s t events) : TraceGrows s t events :=
  ⟨h.params, h.slots, h.uart, h.run, h.fault, h.trace, h.cmdPort, h.responses, h.badCommand, h.lineOnly⟩

/-! ## The stores of the configuration -/

/-- The target with one register of the configuration written: `writeReg_uartStored` ties it to the write. -/
def Target.withUartReg (r : Reg) (v : Word) (t : Target) : Target :=
  match r with
  | .auxenb => { t with auxenb := v }
  | .muLcr => { t with lcr := v }
  | .muCntl => { t with cntl := v }
  | .muBaud => { t with baud := v }
  | .fsel _ | .set _ | .clr _ | .pud | .pudclk _ | .muIo | .muIir | .muLsr => t

/-- The state after a write of a register of the configuration that stores what is written. -/
def State.uartStored (r : Reg) (v : Word) (s : State) : State :=
  (if r.needsEnable then s.drawn else s).withTarget (s.target.withUartReg r v)

theorem writeReg_uartStored {r : Reg} (v : Word) (hr : r ∈ [Reg.auxenb, .muLcr, .muCntl, .muBaud])
    (he : r.needsEnable = true → s.target.enabled = true) : writeReg r v s = .ok (s.uartStored r v) := by
  simp only [List.mem_cons, List.not_mem_nil, or_false] at hr
  obtain rfl | rfl | rfl | rfl := hr
  · rfl
  all_goals
    rw [writeReg, muWritten, if_pos (he rfl)]
    rfl

theorem withUartReg_pins (r : Reg) (v : Word) (t : Target) : SamePins t (t.withUartReg r v) := by
  cases r <;> exact ⟨rfl, rfl, rfl, rfl, rfl⟩

theorem withUartReg_txf (r : Reg) (v : Word) (t : Target) : (t.withUartReg r v).txf = t.txf := by cases r <;> rfl

theorem SameUartRegs.withUartReg {t u : Target} (r : Reg) (v : Word) (h : SameUartRegs t u) :
    SameUartRegs (t.withUartReg r v) (u.withUartReg r v) := by
  obtain ⟨haux, hlcr, hcntl, hbaud⟩ := h
  cases r with
  | auxenb => exact ⟨rfl, hlcr, hcntl, hbaud⟩
  | muLcr => exact ⟨haux, rfl, hcntl, hbaud⟩
  | muCntl => exact ⟨haux, hlcr, rfl, hbaud⟩
  | muBaud => exact ⟨haux, hlcr, hcntl, rfl⟩
  | _ => exact ⟨haux, hlcr, hcntl, hbaud⟩

theorem uartStored_traceGrows (r : Reg) (v : Word) (s : State) : TraceGrows s (s.uartStored r v) [] := by
  unfold State.uartStored
  split <;> exact ⟨rfl, rfl, rfl, rfl, rfl, (List.append_nil _).symm, rfl, rfl, rfl, id⟩

/-- A stretch of the construction in which `n` turns passed, only the registers of the configuration were written, which are now as in
`regs`, and these events were added to the trace. -/
structure Configures (n : Nat) (s t : State) (regs : Target) (events : List Event) : Prop where
  grows : TraceGrows s t events
  drains : DrainsAtMost n s t
  dly : t.dly = s.dly
  pins : SamePins s.target t.target
  regs : SameUartRegs regs t.target

theorem Configures.refl (s : State) : Configures 0 s s s.target [] :=
  ⟨(LineStep.refl s).traceGrows, (OnlyLine.refl s).drainsAtMost, rfl, .refl _, .refl _⟩

theorem Configures.withSeq {regs : Target} (q : Seq) (h : Configures n s t regs events) : Configures n s (t.withSeq q) regs events :=
  ⟨by simpa using h.grows.trans (withSeq_traceGrows q t), h.drains.congr rfl rfl rfl, h.dly, h.pins, h.regs⟩

/-- A turn of the line. -/
theorem Configures.turn {regs : Target} (h : Configures n s t regs events) (k : TurnOf m t e) :
    Configures (n + m) s e regs events where
  grows := by simpa using h.grows.trans k.line.traceGrows
  drains := h.drains.trans k.only.drainsAtMost
  dly := k.line.dly.trans h.dly
  pins := h.pins.trans k.line.pins
  regs := h.regs.trans k.line.uartRegs

/-- One more event. -/
theorem Configures.logEvent {regs : Target} (h : Configures n s t regs events) (ev : Event) :
    Configures n s (t.logEvent ev) regs (events ++ [ev]) :=
  ⟨h.grows.trans (logEvent_traceGrows ev t), h.drains.congr rfl rfl rfl, h.dly, h.pins, h.regs⟩

/-- One register of the configuration. -/
theorem Configures.stored {regs : Target} (h : Configures n s t regs events) (r : Reg) (v : Word) :
    Configures n s (t.uartStored r v) (regs.withUartReg r v) events := by
  have same : (t.uartStored r v).sched = t.sched ∧ (t.uartStored r v).dly = t.dly ∧ (t.uartStored r v).lineTx = t.lineTx := by
    unfold State.uartStored
    split <;> exact ⟨rfl, rfl, rfl⟩
  obtain ⟨hsched, hdly, hlineTx⟩ := same
  exact ⟨by simpa using h.grows.trans (uartStored_traceGrows r v t), h.drains.congr hsched hlineTx (withUartReg_txf r v t.target),
    hdly.trans h.dly, h.pins.trans (withUartReg_pins r v t.target), h.regs.withUartReg r v⟩

/-- One write of the configuration, after what has been configured before it. -/
theorem uartStore_runs {regs : Target} (h : Configures n s t regs events) (hl : s.lineOnly) (r : Reg) (v : Word)
    (hr : r ∈ [Reg.auxenb, .muLcr, .muCntl, .muBaud]) (he : r.needsEnable = true → regs.enabled = true) (hg : goesOn rest = true) :
    ∃ e, Configures (n + 1) s e (regs.withUartReg r v) (events ++ [.wr (regAddr s.params r) v]) ∧
      Runs 1 (t.withSeq (.busy i w (.memWrite (regAddr s.params r) v :: rest))) (e.withSeq (.busy i w rest)) := by
  have hiir : r ≠ .muIir := by
    rintro rfl
    simp at hr
  have h := h.withSeq (.busy i w (.memWrite (regAddr s.params r) v :: rest))
  obtain ⟨e, turn, hruns⟩ := memWrite_runs (h.grows.lineOnly hl) rfl (by rw [h.grows.params]; exact regAt_regAddr _ r hiir) hg
    (State.uartStored r v) fun e turn => writeReg_uartStored v hr fun hn => by
      have := he hn
      rw [Target.enabled] at this ⊢
      rwa [turn.line.uartRegs.auxenb, h.regs.auxenb]
  exact ⟨_, ((h.turn turn).stored r v).logEvent _, hruns⟩

/-- The events of steps 1 to 4 with the divisor `d` (41_uart.md R185), where `AUXENB` held `aux`. -/
def uartSetupEvents (p : Params) (d aux : Word) : List Event :=
  [.rd (regAddr p .auxenb) aux, .wr (regAddr p .auxenb) (aux ||| 1), .wr (regAddr p .muCntl) 0, .wr (regAddr p .muLcr) 3,
    .wr (regAddr p .muBaud) d]

theorem rmwWord_setBit (w : Word) : rmwWord w 0 1 = w ||| 1 := by
  rw [rmwWord, show (~~~0 : Word) = BitVec.allOnes 32 from rfl, BitVec.and_allOnes]

/-- Step 1 (41_uart.md R185): `AUXENB[0]` is set by a read-modify-write. -/
theorem enableUart_runs (hl : s.lineOnly)
    (hs : s.seq = .busy i w (.memRead (regAddr s.params .auxenb) :: .memModify (regAddr s.params .auxenb) 0 1 :: rest))
    (hg : goesOn rest = true) :
    ∃ e w', Configures 2 s e { s.target with auxenb := s.target.auxenb ||| 1 }
        [.rd (regAddr s.params .auxenb) s.target.auxenb, .wr (regAddr s.params .auxenb) (s.target.auxenb ||| 1)] ∧
      Runs 2 s (e.withSeq (.busy i w' rest)) := by
  have hr := regAt_regAddr s.params .auxenb (by simp)
  obtain ⟨x, turn, hread⟩ := memRead_runs hl hs hr rfl
  have haux : readReg .auxenb x = (.plain s.target.auxenb, x) := by rw [readReg, turn.line.uartRegs.auxenb]
  rw [haux] at hread
  have c := (((Configures.refl s).turn turn).logEvent (.rd (regAddr s.params .auxenb) s.target.auxenb)).withSeq
    (.busy i (.plain s.target.auxenb) (.memModify (regAddr s.params .auxenb) 0 1 :: rest))
  have stored : ∀ y, writeReg .auxenb (rmwWord (ReadWord.plain s.target.auxenb).toWord 0 1) y
      = .ok (y.uartStored .auxenb (s.target.auxenb ||| 1)) := fun y => by
    rw [ReadWord.toWord, rmwWord_setBit]
    exact writeReg_uartStored _ (by simp) (by simp [Reg.needsEnable])
  obtain ⟨e, turn', hmodify⟩ := memModify_runs (c.grows.lineOnly hl) rfl (c.grows.params ▸ hr) hg _ fun y _ => stored y
  rw [ReadWord.toWord, rmwWord_setBit] at hmodify
  exact ⟨_, _, ((c.turn turn').stored .auxenb _).logEvent _, hread.trans hmodify⟩

/-- Steps 1 to 4 (41_uart.md R185): `AUXENB[0]` is set first, so that the other registers store what is written. -/
theorem uartSetup_runs (d : Word) (hl : s.lineOnly) (hs : s.seq = .busy i w (uartSetup s.params d ++ rest))
    (hg : goesOn rest = true) :
    ∃ e w', Configures 5 s e { s.target with auxenb := s.target.auxenb ||| 1, cntl := 0, lcr := 3, baud := d }
        (uartSetupEvents s.params d s.target.auxenb) ∧
      Runs 5 s (e.withSeq (.busy i w' rest)) := by
  have enabled : (s.target.auxenb ||| 1).getLsbD 0 = true := by simp
  obtain ⟨x1, w', c1, run1⟩ := enableUart_runs hl hs rfl
  obtain ⟨x2, c2, run2⟩ := uartStore_runs (i := i) (w := w') (rest := (uartSetup s.params d ++ rest).drop 3) c1 hl .muCntl 0 (by simp)
    (fun _ => enabled) rfl
  obtain ⟨x3, c3, run3⟩ := uartStore_runs (i := i) (w := w') (rest := (uartSetup s.params d ++ rest).drop 4) c2 hl .muLcr 3 (by simp)
    (fun _ => enabled) rfl
  obtain ⟨x4, c4, run4⟩ := uartStore_runs (i := i) (w := w') (rest := rest) c3 hl .muBaud d (by simp) (fun _ => enabled) hg
  exact ⟨x4, w', c4, run1.trans (run2.trans (run3.trans run4))⟩

/-! ## The pins -/

/-- Step 5 for one pin (41_uart.md R185): the pin is in the alternate function with no pull, and every other pin whose clock bit was 0
keeps its pull. -/
structure PinBuilt (p : Params) (pin : BitVec 6) (hpin : pin.toNat / 10 < 6) (t u : Target) : Prop where
  fsel : u.fsel = (t.withField pin p.uartAltCode hpin).fsel
  out : u.out = t.out
  pud : u.pud = 0
  pudclk : u.pudclk = t.pudclk.set (pin.toNat / 32) 0 (pairIndex_lt pin)
  pull : ∀ q : Fin 54, q.val = pin.toNat → u.pull[q] = 0
  others : ∀ q : Fin 54, q.val ≠ pin.toNat → pairBit t.pudclk q = false → u.pull[q] = t.pull[q]

/-- The events of step 5 for one pin whose function-select register held `w`. -/
def uartPinEvents (p : Params) (pin : BitVec 6) (w : Word) : List Event := fselEvents p pin p.uartAltCode w ++ pullEvents p pin 0

theorem uartPinSetup_runs {p : Params} {pin : BitVec 6} (hpin : pin.toNat / 10 < 6) (hp : s.params = p) (hl : s.lineOnly)
    (hs : s.seq = .busy i w (uartPinSetup p pin ++ rest)) (hg : goesOn rest = true) :
    ∃ e w', PinMoves 308 s e (uartPinEvents p pin s.target.fsel[pin.toNat / 10]) ∧ e.dly = 0 ∧
      PinBuilt p pin hpin s.target e.target ∧ Runs 308 s (e.withSeq (.busy i w' rest)) := by
  subst hp
  obtain ⟨e, moves, hdly, hfsel, hout, hpud, hpudclk, hpull, hothers, hruns⟩ :=
    construct_runs (i := i) (w := w) pin s.params.uartAltCode 0 hpin (by decide) hl hg
  rw [← List.append_assoc, ← uartPinSetup, State.withSeq_self hs] at hruns
  exact ⟨e, _, moves, hdly, ⟨hfsel, hout, hpud, hpudclk, hpull, hothers⟩, hruns⟩

end

section
variable {p : Params} {tx rx pin : BitVec 6} {htx : tx.toNat / 10 < 6} {hrx : rx.toNat / 10 < 6} {hpin : pin.toNat / 10 < 6}
  {t u v t' u' : Target}

theorem withField_fsel_congr (h : t'.fsel = t.fsel) (code : BitVec 3) :
    (t'.withField pin code hpin).fsel = (t.withField pin code hpin).fsel := by simp only [Target.withField, h]

theorem PinBuilt.congr (h : PinBuilt p pin hpin t u) (ht : SamePins t' t) (hu : SamePins u u') : PinBuilt p pin hpin t' u' where
  fsel := by rw [hu.fsel, h.fsel, withField_fsel_congr ht.fsel]
  out := hu.out.trans (h.out.trans ht.out)
  pud := hu.pud.trans h.pud
  pudclk := by rw [hu.pudclk, h.pudclk, ht.pudclk]
  pull q hq := by rw [hu.pull]; exact h.pull q hq
  others q hq hb := by rw [hu.pull, h.others q hq (ht.pudclk ▸ hb), ht.pull]

theorem PinBuilt.func (h : PinBuilt p pin hpin t u) (q : Fin 54) :
    u.func q = if q.val = pin.toNat then p.uartAltCode else t.func q := by
  rw [Target.func_congr h.fsel, func_withField]

/-- A pin whose clock bit is 0 keeps that. -/
theorem PinBuilt.pairBit_false (h : PinBuilt p pin hpin t u) {q : Fin 54} (hb : pairBit t.pudclk q = false) :
    pairBit u.pudclk q = false := by
  rw [h.pudclk]
  exact pairBit_set_zero _ _ _ q hb

/-- The pin's own clock bit is 0 afterwards. -/
theorem PinBuilt.pairBit_self (h : PinBuilt p pin hpin t u) {q : Fin 54} (hq : q.val = pin.toNat) : pairBit u.pudclk q = false := by
  simp [h.pudclk, pairBit, hq]

theorem PinBuilt.func_both (h : PinBuilt p tx htx t u) (k : PinBuilt p rx hrx u v) (q : Fin 54) :
    v.func q = if q.val = tx.toNat ∨ q.val = rx.toNat then p.uartAltCode else t.func q := by
  rw [k.func, h.func]
  by_cases hqrx : q.val = rx.toNat
  · rw [if_pos hqrx, if_pos (.inr hqrx)]
  · simp only [hqrx, or_false, if_false]

theorem PinBuilt.pull_both (h : PinBuilt p tx htx t u) (k : PinBuilt p rx hrx u v) (q : Fin 54)
    (hq : q.val = tx.toNat ∨ q.val = rx.toNat) : v.pull[q] = 0 := by
  by_cases hqrx : q.val = rx.toNat
  · exact k.pull q hqrx
  · have hqtx := hq.resolve_right hqrx
    rw [k.others q hqrx (h.pairBit_self hqtx), h.pull q hqtx]

theorem PinBuilt.others_both (h : PinBuilt p tx htx t u) (k : PinBuilt p rx hrx u v) (q : Fin 54) (hqtx : q.val ≠ tx.toNat)
    (hqrx : q.val ≠ rx.toNat) (hb : pairBit t.pudclk q = false) : v.pull[q] = t.pull[q] := by
  rw [k.others q hqrx (h.pairBit_false hb), h.others q hqtx hb]

end

/-! ## The whole operation -/

section
variable {s : State} {i : Instr} {w : ReadWord} {baud : Word}

/-- What `UART.NEW` has to do. -/
def uartNewOps (p : Params) (baud : Word) : List MicroOp :=
  uartSetup p (divisorWord p baud) ++ (uartPinSetup p p.txPin ++ (uartPinSetup p p.rxPin ++ (uartStart p ++ [.finish (.newUart baud)])))

theorem planOf_uartNew (hu : s.uart.valid = false) (hb : badBaud s.params.clockHz baud.toNat = false) :
    planOf s (.uartNew baud) = .ok (uartNewOps s.params baud) := by
  simp only [planOf, hu, hb, Bool.false_eq_true, if_false, uartNewOps, List.append_assoc]

theorem uartNewOps_cost (p : Params) (baud : Word) : 624 ≤ opsCost (uartNewOps p baud) := by
  simp [uartNewOps, uartSetup, uartPinSetup, uartStart, opsCost, fselRmw, pullSeq, MicroOp.cost, Config.settleCycles]

/-- `U` as `UART.NEW` writes it (10_state.md R25). -/
def UartContext.built (p : Params) (baud : Word) : UartContext :=
  { valid := true, baud := baud, tx := uartPin p p.txPin, rx := uartPin p p.rxPin }

/-- The target with the configuration for a baud rate. -/
def Target.withUartConf (p : Params) (baud : Word) (t : Target) : Target :=
  { t with auxenb := t.auxenb ||| 1, lcr := 3, cntl := 3, baud := divisorWord p baud }

/-- The events of steps 6 and 7 (41_uart.md R185). -/
def uartStartEvents (p : Params) : List Event := [.wr (regAddr p .muCntl) 3, .wr (regAddr p .muIir) p.fifoClearCode]

/-- The events of `UART.NEW` (41_uart.md R185), `aux`, `wtx` and `wrx` the words read. -/
def uartNewEvents (p : Params) (baud aux wtx wrx : Word) : List Event :=
  uartSetupEvents p (divisorWord p baud) aux ++ (uartPinEvents p p.txPin wtx ++ (uartPinEvents p p.rxPin wrx ++ uartStartEvents p))

/-- Up to the clear of the queues, which is still to be done; `mid` is the target after the first pin. -/
theorem uartNew_untilClear (htx : s.params.txPin.toNat / 10 < 6) (hrx : s.params.rxPin.toNat / 10 < 6) (hl : s.lineOnly)
    (hs : s.seq = .busy i w (uartNewOps s.params baud)) :
    ∃ e w' mid events, TraceGrows s e events ∧ DrainsAtMost 622 s e ∧ e.dly = 0 ∧
      PinBuilt s.params s.params.txPin htx s.target mid ∧ PinBuilt s.params s.params.rxPin hrx mid e.target ∧
      SameUartRegs (s.target.withUartConf s.params baud) e.target ∧
      events ++ [.wr (regAddr s.params .muIir) s.params.fifoClearCode]
        = uartNewEvents s.params baud s.target.auxenb s.target.fsel[s.params.txPin.toNat / 10] mid.fsel[s.params.rxPin.toNat / 10] ∧
      Runs 622 s (e.withSeq (.busy i w' [.memWrite (regAddr s.params .muIir) s.params.fifoClearCode, .finish (.newUart baud)])) := by
  obtain ⟨e1, w1, c1, run1⟩ := uartSetup_runs _ hl hs rfl
  obtain ⟨e2, w2, m2, -, b2, run2⟩ := uartPinSetup_runs (s := e1.withSeq (.busy i w1 ((uartNewOps s.params baud).drop 5))) htx
    c1.grows.params (c1.grows.lineOnly hl) rfl rfl
  have g2 := c1.grows.trans (m2.ofSeq _).traceGrows
  obtain ⟨e3, w3, m3, hdly, b3, run3⟩ := uartPinSetup_runs (s := e2.withSeq (.busy i w2 (uartPinSetup s.params s.params.rxPin ++
    (uartStart s.params ++ [.finish (.newUart baud)])))) hrx g2.params (g2.lineOnly hl) rfl rfl
  have g3 := g2.trans (m3.ofSeq _).traceGrows
  have regs : SameUartRegs _ e3.target := c1.regs.trans (m2.uartRegs.trans m3.uartRegs)
  have enabled : e3.target.enabled = true := by
    rw [Target.enabled, regs.auxenb]
    simp
  obtain ⟨e4, c4, run4⟩ := uartStore_runs (i := i) (w := w3)
    (rest := [.memWrite (regAddr s.params .muIir) s.params.fifoClearCode, .finish (.newUart baud)]) (Configures.refl e3) (g3.lineOnly hl)
    .muCntl 3 (by simp) (fun _ => enabled) rfl
  rw [g3.params] at c4 run4
  refine ⟨e4, w3, e2.target, _, g3.trans c4.grows, ((c1.drains.trans (m2.ofSeq _).line.drainsAtMost).trans
    (m3.ofSeq _).line.drainsAtMost).trans c4.drains, c4.dly.trans hdly, b2.congr c1.pins (.refl _), b3.congr (.refl _) c4.pins,
    (regs.withUartReg .muCntl 3).trans c4.regs, ?_, run1.trans (run2.trans (run3.trans run4))⟩
  simp only [State.withSeq_target, c1.pins.fsel, uartNewEvents, List.append_assoc]
  rfl

/-- The queues emptied by the clear code (10_state.md R60). -/
def State.queuesCleared (s : State) : State := s.withTarget { s.target with txf := [], rxf := [] }

theorem hears_of_enabled (he : s.target.enabled = true) (hrx : s.target.rxEn = true) (es : List EnvStep) :
    s.hears es = es.filterMap EnvStep.arrival := by rw [State.hears, he, hrx, Bool.and_self, if_pos rfl]

/-- The write of the clear code, which finds the state `x` and leaves `c`. -/
structure Clears (s x c : State) : Prop where
  turn : TurnOf 1 s x
  grows : TraceGrows s c [.wr (regAddr s.params .muIir) s.params.fifoClearCode]
  dly : c.dly = s.dly
  pins : SamePins s.target c.target
  uartRegs : SameUartRegs s.target c.target
  txf : c.target.txf = []
  rxf : c.target.rxf = []
  lineTx : c.lineTx = x.lineTx
  sched : c.sched = s.sched.drop 1

/-- Step 7 (41_uart.md R185). -/
theorem clear_runs {rest : List MicroOp} (hw : s.params.wf = true) (hl : s.lineOnly) (he : s.target.enabled = true)
    (hs : s.seq = .busy i w (.memWrite (regAddr s.params .muIir) s.params.fifoClearCode :: rest)) (hg : goesOn rest = true) :
    ∃ x c, Clears s x c ∧ c.seq = .busy i w rest ∧ Runs 1 s c := by
  obtain ⟨x, turn, hruns⟩ := memWrite_runs hl hs (regAt_regAddr_of_wf hw .muIir) hg State.queuesCleared fun x turn => by
    rw [writeReg, if_pos (enabled_of_line turn.line he), turn.line.params, beq_self_eq_true, if_pos rfl, State.queuesCleared]
  have line := turn.line
  obtain ⟨hfsel, hout, hpud, hpudclk, hpull⟩ := line.pins
  obtain ⟨haux, hlcr, hcntl, hbaud⟩ := line.uartRegs
  have grows := line.traceGrows.trans (logEvent_traceGrows (.wr (regAddr s.params .muIir) s.params.fifoClearCode) x)
  refine ⟨x, _, ?_, rfl, hruns⟩
  exact ⟨turn, ⟨grows.params, grows.slots, grows.uart, grows.run, grows.fault, grows.trace, grows.cmdPort, grows.responses,
    grows.badCommand, grows.lineOnly⟩, line.dly, ⟨hfsel, hout, hpud, hpudclk, hpull⟩, ⟨haux, hlcr, hcntl, hbaud⟩, rfl, rfl, rfl,
    turn.only.sched⟩

/-- The turn after the clear, in which bytes arrive in queues that were empty. -/
theorem Clears.turns {x c y : State} (h : Clears s x c) (he : s.target.enabled = true) (hrx : s.target.rxEn = true)
    (turn : TurnOf 1 c y) :
    y.target.txf = [] ∧ y.lineTx = x.lineTx ∧ y.sched = s.sched.drop 2 ∧
      Hears s.params.fifoDepth (((s.sched.drop 1).take 1).flatten.filterMap EnvStep.arrival) [] y.target.rxf := by
  have heard : c.heard 1 = ((s.sched.drop 1).take 1).flatten.filterMap EnvStep.arrival := by
    rw [State.heard, hears_congr h.uartRegs, hears_of_enabled he hrx, h.sched]
  obtain ⟨hsched, ⟨hlineTx, htxf⟩, hrxf⟩ := turn.only
  rw [heard, h.grows.params, h.rxf] at hrxf
  rw [h.txf, List.drop_nil] at htxf
  rw [h.txf, List.take_nil, List.append_nil, h.lineTx] at hlineTx
  exact ⟨htxf, hlineTx, by rw [hsched, h.sched, List.drop_drop], hrxf⟩

/-- The clear of the queues and the response: `x` is the state the clear finds, `y` the one after the turn that follows it. -/
theorem clear_ends {p : Params} (hp : s.params = p) (hw : p.wf = true) (hl : s.lineOnly) (he : s.target.enabled = true)
    (hrx : s.target.rxEn = true)
    (hs : s.seq = .busy i w [.memWrite (regAddr p .muIir) p.fifoClearCode, .finish (.newUart baud)]) :
    ∃ x y, DrainsAtMost 1 s x ∧ TraceGrows s y [.wr (regAddr p .muIir) p.fifoClearCode] ∧ y.dly = s.dly ∧
      SamePins s.target y.target ∧ SameUartRegs s.target y.target ∧ y.target.txf = [] ∧ y.lineTx = x.lineTx ∧
      y.sched = s.sched.drop 2 ∧
      Hears p.fifoDepth (((s.sched.drop 1).take 1).flatten.filterMap EnvStep.arrival) [] y.target.rxf ∧
      Ends 2 s (y.withUart (.built p baud)).answered := by
  subst hp
  obtain ⟨x, c, h, hseq, hruns⟩ := clear_runs hw hl he hs rfl
  obtain ⟨y, turn, hends⟩ := finish_ends (h.grows.lineOnly hl) hseq (State.withUart (.built s.params baud)) fun y turn => by
    rw [applyUpdate, turn.line.params, h.grows.params]
    rfl
  obtain ⟨htxf, hlineTx, hsched, hrxf⟩ := h.turns he hrx turn
  exact ⟨x, y, h.turn.only.drainsAtMost, by simpa using h.grows.trans turn.line.traceGrows, turn.line.dly.trans h.dly,
    h.pins.trans turn.line.pins, h.uartRegs.trans turn.line.uartRegs, htxf, hlineTx, hsched, hrxf, hruns.ends hends⟩

end

/-- Settles O25: the configuration and both pins, then the clear, and the response in the turn after it. -/
theorem uartNewConstructs : Obligations.UartNewConstructs := by
  intro baud s htx hrx hs hl hw hu hb p wtx afterTx wrx
  have hreg : ∀ {pin : BitVec 6}, pin.toNat ≤ 53 → pin.toNat / 10 < 6 := by omega
  obtain ⟨q, hq⟩ : ∃ q, q = Seq.busy (.uartNew baud) (.plain 0) (uartNewOps s.params baud) := ⟨_, rfl⟩
  obtain ⟨e, w, mid, events, grows, drains, hdly, btx, brx, conf, hevents, hruns⟩ :=
    uartNew_untilClear (s := s.withSeq q) (hreg htx) (hreg hrx) hl hq
  have enabled : e.target.enabled = true := by
    rw [Target.enabled, conf.auxenb]
    simp [Target.withUartConf]
  have rxEn : e.target.rxEn = true := by
    rw [Target.rxEn, conf.cntl]
    simp [Target.withUartConf]
  obtain ⟨x, y, drains', grows', hdly', pins, regs, htxf, hline, hsched, hrxf, hends⟩ :=
    clear_ends (s := e.withSeq (.busy (.uartNew baud) w [.memWrite (regAddr p .muIir) p.fifoClearCode, .finish (.newUart baud)]))
      grows.params hw (grows.lineOnly hl) enabled rxEn rfl
  have all := grows.trans grows'.ofSeq
  have hmid : mid.fsel = afterTx := btx.fsel
  have hexec : exec (.uartNew baud) s = .next (y.withUart (.built p baud)).answered := by
    rw [exec_eq_issue_planOf, planOf_uartNew hu hb, issue_runs _ _ s hs, ← hq]
    exact runSeq_of hruns hends (uartNewOps_cost p baud)
  have brx := brx.congr (.refl _) pins
  have regs := conf.trans regs
  refine ⟨_, hexec, ⟨all.run.trans hs.1, rfl, all.fault, congrArg (· ++ [Response.done]) all.responses, all.params, all.cmdPort,
    all.badCommand⟩, hdly'.trans hdly, ?_, rfl, all.slots, brx.out.trans btx.out, regs.auxenb, regs.cntl, regs.lcr, regs.baud, htxf,
    ?_, ?_, ?_, ?_, btx.func_both brx, btx.pull_both brx, btx.others_both brx, brx.pud, ?_⟩
  · have hwrx : mid.fsel[s.params.rxPin.toNat / 10] = wrx := by simp only [wrx, hmid]
    refine (all.trace.trans (congrArg (s.trace ++ ·) hevents)).trans ?_
    simp only [State.withSeq_params, State.withSeq_target, hwrx, uartNewEvents, uartPinEvents, List.append_assoc]
    rfl
  · refine hsched.trans ?_
    rw [State.withSeq_sched, drains.sched, List.drop_drop, State.withSeq_sched]
  · obtain ⟨k, hk, drained⟩ := (drains.trans drains'.ofSeq).tx
    exact ⟨k, hk, hline.trans drained.lineTx⟩
  · rw [State.withSeq_sched, drains.sched, List.drop_drop, State.withSeq_sched] at hrxf
    exact hrxf
  · exact brx.fsel.trans (withField_fsel_congr btx.fsel _)
  · refine brx.pudclk.trans ?_
    simp only [btx.pudclk]
    rfl

end Sys2Proof.Machine
end

section
/-! Faults and the halt (60_exceptions.md R210 to R221): an operation whose checks answer a fault is exactly the taking of that fault, an
operation whose checks pass never ends halted, and a halted machine goes on with the serial line alone. -/

namespace Sys2Proof.Machine

/-! ## Taking a fault (60_exceptions.md R210, R219) -/

/-- Settles O12. -/
theorem faultEntry : Obligations.FaultEntry := ⟨fun _ _ => rfl, rfl, rfl, rfl, rfl, rfl, rfl, rfl⟩

section
variable {s t : State} {i : Instr}

theorem exec_of_planOf_error {f : FaultCode} (hs : s.ready) (h : planOf s i = .error f) : exec i s = .next (s.raise f) := by
  rw [exec_eq_issue_planOf, h, issue_fault i f s hs]

/-! ## Illegal words (60_exceptions.md R211) -/

theorem step_of_illegal {w : Word} {rest : List Word} (hs : s.ready) (hd : decode s.cmdPort = .illegal w rest) :
    step s = .next (((s.withCmdPort rest).noteBadCommand w).raise .illegalCommand) := by
  obtain ⟨hrun, hseq⟩ := hs
  simp only [step, hrun, hseq, hd]

/-- Settles O9: a word that no row selects is illegal with every word after it still on the port (`illegalExactlyWhenNoRowMatches`). -/
theorem illegalCommandHalts : Obligations.IllegalCommandHalts := by
  intro w ws s hs hport hno
  have hdecode : decode s.cmdPort = .illegal w ws := hport ▸ (illegalExactlyWhenNoRowMatches w ws).1 hno
  exact ⟨_, step_of_illegal hs hdecode, rfl, rfl, rfl, rfl, rfl, rfl, rfl, rfl, rfl, rfl, rfl, rfl, rfl, rfl⟩

/-! ## Slots (60_exceptions.md R212) -/

theorem context_eq_none {slot : BitVec 8}
    (h : s.params.nslot ≤ slot.toNat ∨ ∃ c, s.slots[slot.toNat]? = some c ∧ c.valid = false) : s.context slot = none := by
  refine Option.eq_none_iff_forall_ne_some.mpr fun c hc => ?_
  obtain ⟨hlt, hget, hvalid⟩ := context_eq_some.mp hc
  obtain hslot | ⟨c', hget', hinvalid⟩ := h
  · exact absurd hlt (Nat.not_lt.mpr hslot)
  · cases hget.symm.trans hget'
    cases hinvalid.symm.trans hvalid

theorem onContext_of_none {slot : BitVec 8} (ops : BitVec 6 → List MicroOp) (h : s.context slot = none) :
    onContext slot ops s = .error .badSlot := by
  rw [onContext, h]

/-- The six operations on an existing context all begin with the check of their slot. -/
theorem planOf_of_no_context {slot : BitVec 8} (h : s.context slot = none)
    (hi : i ∈ [Instr.gpioOn slot, .gpioOff slot, .gpioPullUp slot, .gpioPullDown slot, .gpioPullNeither slot, .gpioDrop slot]) :
    planOf s i = .error .badSlot := by
  fin_cases hi <;> simp only [planOf, repull, onContext_of_none _ h]

/-- Settles O14. -/
theorem badSlotIsRaised : Obligations.BadSlotIsRaised := by
  intro slot s hs
  refine ⟨fun hslot pin mode pull => ?_, fun hslot i hi => ?_⟩
  · exact (gpioNewChecksItsOperands slot pin mode pull s hs).1 hslot
  · exact exec_of_planOf_error hs (planOf_of_no_context (context_eq_none hslot) hi)

/-! ## The transceiver (60_exceptions.md R215) -/

theorem onUart_of_invalid (ops : List MicroOp) (h : s.uart.valid = false) : onUart ops s = .error .noUart := by
  rw [onUart, h]
  rfl

theorem planOf_uartNew_of_valid (baud : Word) (h : s.uart.valid = true) : planOf s (.uartNew baud) = .error .uartExists := by
  rw [planOf, if_pos h]

/-- Settles O15. -/
theorem uartMustBeConstructedOnce : Obligations.UartMustBeConstructedOnce := by
  intro s hs
  refine ⟨fun hno => ⟨fun byte => ?_, ?_, fun text => ?_⟩, fun hu baud => ?_⟩
  · exact exec_of_planOf_error hs (onUart_of_invalid _ hno)
  · exact exec_of_planOf_error hs (onUart_of_invalid _ hno)
  · exact exec_of_planOf_error hs (onUart_of_invalid _ hno)
  · exact exec_of_planOf_error hs (planOf_uartNew_of_valid baud hu)

/-! ## Only a fault halts (60_exceptions.md R219) -/

/-- The line leaves `run` alone, and a reset sets it. -/
theorem envStep_run (e : EnvStep) (h : s.run = true) : (envStep s e).run = true := by
  cases e with
  | txDrain => exact (txDrain_line s).run.trans h
  | rxArrive b => exact (rxArrive_line b s).run.trans h
  | reset launch => exact s.resetEvent_run launch

theorem foldl_envStep_run (es : List EnvStep) (h : s.run = true) : (es.foldl envStep s).run = true := by
  induction es generalizing s with
  | nil => exact h
  | cons e es ih => exact ih (envStep_run e h)

theorem envTurn_run (h : s.run = true) : (envTurn s).run = true := by
  unfold envTurn
  split
  · exact h
  · exact foldl_envStep_run _ h

theorem tick_run (hs : s.run = true) (h : tick s = .next t) : t.run = true := by
  have hturn := envTurn_run hs
  obtain ⟨-, rfl⟩ | ⟨i, w, -, rfl⟩ | ⟨i, w, op, rest, -, hperform⟩ := sequencerStep_cases h
  · exact hturn
  · exact hturn
  · exact (perform_untouched hperform).run.trans hturn

/-- An operation whose checks pass takes no fault, not even when a reset cuts it short. -/
theorem exec_ne_raise {ops : List MicroOp} (hs : s.ready) (h : planOf s i = .ok ops) (f : FaultCode) : exec i s ≠ .next (s.raise f) := by
  intro hraise
  rw [exec_eq_issue_planOf, h, issue_runs i ops s hs] at hraise
  have start : (s.withSeq (.busy i (.plain 0) ops)).run = true := hs.1
  have hrun : (s.raise f).run = true := runSeq_keeps (P := fun u => u.run = true) (fun _ _ => tick_run) start hraise
  cases hrun

/-! ## Baud rates (60_exceptions.md R216) -/

theorem badBaud_eq_true {clock baud : Nat} : badBaud clock baud = true ↔ baud = 0 ∨ clock < 8 * baud := by
  simp only [badBaud, Bool.or_eq_true, beq_iff_eq, decide_eq_true_eq]

theorem planOf_uartNew_of_badBaud {baud : Word} (hu : s.uart.valid = false) (hb : badBaud s.params.clockHz baud.toNat = true) :
    planOf s (.uartNew baud) = .error .badBaud := by
  simp only [planOf, hu, hb, Bool.false_eq_true, if_false, if_true]

end

/-- Settles O16. -/
theorem badBaudIsRaised : Obligations.BadBaudIsRaised := by
  refine ⟨fun baud s hs hu => ⟨fun hbad => ?_, fun hne hle => ?_⟩, fun baud => ?_, by decide⟩
  · have hb : badBaud s.params.clockHz baud.toNat = true := badBaud_eq_true.mpr (hbad.imp_left (congrArg BitVec.toNat))
    exact exec_of_planOf_error hs (planOf_uartNew_of_badBaud hu hb)
  · have hpos : 0 < baud.toNat := Nat.pos_of_ne_zero fun h => hne (BitVec.eq_of_toNat_eq h)
    exact exec_ne_raise hs (planOf_uartNew hu (badBaud_eq_false.mpr ⟨hpos, hle⟩))
  · rw [badBaud_eq_false]
    omega

/-! ## The halt (60_exceptions.md R219, R220) -/

theorem step_of_halted {s : State} (h : s.run = false) : step s = .next (envTurn s) := by
  simp only [step, h]

/-- Settles O11: the step is the environment's turn, and without a reset that is the line's. -/
theorem haltedSequencerIsFrozen : Obligations.HaltedSequencerIsFrozen := by
  intro s hrun hl
  have line := envTurn_line s hl
  exact ⟨envTurn s, step_of_halted hrun, line.run.trans hrun, line.fault, line.seq, line.dly, line.cmdPort, line.responses, line.trace,
    line.slots, line.uart, line.params, line.badCommand, line.pins, line.uartRegs, envTurn_onlyLine s hl, rfl,
    fun _ _ => envTurn_of_sched, envTurn_quiet s⟩

end Sys2Proof.Machine
end

section
/-! Operations that never complete (41_uart.md R182, R187 to R189; 60_exceptions.md R222): with the line silent a poll that found its bit
clear finds it clear again, in every later step, because nothing but the poll happens. -/

namespace Sys2Proof.Machine

/-! ## What a run with the line silent has done -/

/-- These bytes have been queued and these events traced, with `d` draws: `sentByte_eq_moved` and `statusPolled_eq_moved` tie it to the
micro-operations. -/
def State.moved (bytes : List Byte) (events : List Event) (d : Nat) (s : State) : State :=
  { s with target := { s.target with txf := s.target.txf ++ bytes }, trace := s.trace ++ events, draws := s.draws + d }

/-- The bit of the line status that a poll tests (10_state.md R56): `statusRead_bit` ties it to the word read. -/
def PollBit.isSet (p : Params) (t : Target) : PollBit → Bool
  | .rxReady => Machine.rxReady t
  | .txEmpty => Machine.txReady p t

/-- A poll has just failed: the operation waits, its `Nop` next (41_uart.md R182). -/
def State.blockedAt (i : Instr) (k : PollBit) (rest : List MicroOp) (w : ReadWord) (s : State) : State :=
  s.withSeq (.busy i w (.nop :: .poll k :: rest))

/-- From `s` the bytes have been queued with these events, then a poll has read these words and failed each time, and nothing else has
happened. -/
structure Blocked (k : PollBit) (bytes : List Byte) (events : List Event) (polls : List Word) (s t : State) : Prop where
  failed : ∀ v ∈ polls, BitVec.getLsbD v k.index = false
  trace : t.trace = s.trace ++ events ++ polls.map (fun v => .rd (regAddr s.params .muLsr) v)
  target : t.target = { s.target with txf := s.target.txf ++ bytes }
  still : StillBlocked s t

section
variable {s : State} {i : Instr} {k : PollBit} {w : ReadWord} {rest : List MicroOp} {b : Byte}

theorem State.moved_nothing (s : State) : s.moved [] [] 0 = s := by simp [State.moved]

theorem State.moved_moved (bytes later : List Byte) (events events' : List Event) (d d' : Nat) (s : State) :
    (s.moved bytes events d).moved later events' d' = s.moved (bytes ++ later) (events ++ events') (d + d') := by
  simp [State.moved, Nat.add_assoc]

theorem statusRead_bit (k : PollBit) (he : s.target.enabled = true) : s.statusRead.bit k = k.isSet s.params s.target := by
  rw [State.statusRead, if_pos he]
  cases k <;> rfl

theorem statusRead_toWord_bit (k : PollBit) (he : s.target.enabled = true) :
    s.statusRead.toWord.getLsbD k.index = k.isSet s.params s.target :=
  (ReadWord.bit_eq k _).symm.trans (statusRead_bit k he)

theorem statusPolled_eq_moved (s : State) :
    s.statusPolled = s.moved [] [.rd (regAddr s.params .muLsr) s.statusRead.toWord] 1 := by
  simp only [State.moved, List.append_nil]
  rfl

theorem sentByte_eq_moved (he : s.target.enabled = true) (hroom : s.target.txf.length < s.params.fifoDepth) :
    s.sentByte b = s.moved [b] [.rd (regAddr s.params .muLsr) s.statusRead.toWord, .wr (regAddr s.params .muIo) (zext32 b)] 2 := by
  have htxf : txfWritten s.statusPolled b = s.target.txf ++ [b] := by
    unfold txfWritten
    rw [if_pos (show s.statusPolled.target.enabled = true from he),
      if_pos (show s.statusPolled.target.txf.length < s.statusPolled.params.fifoDepth from hroom)]
    rfl
  rw [State.sentByte, State.byteWritten, htxf, statusPolled_eq_moved]
  simp only [State.moved, State.logEvent, State.withTarget, State.drawn, List.append_nil, List.append_assoc]
  rfl

/-! ## The polls -/

theorem poll_blocks (hq : s.sched = []) (he : s.target.enabled = true) (hk : k.isSet s.params s.target = false) :
    Ends 1 (s.withSeq (.busy i w (.poll k :: rest))) (s.statusPolled.blockedAt i k rest s.statusRead) := by
  have hbit : s.statusRead.bit k = false := (statusRead_bit k he).trans hk
  have htick := tick_of_performed (s := s.withSeq (.busy i w (.poll k :: rest))) hq rfl (.pollClear memRead_muLsr hbit)
  exact ends_of_tick htick (nop_parked _ _ _ _)

/-- One more step is the `Nop` and one more poll. -/
theorem step_of_blockedAt (hrun : s.run = true) (hq : s.sched = []) (he : s.target.enabled = true)
    (hk : k.isSet s.params s.target = false) :
    step (s.blockedAt i k rest w) = .next (s.statusPolled.blockedAt i k rest s.statusRead) := by
  have hnop : Runs 1 (s.blockedAt i k rest w) (s.withSeq (.busy i w (.poll k :: rest))) :=
    runs_of_tick (tick_of_performed (s := s.blockedAt i k rest w) hq rfl .nop) (busy_not_parked _ _ _ rfl)
  rw [step_of_busy (s := s.blockedAt i k rest w) hrun rfl]
  exact hnop.ends (poll_blocks hq he hk) _ (by simp only [opsCost_cons, MicroOp.cost]; omega)

theorem run_succ_of_step (M : Host.Core) {a b : M.State} (n : Nat) (h : M.step a = .next b) : M.run (n + 1) a = M.run n b := by
  simp only [Host.Core.run, h]

/-- After any number of steps a blocked operation has read the status that often, and is blocked. -/
theorem run_of_blockedAt (hrun : s.run = true) (hq : s.sched = []) (he : s.target.enabled = true)
    (hk : k.isSet s.params s.target = false) (n : Nat) :
    ∃ (w' : ReadWord) (polls : List Word), polls.length = n ∧ (∀ v ∈ polls, BitVec.getLsbD v k.index = false) ∧
      Sys2Proof.core.run n (s.blockedAt i k rest w)
        = .next ((s.moved [] (polls.map fun v => .rd (regAddr s.params .muLsr) v) n).blockedAt i k rest w') := by
  induction n generalizing s w with
  | zero => exact ⟨w, [], rfl, by simp, by rw [List.map_nil, State.moved_nothing]; rfl⟩
  | succ n ih =>
    have hbit : s.statusRead.toWord.getLsbD k.index = false := (statusRead_toWord_bit k he).trans hk
    obtain ⟨w', polls, hlen, hpolls, hsteps⟩ := ih (s := s.statusPolled) (w := s.statusRead) hrun hq he hk
    refine ⟨w', s.statusRead.toWord :: polls, by rw [List.length_cons, hlen], List.forall_mem_cons.mpr ⟨hbit, hpolls⟩, ?_⟩
    refine (run_succ_of_step Sys2Proof.core n (step_of_blockedAt hrun hq he hk)).trans (hsteps.trans ?_)
    rw [statusPolled_eq_moved, State.moved_moved, Nat.add_comm]
    rfl

theorem blocked_of_moved {bytes : List Byte} {events : List Event} {polls : List Word} {d : Nat} (hrun : s.run = true)
    (hq : s.sched = []) (hfailed : ∀ v ∈ polls, BitVec.getLsbD v k.index = false) :
    Blocked k bytes events polls s
      ((s.moved bytes (events ++ polls.map fun v => .rd (regAddr s.params .muLsr) v) d).blockedAt i k rest w) where
  failed := hfailed
  trace := (List.append_assoc _ _ _).symm
  target := rfl
  still := ⟨hrun, by simp [State.blockedAt], rfl, rfl, rfl, rfl, rfl, rfl, hq, rfl, rfl, rfl⟩

/-- An operation that has queued some bytes and polls for a bit that is clear waits from there on, for ever. -/
theorem clear_poll_blocks_for_ever {bytes : List Byte} {events : List Event} {d : Nat} (hrun : s.run = true) (hq : s.sched = [])
    (he : s.target.enabled = true) (hk : k.isSet s.params { s.target with txf := s.target.txf ++ bytes } = false) :
    ∃ t0, Ends 1 ((s.moved bytes events d).withSeq (.busy i w (.poll k :: rest))) t0 ∧
      ∀ n, ∃ (t : State) (polls : List Word), Sys2Proof.core.run n t0 = .next t ∧ polls.length = n + 1 ∧
        Blocked k bytes events polls s t := by
  obtain ⟨u, hu⟩ : ∃ u, u = s.moved bytes events d := ⟨_, rfl⟩
  have urun : u.run = true := hu ▸ hrun
  have uquiet : u.sched = [] := hu ▸ hq
  have uenabled : u.target.enabled = true := hu ▸ he
  have uclear : k.isSet u.params u.target = false := hu ▸ hk
  have hbit : u.statusRead.toWord.getLsbD k.index = false := (statusRead_toWord_bit k uenabled).trans uclear
  refine ⟨u.statusPolled.blockedAt i k rest u.statusRead, hu ▸ poll_blocks uquiet uenabled uclear, fun n => ?_⟩
  obtain ⟨w', polls, hlen, hpolls, hsteps⟩ := run_of_blockedAt (s := u.statusPolled) (i := i) (rest := rest) (w := u.statusRead)
    urun uquiet uenabled uclear n
  have hmoved : u.statusPolled.moved [] (polls.map fun v => .rd (regAddr u.statusPolled.params .muLsr) v) n
      = s.moved bytes (events ++ (u.statusRead.toWord :: polls).map fun v => .rd (regAddr s.params .muLsr) v) (d + 1 + n) := by
    rw [statusPolled_eq_moved, hu, State.moved_moved, State.moved_moved, List.append_nil, List.append_nil, Nat.add_assoc]
    rfl
  rw [hmoved] at hsteps
  exact ⟨_, _, hsteps, List.length_cons.trans (congrArg (· + 1) hlen),
    blocked_of_moved hrun hq (List.forall_mem_cons.mpr ⟨hbit, hpolls⟩)⟩

/-! ## The bytes that have room -/

/-- A transmitter that is ready has room in a FIFO that can hold a byte (10_state.md R56). -/
theorem room_of_txReady_of_depth {p : Params} {t : Target} (hd : 1 ≤ p.fifoDepth) (h : txReady p t = true) :
    t.txf.length < p.fifoDepth := by
  unfold txReady at h
  split at h
  · exact of_decide_eq_true h
  · rwa [List.isEmpty_iff.mp h]

/-- One byte, which a poll finds room for (41_uart.md R187). -/
theorem sendByte_runs_moved (hq : s.sched = []) (he : s.target.enabled = true) (hd : 1 ≤ s.params.fifoDepth)
    (hr : txReady s.params s.target = true) (hg : goesOn rest = true) :
    Runs 2 (s.withSeq (.busy i w (sendByte s.params b ++ rest)))
      ((s.moved [b] [.rd (regAddr s.params .muLsr) s.statusRead.toWord, .wr (regAddr s.params .muIo) (zext32 b)] 2).withSeq
        (.busy i s.statusRead rest)) := by
  have hbit : s.statusRead.bit .txEmpty = true := (statusRead_bit .txEmpty he).trans hr
  have hruns := sendByte_runs_quiet (s := s.withSeq (.busy i w (sendByte s.params b ++ rest))) hq rfl hbit hg
  rwa [State.sentByte_withSeq, sentByte_eq_moved he (room_of_txReady_of_depth hd hr)] at hruns

theorem goesOn_sendBytes (p : Params) (text : List Byte) (hg : goesOn rest = true) : goesOn (text.flatMap (sendByte p) ++ rest) = true := by
  cases text with
  | nil => exact hg
  | cons b text => rfl

/-- The bytes of a text for each of which a poll finds the transmitter ready (41_uart.md R189). -/
theorem sendText_runs_quiet {text : List Byte} (hq : s.sched = []) (he : s.target.enabled = true)
    (hd : text ≠ [] → 1 ≤ s.params.fifoDepth) (hg : goesOn rest = true)
    (hr : ∀ n < text.length, txReady s.params { s.target with txf := s.target.txf ++ text.take n } = true) :
    ∃ (w' : ReadWord) (polls : List Word), polls.length = text.length ∧ (∀ v ∈ polls, BitVec.getLsbD v 5 = true) ∧
      Runs (2 * text.length) (s.withSeq (.busy i w (text.flatMap (sendByte s.params) ++ rest)))
        ((s.moved text (sendEvents s.params polls text) (2 * text.length)).withSeq (.busy i w' rest)) := by
  induction text generalizing s w with
  | nil => exact ⟨w, [], rfl, by simp, by simpa [sendEvents, State.moved_nothing] using Runs.refl _⟩
  | cons b text ih =>
    have hready : txReady s.params s.target = true := by simpa using hr 0 (by simp)
    have hbit : s.statusRead.toWord.getLsbD 5 = true := (statusRead_toWord_bit .txEmpty he).trans hready
    have hdepth := hd (List.cons_ne_nil b text)
    have hbyte := sendByte_runs_moved (i := i) (w := w) (b := b) hq he hdepth hready (goesOn_sendBytes s.params text hg)
    obtain ⟨w', polls, hlen, hpolls, hruns⟩ := ih (s := s.moved [b] _ 2) (w := s.statusRead) hq he (fun _ => hdepth) fun n hn => by
      simpa [State.moved] using hr (n + 1) (by simpa using hn)
    refine ⟨w', s.statusRead.toWord :: polls, by rw [List.length_cons, List.length_cons, hlen],
      List.forall_mem_cons.mpr ⟨hbit, hpolls⟩, ?_⟩
    rw [State.moved_moved] at hruns
    rw [List.length_cons, Nat.mul_succ, Nat.add_comm, List.flatMap_cons, List.append_assoc]
    exact hbyte.trans hruns

end

/-! ## The operations -/

/-- Settles O32: the first poll finds no byte, and nothing brings one. -/
theorem readBlocksWithoutData : Obligations.ReadBlocksWithoutData := by
  intro s hs hq hu he hrxf
  obtain ⟨q, hseq, hexec⟩ := exec_onUart (i := .uartReadc)
    (ops := [.poll .rxReady, .memRead (regAddr s.params .muIo), .finish .received]) hs hu rfl
  have hclear : PollBit.isSet s.params { s.target with txf := s.target.txf ++ [] } .rxReady = false := by
    simp only [PollBit.isSet, rxReady, hrxf, List.isEmpty_nil, Bool.not_true]
  obtain ⟨t0, hends, hwaits⟩ := clear_poll_blocks_for_ever (k := .rxReady) (events := []) (d := 0) hs.1 hq he hclear
  rw [State.moved_nothing, ← hseq] at hends
  refine ⟨t0, hexec.trans (hends _ (by simp [opsCost, MicroOp.cost])), fun k => ?_⟩
  obtain ⟨t, polls, hrun, hlen, blocked⟩ := hwaits k
  exact ⟨t, polls, hrun, hlen, blocked.failed, by simpa using blocked.trace, by simpa using blocked.target, blocked.still⟩

/-- Settles O31: the bytes that have room are sent, and the poll for the next one finds none, then and for ever. -/
theorem sendBlocksWithoutRoom : Obligations.SendBlocksWithoutRoom := by
  intro i sent s hi hs hq hu he hd hr hfull
  obtain ⟨b, later, hplan⟩ : ∃ b later, planOf s i = onUart (sendOps s.params (sent ++ b :: later)) s := by
    obtain ⟨⟨b, rfl⟩, rfl⟩ | ⟨b, later, rfl⟩ := hi
    · exact ⟨b, [], rfl⟩
    · exact ⟨b, later, rfl⟩
  obtain ⟨q, hseq, hexec⟩ := exec_onUart hs hu hplan
  have split : sendOps s.params (sent ++ b :: later) = sent.flatMap (sendByte s.params) ++ sendOps s.params (b :: later) := by
    rw [sendOps, List.flatMap_append, List.append_assoc]
    rfl
  obtain ⟨w, ready, hready, hset, hruns⟩ := sendText_runs_quiet (i := i) (w := .plain 0) hq he hd (goesOn_sendOps _ (b :: later)) hr
  obtain ⟨t0, hends, hwaits⟩ := clear_poll_blocks_for_ever (k := .txEmpty) (bytes := sent) hs.1 hq he hfull
  rw [← split, ← hseq] at hruns
  refine ⟨t0, hexec.trans (hruns.ends hends _ ?_), fun k => ?_⟩
  · rw [opsCost_sendOps]
    simp only [List.length_append, List.length_cons]
    omega
  · obtain ⟨t, polls, hrun, hlen, blocked⟩ := hwaits k
    exact ⟨t, ready, polls, hrun, hready, hset, hlen, blocked.failed, blocked.trace, blocked.target, blocked.still⟩

end Sys2Proof.Machine
end

section
/-! The reset event (70_reset_and_hazards.md R240; 10_state.md R70 to R72): what it leaves, and that one that is due is taken at the next turn of
the environment, after which no sequencer step of that turn has anything to do. -/

namespace Sys2Proof.Machine

/-- Settles O50. -/
theorem resetEventFromEveryState : Obligations.ResetEventFromEveryState := by
  intro launch s
  refine ⟨⟨rfl, rfl⟩, rfl, rfl, ?_, fun c hc => ?_, rfl, rfl, rfl, rfl, rfl⟩
  · rw [State.resetEvent_slots, List.length_replicate]
  · rw [State.resetEvent_slots] at hc
    rw [List.eq_of_mem_replicate hc]
    rfl

section
variable {s : State} {launch : Target} {later : List (List EnvStep)}

theorem envTurn_of_reset (h : s.sched = [.reset launch] :: later) : envTurn s = (s.withSched later).resetEvent launch :=
  envTurn_of_sched h

/-- The reset leaves the sequencer nothing to do in its tick. -/
theorem tick_of_reset (h : s.sched = [.reset launch] :: later) : tick s = .next ((s.withSched later).resetEvent launch) := by
  rw [tick, envTurn_of_reset h, sequencerStep, State.resetEvent_seq]

/-- A run ends with the tick the reset falls in. -/
theorem runSeq_of_reset (h : s.sched = [.reset launch] :: later) (ops : List MicroOp) :
    runSeq (opsCost ops) s = .next ((s.withSched later).resetEvent launch) :=
  ends_of_tick (tick_of_reset h) rfl _ (Nat.le_add_left _ _)

/-- An operation whose checks pass is cut short before its first micro-operation, and its place in it is forgotten. -/
theorem exec_of_reset {i : Instr} {ops : List MicroOp} (h : s.sched = [.reset launch] :: later) (hs : s.ready)
    (hplan : planOf s i = .ok ops) : exec i s = .next ((s.withSched later).resetEvent launch) := by
  rw [exec_eq_issue_planOf, hplan, issue_runs i ops s hs]
  exact runSeq_of_reset (s := s.withSeq (.busy i (.plain 0) ops)) h ops

end

/-- Settles O51. -/
theorem scheduledResetIsTaken : Obligations.ScheduledResetIsTaken := by
  intro s launch later hsched
  refine ⟨tick_of_reset hsched, fun hrun => ?_, fun i w rest hrun hseq => ?_, fun hs hd => ?_, fun i hs hno => ?_⟩
  · rw [step_of_halted hrun, envTurn_of_reset hsched]
  · rw [step_of_busy hrun hseq, runSeq_of_reset hsched]
  · rw [step_of_incomplete hs hd, envTurn_of_reset hsched]
  · cases hplan : planOf s i with
    | error f => exact absurd (exec_of_planOf_error hs hplan) (hno f)
    | ok ops => exact exec_of_reset hsched hs hplan

end Sys2Proof.Machine
end

section
/-! The poll discipline (70_reset_and_hazards.md R256, R257; 41_uart.md R187 to R189): `MU_IO` is accessed only right after a poll that found
its bit set. Inside a run such a poll may lie behind and its access ahead; where a run stops none does, so that the discipline holds of what
remains on its own. -/

namespace Sys2Proof.Machine

/-! ## The trace -/

theorem pollsFirst_cons (p : Params) (before : Option Event) (e : Event) (later : List Event) :
    pollsFirst p before (e :: later) = (pollsFirst p before [e] && pollsFirst p (some e) later) := by
  cases e <;> simp only [pollsFirst, Bool.and_true]

/-- The event that a trace is continued after is its last one. -/
theorem pollsFirst_append (p : Params) (before : Option Event) (tr later : List Event) :
    pollsFirst p before (tr ++ later) = (pollsFirst p before tr && pollsFirst p (tr.getLast?.or before) later) := by
  induction tr generalizing before with
  | nil => rfl
  | cons e tr ih =>
    have last : (e :: tr).getLast?.or before = tr.getLast?.or (some e) := by
      rw [List.getLast?_cons]
      cases tr.getLast? <;> rfl
    rw [List.cons_append, pollsFirst_cons, ih, pollsFirst_cons p before e tr, last, Bool.and_assoc]

theorem pollsFirst_concat (p : Params) (tr : List Event) (e : Event) :
    pollsFirst p none (tr ++ [e]) = (pollsFirst p none tr && pollsFirst p tr.getLast? [e]) := by
  rw [pollsFirst_append, Option.or_none]

theorem memRead_trace {a : Word} {s t : State} {w : ReadWord} (h : memRead a s = .ok (w, t)) :
    t.trace = s.trace ++ [.rd a w.toWord] := by
  obtain ⟨r, -, -, rfl⟩ := memRead_ok h
  rw [State.logEvent_trace, readReg_frame]

theorem memWrite_trace {a v : Word} {s t : State} (h : memWrite a v s = .ok t) : t.trace = s.trace ++ [.wr a v] := by
  obtain ⟨r, u, -, hu, rfl⟩ := memWrite_ok h
  rw [State.logEvent_trace, writeReg_frame hu]

/-! ## What remains of an operation -/

/-- After the event `last` what remains of an operation keeps the discipline: from its start, or behind a poll that read the word there with
its bit set. -/
def GuardedAfter (p : Params) (last : Option Event) (rest : List MicroOp) : Prop :=
  ∃ before, guarded p before rest = true ∧ ∀ k, before = some k → polled p k last = true

section
variable {p : Params} {last : Option Event} {rest : List MicroOp} {a v : Word}

theorem guardedAfter_of_guarded (h : guarded p none rest = true) : GuardedAfter p last rest := ⟨none, h, nofun⟩

/-- An access is of another register than `MU_IO`, or comes right after a poll of its bit. -/
theorem not_muIo_or_polled {before : Option PollBit} {k : PollBit} (h : (a != regAddr p .muIo || before == some k) = true)
    (hlast : ∀ k, before = some k → polled p k last = true) : (a != regAddr p .muIo || polled p k last) = true := by
  rw [Bool.or_eq_true] at h ⊢
  exact h.imp_right fun hk => hlast k (beq_iff_eq.mp hk)

theorem GuardedAfter.memRead (h : GuardedAfter p last (.memRead a :: rest)) :
    pollsFirst p last [.rd a v] = true ∧ guarded p none rest = true := by
  obtain ⟨before, hops, hlast⟩ := h
  obtain ⟨ha, hrest⟩ := Bool.and_eq_true_iff.mp hops
  exact ⟨by rw [pollsFirst, not_muIo_or_polled ha hlast]; rfl, hrest⟩

theorem GuardedAfter.memWrite {x : Word} (h : GuardedAfter p last (.memWrite a x :: rest)) :
    pollsFirst p last [.wr a v] = true ∧ guarded p none rest = true := by
  obtain ⟨before, hops, hlast⟩ := h
  obtain ⟨ha, hrest⟩ := Bool.and_eq_true_iff.mp hops
  exact ⟨by rw [pollsFirst, not_muIo_or_polled ha hlast]; rfl, hrest⟩

/-- The write of a read-modify-write is never one of `MU_IO`. -/
theorem GuardedAfter.memModify {clear bits : Word} (h : GuardedAfter p last (.memModify a clear bits :: rest)) :
    pollsFirst p last [.wr a v] = true ∧ guarded p none rest = true := by
  obtain ⟨before, hops, -⟩ := h
  obtain ⟨ha, hrest⟩ := Bool.and_eq_true_iff.mp hops
  exact ⟨by rw [pollsFirst, ha]; rfl, hrest⟩

theorem GuardedAfter.poll {k : PollBit} (h : GuardedAfter p last (.poll k :: rest)) : guarded p (some k) rest = true := by
  obtain ⟨before, hops, -⟩ := h
  exact hops

/-- A micro-operation that accesses nothing parts the poll before it from what comes after. -/
theorem GuardedAfter.tail {op : MicroOp} (h : GuardedAfter p last (op :: rest))
    (hop : ∀ before, guarded p before (op :: rest) = guarded p none rest) : guarded p none rest = true := by
  obtain ⟨before, hops, -⟩ := h
  exact hop before ▸ hops

/-- The read of a poll is no access of `MU_IO`. -/
theorem pollsFirst_muLsr (hp : p.wf = true) : pollsFirst p last [.rd (regAddr p .muLsr) v] = true := by
  have hne : (regAddr p .muLsr != regAddr p .muIo) = true := bne_iff_ne.mpr fun h => by cases regAddr_injective hp h
  rw [pollsFirst, hne]
  rfl

/-- A poll that found its bit set admits the access it was for. -/
theorem guardedAfter_of_bit {k : PollBit} {w : ReadWord} (h : guarded p (some k) rest = true) (hw : w.bit k = true) :
    GuardedAfter p (some (.rd (regAddr p .muLsr) w.toWord)) rest := by
  refine ⟨some k, h, fun j hj => ?_⟩
  cases hj
  rw [polled, beq_self_eq_true, ← ReadWord.bit_eq, hw]
  rfl

end

/-! ## Runs -/

/-- `State.Disciplined` in the middle of a run, where a poll may just have found its bit set. -/
structure DisciplinedRun (s : State) : Prop where
  params : s.params.wf = true
  trace : pollsFirst s.params none s.trace = true
  rest : ∀ i w rest, s.seq = .busy i w rest → GuardedAfter s.params s.trace.getLast? rest

/-- What the steps of the line and a reset keep, the environment's turn keeps. -/
theorem envTurn_keeps {P : State → Prop} (line : ∀ a b, LineStep a b → P a → P b) (reset : ∀ launch a, P a → P (a.resetEvent launch))
    {s : State} (hs : ∀ later, P (s.withSched later)) : P (envTurn s) := by
  have keeps : ∀ a e, P a → P (envStep a e) := fun a e ha => by
    cases e with
    | txDrain => exact line _ _ (txDrain_line a) ha
    | rxArrive b => exact line _ _ (rxArrive_line b a) ha
    | reset launch => exact reset launch a ha
  unfold envTurn
  split
  · exact hs s.sched
  · exact List.foldlRecOn _ _ (hs _) fun a ha e _ => keeps a e ha

section
variable {s t : State} {i : Instr} {w : ReadWord} {op : MicroOp} {rest : List MicroOp}

theorem State.Disciplined.running (h : s.Disciplined) : DisciplinedRun s :=
  ⟨h.params, h.trace, fun i w rest hs => guardedAfter_of_guarded (h.rest i w rest hs)⟩

/-- Where a run stops no access waits behind a poll that found its bit set: the operation has ended, or its `Nop` comes next. -/
theorem DisciplinedRun.stopped (h : DisciplinedRun s) (hp : s.parked = true) : s.Disciplined := by
  refine ⟨h.params, h.trace, fun i w rest hs => ?_⟩
  have hrest := h.rest i w rest hs
  unfold State.parked at hp
  rw [hs] at hp
  split at hp
  · contradiction
  · rename_i hnop
    cases hnop
    exact hrest.tail fun _ => rfl
  · cases hp

theorem disciplined_of_idle (hp : s.params.wf = true) (htrace : pollsFirst s.params none s.trace = true) (hs : s.seq = .idle) :
    s.Disciplined :=
  ⟨hp, htrace, fun _ _ _ hbusy => by cases hs.symm.trans hbusy⟩

theorem resetEvent_disciplined (launch : Target) (hp : s.params.wf = true) : (s.resetEvent launch).Disciplined :=
  disciplined_of_idle hp rfl rfl

theorem DisciplinedRun.idle (h : DisciplinedRun s) : (s.withSeq .idle).Disciplined := disciplined_of_idle h.params h.trace rfl

theorem envTurn_disciplined (h : s.Disciplined) : (envTurn s).Disciplined := by
  refine envTurn_keeps (fun a b line ha => ?_) (fun launch a ha => resetEvent_disciplined launch ha.params)
    fun _ => ⟨h.params, h.trace, h.rest⟩
  obtain ⟨hp, htrace, hrest⟩ := ha
  exact ⟨line.params ▸ hp, by rw [line.params, line.trace, htrace], by rw [line.params, line.seq]; exact hrest⟩

theorem envTurn_disciplinedRun (h : DisciplinedRun s) : DisciplinedRun (envTurn s) := by
  refine envTurn_keeps (fun a b line ha => ?_) (fun launch a ha => (resetEvent_disciplined launch ha.params).running)
    fun _ => ⟨h.params, h.trace, h.rest⟩
  obtain ⟨hp, htrace, hrest⟩ := ha
  exact ⟨line.params ▸ hp, by rw [line.params, line.trace, htrace], by rw [line.params, line.seq, line.trace]; exact hrest⟩

/-- An event that may come next, and what remains after it. -/
theorem DisciplinedRun.after_event {e : Event} (h : DisciplinedRun s) (hparams : t.params = s.params) (htrace : t.trace = s.trace ++ [e])
    (he : pollsFirst s.params s.trace.getLast? [e] = true) (hrest : GuardedAfter s.params (some e) rest) :
    DisciplinedRun (t.withSeq (.busy i w rest)) where
  params := hparams ▸ h.params
  trace := by rw [State.withSeq_params, State.withSeq_trace, hparams, htrace, pollsFirst_concat, h.trace, he]; rfl
  rest _ _ _ hbusy := by
    cases hbusy
    rwa [State.withSeq_params, State.withSeq_trace, hparams, htrace, List.getLast?_concat]

/-- No event, and what remains keeps the discipline from its start. -/
theorem DisciplinedRun.without_event (h : DisciplinedRun s) (hrest : guarded s.params none rest = true) :
    DisciplinedRun (s.withSeq (.busy i w rest)) :=
  ⟨h.params, h.trace, fun _ _ _ hbusy => by
    cases hbusy
    exact guardedAfter_of_guarded hrest⟩

theorem DisciplinedRun.withDly (h : DisciplinedRun s) (d : BitVec 8) : DisciplinedRun (s.withDly d) := ⟨h.params, h.trace, h.rest⟩

theorem perform_disciplinedRun (h : perform i w rest op s = .next t) (hs : s.seq = .busy i w (op :: rest)) (hd : DisciplinedRun s) :
    DisciplinedRun t := by
  have hops := hd.rest i w _ hs
  cases performed_of_perform h with
  | memRead hm =>
    obtain ⟨hevent, hrest⟩ := hops.memRead
    exact hd.after_event (memRead_untouched hm).params (memRead_trace hm) hevent (guardedAfter_of_guarded hrest)
  | memWrite hm =>
    obtain ⟨hevent, hrest⟩ := hops.memWrite
    exact hd.after_event (memWrite_untouched hm).params (memWrite_trace hm) hevent (guardedAfter_of_guarded hrest)
  | memModify hm =>
    obtain ⟨hevent, hrest⟩ := hops.memModify
    exact hd.after_event (memWrite_untouched hm).params (memWrite_trace hm) hevent (guardedAfter_of_guarded hrest)
  | delay => exact (hd.withDly _).without_event (hops.tail fun _ => rfl)
  | waitOver _ => exact hd.after_event rfl rfl rfl (guardedAfter_of_guarded (hops.tail fun _ => rfl))
  | waitOn _ => exact (hd.withDly _).without_event (hops.tail fun _ => rfl)
  | pollSet hm hbit =>
    exact hd.after_event (memRead_untouched hm).params (memRead_trace hm) (pollsFirst_muLsr hd.params) (guardedAfter_of_bit hops.poll hbit)
  | pollClear hm _ =>
    exact hd.after_event (memRead_untouched hm).params (memRead_trace hm) (pollsFirst_muLsr hd.params) (guardedAfter_of_guarded hops.poll)
  | nop => exact hd.without_event (hops.tail fun _ => rfl)
  | finish hu =>
    rw [applyUpdate_frame hu]
    exact ⟨hd.params, hd.trace, fun _ _ _ hbusy => by cases hbusy⟩

theorem tick_disciplinedRun (hd : DisciplinedRun s) (h : tick s = .next t) : DisciplinedRun t := by
  have he := envTurn_disciplinedRun hd
  obtain ⟨-, rfl⟩ | ⟨i, w, -, rfl⟩ | ⟨i, w, op, rest, hs, hperform⟩ := sequencerStep_cases h
  · exact he
  · exact he.idle.running
  · exact perform_disciplinedRun hperform hs he

/-- A run with the ticks it needs. -/
theorem runSeq_disciplined {n : Nat} (hd : DisciplinedRun s) (hn : s.ticksLeft ≤ n) (h : runSeq n s = .next t) : t.Disciplined :=
  (runSeq_keeps (fun _ _ => tick_disciplinedRun) hd h).stopped (runSeq_stops_parked hn h)

end

/-! ## What the operations plan -/

/-- A micro-operation that does not name `MU_IO`. -/
def MicroOp.sparesMuIo (p : Params) : MicroOp → Prop
  | .memRead a | .memWrite a _ | .memModify a _ _ => a ≠ regAddr p .muIo
  | .delay _ | .wait _ | .poll _ | .nop | .finish _ => True

section
variable {p : Params}

theorem guarded_of_sparesMuIo {ops : List MicroOp} (h : ∀ op ∈ ops, op.sparesMuIo p) (before : Option PollBit) :
    guarded p before ops = true := by
  induction ops generalizing before with
  | nil => rfl
  | cons op ops ih =>
    have hop := h op List.mem_cons_self
    have ih := ih fun o ho => h o (List.mem_cons_of_mem _ ho)
    cases op with
    | memRead | memWrite | memModify => rw [guarded, bne_iff_ne.mpr hop, ih]; rfl
    | _ => exact ih _

theorem regAddr_ne_muIo (hp : p.wf = true) {r : Reg} (h : r ≠ .muIo) : regAddr p r ≠ regAddr p .muIo :=
  fun e => h (regAddr_injective hp e)

theorem fselRmw_sparesMuIo (hp : p.wf = true) {pin : BitVec 6} (code : BitVec 3) (hpin : pin.toNat ≤ 53) :
    ∀ op ∈ fselRmw p pin code, op.sparesMuIo p := by
  simp [fselRmw, fselAddr_eq p pin (by omega), MicroOp.sparesMuIo, regAddr_ne_muIo hp]

theorem pullSeq_sparesMuIo (hp : p.wf = true) (pin : BitVec 6) (code : BitVec 2) : ∀ op ∈ pullSeq p pin code, op.sparesMuIo p := by
  simp [pullSeq, pudAddr_eq, pudclkAddr_eq, MicroOp.sparesMuIo, regAddr_ne_muIo hp]

theorem uartPinSetup_sparesMuIo (hp : p.wf = true) {pin : BitVec 6} (hpin : pin.toNat ≤ 53) :
    ∀ op ∈ uartPinSetup p pin, op.sparesMuIo p :=
  List.forall_mem_append.mpr ⟨fselRmw_sparesMuIo hp _ hpin, pullSeq_sparesMuIo hp _ _⟩

theorem uartSetup_sparesMuIo (hp : p.wf = true) (d : Word) : ∀ op ∈ uartSetup p d, op.sparesMuIo p := by
  simp [uartSetup, MicroOp.sparesMuIo, regAddr_ne_muIo hp]

theorem uartStart_sparesMuIo (hp : p.wf = true) : ∀ op ∈ uartStart p, op.sparesMuIo p := by
  simp [uartStart, MicroOp.sparesMuIo, regAddr_ne_muIo hp]

/-- An operation that does not name `MU_IO`. -/
theorem guarded_append_finish {ops : List MicroOp} (h : ∀ op ∈ ops, op.sparesMuIo p) (u : Update) :
    guarded p none (ops ++ [.finish u]) = true :=
  guarded_of_sparesMuIo (List.forall_mem_append.mpr ⟨h, by simp [MicroOp.sparesMuIo]⟩) none

/-- Each byte of a text is written right after its own poll (41_uart.md R189). -/
theorem guarded_sendText (text : List Byte) {rest : List MicroOp} (h : guarded p none rest = true) :
    guarded p none (text.flatMap (sendByte p) ++ rest) = true := by
  induction text with
  | nil => exact h
  | cons b text ih =>
    rw [List.flatMap_cons, List.append_assoc]
    simpa [sendByte, guarded] using ih

end

theorem planned_guarded {s : State} {i : Instr} {ops : List MicroOp} (h : Planned s i ops) (hp : s.params.wf = true) :
    guarded s.params none ops = true := by
  obtain ⟨htx, hrx⟩ := pins_le_of_wf hp
  cases h with
  | gpioNew hslot hpin hpull =>
    exact guarded_append_finish (List.forall_mem_append.mpr ⟨fselRmw_sparesMuIo hp _ hpin, pullSeq_sparesMuIo hp _ _⟩) _
  | gpioOn => exact guarded_append_finish (ops := [_]) (by simp [MicroOp.sparesMuIo, setAddr_eq, regAddr_ne_muIo hp]) _
  | gpioOff => exact guarded_append_finish (ops := [_]) (by simp [MicroOp.sparesMuIo, clrAddr_eq, regAddr_ne_muIo hp]) _
  | repull => exact guarded_append_finish (pullSeq_sparesMuIo hp _ _) _
  | gpioDrop => rfl
  | uartNew =>
    refine guarded_append_finish ?_ _
    simp only [List.forall_mem_append]
    exact ⟨⟨⟨uartSetup_sparesMuIo hp _, uartPinSetup_sparesMuIo hp htx⟩, uartPinSetup_sparesMuIo hp hrx⟩, uartStart_sparesMuIo hp⟩
  | @uartSendc byte => exact guarded_sendText [byte] rfl
  | uartReadc => simp [guarded]
  | uartSendStr => exact guarded_sendText _ rfl

/-! ## A step -/

section
variable {s t : State} {i : Instr}

theorem exec_disciplined (hd : s.Disciplined) (h : exec i s = .next t) : t.Disciplined := by
  obtain rfl | ⟨-, ⟨f, rfl⟩ | ⟨ops, hplan, hrun⟩⟩ := exec_cases h
  · exact hd
  · exact disciplined_of_idle hd.params hd.trace rfl
  · have start : (s.withSeq (.busy i (.plain 0) ops)).Disciplined :=
      ⟨hd.params, hd.trace, fun _ _ _ hs => by
        cases hs
        exact planned_guarded (s := s) hplan hd.params⟩
    exact runSeq_disciplined start.running (ticksLeft_le_opsCost rfl) hrun

theorem withCmdPort_disciplined (ws : List Word) (hd : s.Disciplined) : (s.withCmdPort ws).Disciplined :=
  ⟨hd.params, hd.trace, hd.rest⟩

end

/-- Settles O54. -/
theorem everyStepKeepsThePollDiscipline : Obligations.EveryStepKeepsThePollDiscipline := by
  intro s t hd h
  obtain rfl | hrun | ⟨i, rest, -, hexec⟩ | ⟨w, rest, -, rfl⟩ := step_cases h
  · exact envTurn_disciplined hd
  · exact runSeq_disciplined hd.running (ticksLeft_le_fuel s) hrun
  · exact exec_disciplined (withCmdPort_disciplined rest hd) hexec
  · exact disciplined_of_idle hd.params hd.trace rfl

end Sys2Proof.Machine
end

section
/-! The sample words of the test vectors (95_test_vectors.md 2.3, 2.5, 2.6): a word the encoder writes decodes by the round trip, a text
whose last extension word carries bytes beyond its length by the reading relation, and an illegal word because no row of the opcode map
selects it. -/

namespace Sys2Proof

/-- The words of an operation, standing alone on the command port, decode to it. -/
theorem decode_of_encode_eq {i : Instr} {ws : List Word} (hi : i.wf = true) (hws : encode i = ws) : decode ws = .command i [] := by
  simpa only [hws, List.append_nil] using decodeReadsWhatEncodeWrites i [] hi

/-- Settles O7: eight words are legal, seven of them the encoder's own, and two are selected by no row. -/
theorem sampleWordsDecode : Obligations.SampleWordsDecode := by
  refine ⟨?gpioNew, ?gpioNewPull, ?gpioOn, ?gpioPullDown, ?uartNew, ?uartSendc, ?uartReadc, ?uartSendStr, ?illegalNew, ?illegalUart⟩
  case gpioNew | gpioNewPull | gpioOn | gpioPullDown | uartNew | uartSendc | uartReadc =>
    exact decode_of_encode_eq rfl (by decide)
  case uartSendStr => exact (reads_sendStr (len := 2) (ws := [0xFFFF4241]) (by decide) rfl).decode_eq []
  case illegalNew | illegalUart => exact (illegalExactlyWhenNoRowMatches _ _).1 (by decide)

end Sys2Proof
end
